-- ==== Sys2Proof/Word.lean ====
section
/-! DEFINITION. The word types of the engine's ports: a byte, a 32-bit request argument, the 80-bit request header
(00_scope.md R9, 30_encoding.md R80), a 40-bit response field (30_encoding.md R85). All other quantities of the spec are exact naturals (R9, D38). -/

namespace Sys2Proof

/-- An unsigned 8-bit value 0..255 (R9). -/
abbrev Byte := BitVec 8

/-- A request argument, 32-bit unsigned (R80: `arg0`, `arg1`). -/
abbrev Arg := BitVec 32

/-- A request header: `op` 7:0, `flags` 15:8, `arg0` 47:16, `arg1` 79:48 (R80). -/
abbrev Header := BitVec 80

/-- The `index` or the `count` field of a response, 40 bits (R85). -/
abbrev Field40 := BitVec 40

end Sys2Proof
end

