-- ==== Sys2Proof/Config.lean ====
section
/-! DEFINITION. The configuration: the implementation parameters of 00_scope.md R7, the values the spec leaves open
(opaque constants without a body), and the named byte values of 30_encoding.md R87 to R95 and R99. -/

namespace Sys2Proof.Config

/-! ## Command bytes (R87: the source's; R88 to R93: PRESUMED by the spec itself, K1 to K7; log 11) -/

/-- READ / READ0 (R87). -/
def cmdRead : Byte := 0x00#8
/-- READ1, legacy second half (R90, K4). -/
def cmdRead1 : Byte := 0x01#8
/-- READ-START (R87). -/
def cmdReadStart : Byte := 0x30#8
/-- READ-OOB, legacy spare area (R91, K5). -/
def cmdReadOob : Byte := 0x50#8
/-- SEQIN (R87). -/
def cmdSeqin : Byte := 0x80#8
/-- PAGEPROG (R87). -/
def cmdPageprog : Byte := 0x10#8
/-- GET-STATUS (R87). -/
def cmdGetStatus : Byte := 0x70#8
/-- ERASE-SETUP (R87). -/
def cmdEraseSetup : Byte := 0x60#8
/-- ERASE-CONFIRM (R87). -/
def cmdEraseConfirm : Byte := 0xD0#8
/-- READ-ID (R88, K1). -/
def cmdReadId : Byte := 0x90#8
/-- READ-PARAMETER-PAGE (R89, K2). -/
def cmdReadParamPage : Byte := 0xEC#8
/-- GET-FEATURES (R92, K6). -/
def cmdGetFeatures : Byte := 0xEE#8
/-- SET-FEATURES (R93, K7). -/
def cmdSetFeatures : Byte := 0xEF#8

/-! ## Fixed parameters (R7, R94, R95, R99) -/

/-- READ-ID address of the manufacturer and device bytes (R94). -/
def readIdAddress : Byte := 0x00#8
/-- READ-ID address of the ONFI signature (R94). -/
def readIdOnfiAddress : Byte := 0x20#8
/-- The one address cycle of READ-PARAMETER-PAGE (R89, K3). -/
def paramPageAddress : Byte := 0x00#8
/-- `READ_ID_LEN` (R7). -/
def readIdLen : Nat := 8
/-- `PARAM_PAGE_LEN` (R7). -/
def paramPageLen : Nat := 256
/-- `ONFI_SIG`, the bytes "ONFI" (R7, R95). -/
def onfiSig : List Byte := [0x4F#8, 0x4E#8, 0x46#8, 0x49#8]
/-- Where the signature stands in the parameter page (R95, K8). -/
def paramSigOffset : Nat := 0
/-- `FEATURE_LEN` (R7). -/
def featureLen : Nat := 4
/-- `ADDRESS_CYCLE_COUNT` (R7, R200). -/
def addressCycleCount : Nat := 5
/-- `COLUMN_SHIFT_LARGE` (R7). -/
def columnShiftLarge : Nat := 16
/-- `COLUMN_SHIFT_LEGACY` (R7, D13). -/
def columnShiftLegacy : Nat := 8
/-- `READ_CHUNK_MAX`: most read cycles in one `DataIn` (R7, R149). -/
def readChunkMax : Nat := 0x1000
/-- `GOOD_MARKER` (R7, R282). -/
def goodMarker : Byte := 0xFF#8
/-- `SEQ_MARKER_PAGES` (R7, R286). -/
def seqMarkerPages : Nat := 2
/-- `SEQ_MARKER_DELTA` (R7, R132). -/
def seqMarkerDelta : Nat := 5
/-- `STATUS_FAIL_MASK` (R7, R99, K9). -/
def statusFailMask : Byte := 0x01#8
/-- `SLOW_KEEP_PHASE`: which byte of each doubled pair is kept (R7, D14). -/
def slowKeepPhase : Nat := 0
/-- The legacy pointer commands before SEQIN, first half, second half, spare (R233, K10). -/
def pointerFirst : Byte := cmdRead
/-- See `pointerFirst` (R233, K10). -/
def pointerSecond : Byte := cmdRead1
/-- See `pointerFirst` (R233, K10). -/
def pointerSpare : Byte := cmdReadOob

/-! ## Free values -/

/-- What a 40-bit response field holds for a value that does not fit it: R85 gives the width and no rule says what becomes
of such a value. Nothing constrains it (DESIGN CHOICE, log 17). -/
opaque wideField : Nat → Field40

/-! ## Session parameters -/

/-- The parameters of R7 that a model takes as arguments (the OPEN ones) or that the spec lets a configuration change.
They are fixed for a session (R31, R383): no step writes them. -/
structure Params where
  /-- `READY_POLL_LIMIT` less one: the spec's parameter is an integer >= 1 (R7, D7). -/
  readyPollLimitPred : Nat
  /-- `PROGRAM_RETRY_LIMIT`, an integer >= 0 (R7, D8). -/
  programRetryLimit : Nat
  /-- `FEATURE_SETTLE_DELAY`, an uninterpreted duration (R7, R313). -/
  featureSettleDelay : Nat
  /-- `SLOW_MODE`: each read cycle is issued twice (R7, R31, R151). -/
  slowMode : Bool
  /-- `FORCE_LEGACY`: identification selects legacy small-page mode (R7, R28, D13). -/
  forceLegacy : Bool
  /-- `WRITE_MARKER_PAGES` (R7, R240). -/
  writeMarkerPages : Nat
  /-- `BULK_ERASE_BEFORE_PROGRAM` (R7, R238). -/
  bulkEraseBeforeProgram : Bool
  /-- `WP_PROTECT_LEVEL`: the electrical level that protects (R7, R146). -/
  wpProtectLevel : Bool
  /-- `SEQ_MARK_BEGIN`: the levels of the two sequential-read lines (R7, R146). -/
  seqMarkBegin : BitVec 2
  /-- `SEQ_MARK_END` (R7, R146). -/
  seqMarkEnd : BitVec 2
deriving DecidableEq, Repr

/-- `READY_POLL_LIMIT` (R7, R152). -/
def Params.readyPollLimit (p : Params) : Nat := p.readyPollLimitPred + 1

/-! The OPEN parameters have no value in the spec; nothing constrains these constants (log 10). -/

/-- OPEN (R7). -/
opaque openReadyPollLimitPred : Nat
/-- OPEN (R7). -/
opaque openProgramRetryLimit : Nat
/-- OPEN (R7). -/
opaque openFeatureSettleDelay : Nat
/-- OPEN (R7). -/
opaque openSlowMode : Bool
/-- OPEN (R7). -/
opaque openWpProtectLevel : Bool
/-- OPEN (R7). -/
opaque openSeqMarkBegin : BitVec 2
/-- OPEN (R7). -/
opaque openSeqMarkEnd : BitVec 2

/-- The parameters of a machine nobody has configured: R7's values where it gives one, the open constants elsewhere. -/
def Params.unconfigured : Params where
  readyPollLimitPred := openReadyPollLimitPred
  programRetryLimit := openProgramRetryLimit
  featureSettleDelay := openFeatureSettleDelay
  slowMode := openSlowMode
  forceLegacy := false
  writeMarkerPages := 1
  bulkEraseBeforeProgram := true
  wpProtectLevel := openWpProtectLevel
  seqMarkBegin := openSeqMarkBegin
  seqMarkEnd := openSeqMarkEnd

end Sys2Proof.Config
end

