-- ==== Sys2Proof/Syntax.lean ====
section
/-! DEFINITION. The instructions: one constructor per row of spec/opcode_table.json, the 11 operations of 30_encoding.md
R81 (with every operand R81 to R83 give them) and the 13 NAND command bytes of R87 to R93. -/

namespace Sys2Proof

/-- One row of the opcode table each. An operation keeps its whole `flags` byte, undefined bits included, because the
operation itself refuses them (R82). -/
inductive Instr where
  /-- IDENTIFY (R180). -/
  | identify (flags : Byte)
  /-- READ_PAGE (R210): page index. -/
  | readPage (flags : Byte) (page : Arg)
  /-- WRITE_PAGE (R230): page index, one buffer. -/
  | writePage (flags : Byte) (page : Arg) (buffer : List Byte)
  /-- WRITE_PAGES (R238): start page index, a list of buffers. -/
  | writePages (flags : Byte) (startPage : Arg) (buffers : List (List Byte))
  /-- ERASE_BLOCK (R260): block index. -/
  | eraseBlock (flags : Byte) (block : Arg)
  /-- ERASE_RANGE (R264): first and last block, inclusive. -/
  | eraseRange (flags : Byte) (firstBlock lastBlock : Arg)
  /-- SCAN_BAD_BLOCKS (R280). -/
  | scanBadBlocks (flags : Byte)
  /-- SEQ_READ_BLOCK (R284): block index. -/
  | seqReadBlock (flags : Byte) (block : Arg)
  /-- GET_FEATURE (R310): feature address. -/
  | getFeature (flags : Byte) (address : Arg)
  /-- SET_FEATURE (R311): feature address, value. -/
  | setFeature (flags : Byte) (address : Arg) (value : List Byte)
  /-- COMPUTE_BER (R330): two buffers. -/
  | computeBer (flags : Byte) (x y : List Byte)
  /-- NAND command READ (R87). -/
  | nandRead
  /-- NAND command READ1 (R90). -/
  | nandRead1
  /-- NAND command READ-START (R87). -/
  | nandReadStart
  /-- NAND command READ-OOB (R91). -/
  | nandReadOob
  /-- NAND command SEQIN (R87). -/
  | nandSeqin
  /-- NAND command PAGEPROG (R87). -/
  | nandPageprog
  /-- NAND command GET-STATUS (R87). -/
  | nandGetStatus
  /-- NAND command ERASE-SETUP (R87). -/
  | nandEraseSetup
  /-- NAND command ERASE-CONFIRM (R87). -/
  | nandEraseConfirm
  /-- NAND command READ-ID (R88). -/
  | nandReadId
  /-- NAND command READ-PARAMETER-PAGE (R89). -/
  | nandReadParamPage
  /-- NAND command GET-FEATURES (R92). -/
  | nandGetFeatures
  /-- NAND command SET-FEATURES (R93). -/
  | nandSetFeatures
deriving DecidableEq, Repr

/-- A request as it stands at the request port: header and payload (R80, R83). -/
structure Request where
  header  : Header
  payload : List (List Byte)
deriving DecidableEq, Repr

/-- What spells an instruction: a request at the request port, or a command byte under the command latch (R81, R97). -/
inductive PortWord where
  | request (r : Request)
  | command (b : Byte)
deriving DecidableEq, Repr

end Sys2Proof
end

