-- ==== Sys2Proof/Decode.lean ====
section
/-! DEFINITION. Decoding of requests and of command bytes (30_encoding.md R80 to R84, R87 to R93), and the encoder.
Decoding is total and rejects by name. -/

namespace Sys2Proof

/-- Why a word spells no instruction. -/
inductive DecodeError where
  /-- An `op` value not in R81 (R84). -/
  | undefinedOperation (op : Byte)
  /-- A command byte not in R87 to R93 (R96). -/
  | undefinedCommand (b : Byte)
deriving DecidableEq, Repr

/-- `op`, bits 7:0 (R80). -/
def opField (h : Header) : Byte := h.extractLsb' 0 8
/-- `flags`, bits 15:8 (R80). -/
def flagsField (h : Header) : Byte := h.extractLsb' 8 8
/-- `arg0`, bits 47:16 (R80). -/
def arg0Field (h : Header) : Arg := h.extractLsb' 16 32
/-- `arg1`, bits 79:48 (R80). -/
def arg1Field (h : Header) : Arg := h.extractLsb' 48 32

/-- The first byte sequence of a payload; a missing one reads as empty (log 5). -/
def firstBuffer (p : List (List Byte)) : List Byte := p.headD []

/-- The second byte sequence of a payload; a missing one reads as empty (log 5). -/
def secondBuffer (p : List (List Byte)) : List Byte := p.tail.headD []

/-- The request decoder (R81, R83, R84). -/
def decodeRequest (r : Request) : Except DecodeError Instr :=
  let f := flagsField r.header
  let a0 := arg0Field r.header
  match (opField r.header).toNat with
  | 0x01 => .ok (.identify f)
  | 0x02 => .ok (.readPage f a0)
  | 0x03 => .ok (.writePage f a0 (firstBuffer r.payload))
  | 0x04 => .ok (.writePages f a0 r.payload)
  | 0x05 => .ok (.eraseBlock f a0)
  | 0x06 => .ok (.eraseRange f a0 (arg1Field r.header))
  | 0x07 => .ok (.scanBadBlocks f)
  | 0x08 => .ok (.seqReadBlock f a0)
  | 0x09 => .ok (.getFeature f a0)
  | 0x0A => .ok (.setFeature f a0 (firstBuffer r.payload))
  | 0x0B => .ok (.computeBer f (firstBuffer r.payload) (secondBuffer r.payload))
  | _ => .error (.undefinedOperation (opField r.header))

/-- The NAND commands with their bytes (R87 to R93). -/
def commandTable : List (Byte × Instr) :=
  [(Config.cmdRead, .nandRead), (Config.cmdRead1, .nandRead1), (Config.cmdReadStart, .nandReadStart),
   (Config.cmdReadOob, .nandReadOob), (Config.cmdSeqin, .nandSeqin), (Config.cmdPageprog, .nandPageprog),
   (Config.cmdGetStatus, .nandGetStatus), (Config.cmdEraseSetup, .nandEraseSetup),
   (Config.cmdEraseConfirm, .nandEraseConfirm), (Config.cmdReadId, .nandReadId),
   (Config.cmdReadParamPage, .nandReadParamPage), (Config.cmdGetFeatures, .nandGetFeatures),
   (Config.cmdSetFeatures, .nandSetFeatures)]

/-- The command decoder (R87 to R93, R96). -/
def decodeCommand (b : Byte) : Except DecodeError Instr :=
  match commandTable.lookup b with
  | some i => .ok i
  | none => .error (.undefinedCommand b)

/-- The decoder. -/
def decode : PortWord → Except DecodeError Instr
  | .request r => decodeRequest r
  | .command b => decodeCommand b

/-- A header from its fields (R80). -/
def packHeader (op flags : Byte) (arg0 arg1 : Arg) : Header := arg1 ++ arg0 ++ flags ++ op

/-- A request word from its fields and payload. -/
def requestWord (op flags : Byte) (arg0 arg1 : Arg) (payload : List (List Byte)) : PortWord :=
  .request { header := packHeader op flags arg0 arg1, payload := payload }

/-- The encoder, from the tables of R81, R83 and R87 to R93; argument bits an operation does not use are 0. -/
def encode : Instr → PortWord
  | .identify f => requestWord 0x01#8 f 0#32 0#32 []
  | .readPage f p => requestWord 0x02#8 f p 0#32 []
  | .writePage f p buf => requestWord 0x03#8 f p 0#32 [buf]
  | .writePages f p bufs => requestWord 0x04#8 f p 0#32 bufs
  | .eraseBlock f b => requestWord 0x05#8 f b 0#32 []
  | .eraseRange f b0 b1 => requestWord 0x06#8 f b0 b1 []
  | .scanBadBlocks f => requestWord 0x07#8 f 0#32 0#32 []
  | .seqReadBlock f b => requestWord 0x08#8 f b 0#32 []
  | .getFeature f a => requestWord 0x09#8 f a 0#32 []
  | .setFeature f a v => requestWord 0x0A#8 f a 0#32 [v]
  | .computeBer f x y => requestWord 0x0B#8 f 0#32 0#32 [x, y]
  | .nandRead => .command Config.cmdRead
  | .nandRead1 => .command Config.cmdRead1
  | .nandReadStart => .command Config.cmdReadStart
  | .nandReadOob => .command Config.cmdReadOob
  | .nandSeqin => .command Config.cmdSeqin
  | .nandPageprog => .command Config.cmdPageprog
  | .nandGetStatus => .command Config.cmdGetStatus
  | .nandEraseSetup => .command Config.cmdEraseSetup
  | .nandEraseConfirm => .command Config.cmdEraseConfirm
  | .nandReadId => .command Config.cmdReadId
  | .nandReadParamPage => .command Config.cmdReadParamPage
  | .nandGetFeatures => .command Config.cmdGetFeatures
  | .nandSetFeatures => .command Config.cmdSetFeatures

/-- The port a word of the opcode table stands at: the request port if its low byte is an operation code, else, for a
word of one byte, the command latch (log 8; 0x01 is both IDENTIFY and READ1, and is read as the request). -/
def tableWord (nbits w : Nat) : PortWord :=
  let v := w % 2 ^ nbits
  let r : Request := { header := BitVec.ofNat 80 v, payload := [] }
  match decodeRequest r with
  | .ok _ => .request r
  | .error _ => if nbits ≤ 8 then .command (BitVec.ofNat 8 v) else .request r

/-- The instruction the decoder reads from a word of the opcode table (log 8). -/
def decodeTableWord (nbits w : Nat) : Option Instr :=
  match decode (tableWord nbits w) with
  | .ok i => some i
  | .error _ => none

end Sys2Proof
end

