-- ==== Sys2Proof/Machine/State.lean ====
section
/-! DEFINITION. The engine's state as plain data: everything 10_state.md gives it (R20 to R40), the configuration of
00_scope.md R7, the lines it drives, and the inputs and outputs of its three ports. -/

namespace Sys2Proof.Machine

/-- Why a step stops the machine. -/
inductive Fault where
  /-- The sequencer is at a command byte that is none of the 13 of R87 to R93. Raised by `step`. Safe: R96 says the
  engine sends no other byte, and no run reaches this (log 18). -/
  | unknownCommandByte
deriving DecidableEq, Repr

/-- Why a step is refused. -/
inductive Refusal where
  /-- An instruction without a meaning, rejected by name in `exec`. No instruction of this model uses it. Safe. -/
  | notModelled (mnemonic : String)
deriving DecidableEq, Repr

/-- The identification state machine (R22, R181). -/
inductive IdState where
  | uninitialized | probeId | probeOnfi | parseParameterPage | ready | failed
deriving DecidableEq, Repr

/-- The encoding of `S.idState` (R22). -/
def IdState.code : IdState → BitVec 3
  | .uninitialized => 0#3
  | .probeId => 1#3
  | .probeOnfi => 2#3
  | .parseParameterPage => 3#3
  | .ready => 4#3
  | .failed => 5#3

/-- Result codes (R86). -/
inductive ResultCode where
  | ok | deviceAbsent | identificationFailed | timeout | programFailure | eraseFailure | badBlock
  | invalidArgument | notIdentified | capacityExhausted | illegalRequest
deriving DecidableEq, Repr

/-- The numbers of the result codes (R86). -/
def ResultCode.code : ResultCode → Byte
  | .ok => 0#8
  | .deviceAbsent => 1#8
  | .identificationFailed => 2#8
  | .timeout => 3#8
  | .programFailure => 4#8
  | .eraseFailure => 5#8
  | .badBlock => 6#8
  | .invalidArgument => 7#8
  | .notIdentified => 8#8
  | .capacityExhausted => 9#8
  | .illegalRequest => 10#8

/-- The protocol-level errors, which abort the session (R23, R346). -/
inductive AbortCause where
  | deviceAbsent | identificationFailed | timeout
deriving DecidableEq, Repr

/-- The result code an abort cause answers with (R346). -/
def AbortCause.result : AbortCause → ResultCode
  | .deviceAbsent => .deviceAbsent
  | .identificationFailed => .identificationFailed
  | .timeout => .timeout

/-- The geometry register file `G` without `G.valid` (R24). Fields are exact naturals where the spec computes with them
(D38); that each fits its width of R24 is an invariant of the machine (log 19). -/
structure Geometry where
  /-- 32 bits. -/
  pageSize : Nat
  /-- 16 bits. -/
  oobSize : Nat
  /-- 33 bits. -/
  rawPageSize : Nat
  /-- 32 bits. -/
  pagesPerBlock : Nat
  /-- 32 bits. -/
  blocksPerLun : Nat
  /-- 8 bits. -/
  lunCount : Nat
  /-- 40 bits. -/
  blockCount : Nat
  /-- 72 bits. -/
  pageCount : Nat
  /-- 65 bits. -/
  blockSize : Nat
  /-- 85 bits. -/
  chipSizeMB : Nat
  /-- 3 bits. -/
  addressCycleCount : Nat
  /-- 8 bits. -/
  bitsPerCell : Byte
  /-- 8 bits. -/
  manufacturerId : Byte
  /-- 20 bytes. -/
  idString : List Byte
  /-- 1 bit: large-page mode (R28, R123). -/
  largePage : Bool
deriving DecidableEq, Repr

/-- What the geometry registers read as while `G.valid = 0`; no rule reads them then and no run does (R25, log 19). -/
def Geometry.absent : Geometry where
  pageSize := 0
  oobSize := 0
  rawPageSize := 0
  pagesPerBlock := 0
  blocksPerLun := 0
  lunCount := 0
  blockCount := 0
  pageCount := 0
  blockSize := 0
  chipSizeMB := 0
  addressCycleCount := 0
  bitsPerCell := 0#8
  manufacturerId := 0#8
  idString := []
  largePage := false

/-- The `list` field of a response (R85): block indices, or (block, status) pairs. -/
inductive ResponseList where
  | blocks (bs : List Nat)
  | statuses (ps : List (Nat × Byte))
deriving DecidableEq, Repr

/-- A response; an unfilled field holds no value (R85). `index` and `count` have 40 bits; `field40` fills
them (log 17). -/
structure Response where
  code      : ResultCode
  status    : Option Byte := none
  index     : Option Field40 := none
  count     : Option Field40 := none
  data      : Option (List Byte) := none
  list      : Option ResponseList := none
  markerBad : Option Bool := none
  geometry  : Option Geometry := none
  ber       : Option (Nat × Nat) := none
deriving DecidableEq, Repr

/-- The two patterns of the sequential-read lines (R97, R146). -/
inductive MarkPattern where
  | atBegin | atEnd
deriving DecidableEq, Repr

/-- A transaction at the transport port (R97). -/
inductive Transaction where
  | cmd (b : Byte)
  | addr (b : Byte)
  | dataOut (s : List Byte)
  | dataIn (n : Nat)
  | pollReady
  | setWP (protect : Bool)
  | mark (m : MarkPattern)
  | delay (t : Nat)
deriving DecidableEq, Repr

/-- The tag numbers of R97. -/
def Transaction.tag : Transaction → Nat
  | .cmd _ => 0
  | .addr _ => 1
  | .dataOut _ => 2
  | .dataIn _ => 3
  | .pollReady => 4
  | .setWP _ => 5
  | .mark _ => 6
  | .delay _ => 7

/-- What the transport may answer (R97, R140, R395). An answer of the wrong kind counts as absent (R395, log 3). -/
inductive Answer where
  | ok
  | absent
  | ready (r : Bool)
  | bytes (s : List Byte)
deriving DecidableEq, Repr

/-- A completed transaction with the transport's answer; `Delay` has none (R146). -/
structure Event where
  transaction : Transaction
  answer      : Option Answer
deriving DecidableEq, Repr

/-- One program attempt's operands (R231): pointer command, address word, data, and the page an error names. -/
structure Attempt where
  pointer : Option Byte
  address : Nat
  data    : List Byte
  page    : Nat
deriving DecidableEq, Repr

/-- The points of the procedures of files 43 to 47 at which the engine computes between two transactions. -/
inductive Action where
  /-- IDENTIFY, after READ-ID at 0x00 (R182). -/
  | keepIdBytes
  /-- IDENTIFY, after READ-ID at 0x20 (R183). -/
  | checkSignature
  /-- IDENTIFY, after the parameter page (R185 to R204). -/
  | parsePage
  /-- The return of `ReadStatus` (R155). -/
  | takeStatus
  /-- The decision of `ProgramWithRetry` (R235). -/
  | programVerdict (a : Attempt)
  /-- ERASE_BLOCK, after the erase (R260). -/
  | eraseVerdict
  /-- ERASE_RANGE, after one block (R264). -/
  | rangeNext
  /-- SCAN_BAD_BLOCKS, after one block's page (R280). -/
  | scanNext
  /-- SEQ_READ_BLOCK, after one page's data (R285). -/
  | seqPage
  /-- SEQ_READ_BLOCK, after one page's wait (R285). -/
  | seqNext
  /-- WRITE_PAGES, after one marker page (R240). -/
  | bulkMarker
  /-- WRITE_PAGES, after the marker pages of a block (R238). -/
  | bulkEntered
  /-- WRITE_PAGES, after the erase of a block (R238). -/
  | bulkErased
  /-- WRITE_PAGES, after one page (R238). -/
  | bulkWritten
deriving DecidableEq, Repr

/-- One entry of the remaining program of an operation (R33). -/
inductive Item where
  /-- `Cmd(b)` (R141). -/
  | cmd (b : Byte)
  /-- `Addr(b)` (R142). -/
  | addr (b : Byte)
  /-- `DataOut(s)` (R143). -/
  | dataOut (s : List Byte)
  /-- `Mark(m)` (R146). -/
  | mark (m : MarkPattern)
  /-- `Delay(FEATURE_SETTLE_DELAY)` (R146, R313). -/
  | delay
  /-- `ReadData(n)` with n useful bytes still to come (R149). -/
  | readData (n : Nat)
  /-- `WaitReady()` (R152); the polls answered so far are the local `poll`. -/
  | waitReady
  /-- The entry of the write-enable guard (R157). -/
  | guardOpen
  /-- The exit of the write-enable guard (R157). -/
  | guardClose
  /-- A computation between two transactions. -/
  | act (a : Action)
deriving DecidableEq, Repr

/-- The sequencer: the remaining program and the locals of the operation in progress (R33, R34). -/
structure Seq where
  /-- The current request's operation and arguments. -/
  op       : Instr
  /-- The remaining program: the sequencer position. -/
  todo     : List Item
  /-- The retry counter of a program attempt (R235). -/
  retry    : Nat := 0
  /-- The poll counter of `WaitReady` (R152). -/
  poll     : Nat := 0
  /-- The page cursor (R238); the page of the block in the sequential read (R285). -/
  page     : Nat := 0
  /-- The block cursor (R238, R264, R280). -/
  block    : Nat := 0
  /-- The data cursor of the bulk write (R238). -/
  cursor   : Nat := 0
  /-- The accumulated read buffer. -/
  buf      : List Byte := []
  /-- The result collected by the sequential read (R285). -/
  out      : List Byte := []
  /-- The last status byte read (R155). -/
  status   : Option Byte := none
  /-- The guard's saved write-protect value, while a guard is open (R157). -/
  saved    : Option Bool := none
  /-- A bad marker has been seen (R240, R286). -/
  bad      : Bool := false
  /-- The bad blocks found or the blocks skipped (R238, R280). -/
  blocks   : List Nat := []
  /-- The results of ERASE_RANGE (R264). -/
  statuses : List (Nat × Byte) := []
  /-- The error a guard's restore must still be sent for (R157, R345). -/
  pending  : Option Response := none
deriving DecidableEq, Repr

/-- The state. -/
structure State where
  /-- `S.idState` (R22). -/
  idState    : IdState
  /-- `S.abortCause` (R23). -/
  abortCause : Option AbortCause
  /-- The geometry registers; absent exactly when `G.valid = 0` (R24, R26). -/
  geom       : Option Geometry
  /-- `S.idBytes` (R29). -/
  idBytes    : Option (List Byte)
  /-- `S.wpProtect` (R30). -/
  wpProtect  : Bool
  /-- The sequencer position and locals; absent exactly when `S.busy = 0` (R32 to R34). -/
  seq        : Option Seq
  /-- The session's parameters (R7, R383). -/
  cfg        : Config.Params
  /-- The level of the write-protect line; absent while unknown (R40, R146). -/
  wpLine     : Option Bool
  /-- The levels of the two sequential-read lines; absent while unknown (R40, R146). -/
  markLines  : Option (BitVec 2)
  /-- Input: the reset input is asserted (R380). -/
  resetInput : Bool
  /-- Input: requests presented at the port and not yet accepted, oldest first (R80). -/
  requests   : List Request
  /-- Input: the transport's answers not yet taken, oldest first (R61, R140). -/
  answers    : List Answer
  /-- Output: the transactions completed, oldest first (R72). -/
  trace      : List Event
  /-- Output: the responses posted, oldest first (R85). -/
  responses  : List Response
deriving DecidableEq, Repr

/-- `S.busy` (R32): an operation is in progress. -/
def State.busy (s : State) : Bool := s.seq.isSome

/-- `G.valid` (R24, R25). -/
def State.gValid (s : State) : Bool := s.geom.isSome

/-- The geometry registers as a rule reads them (R25, log 19). -/
def State.geo (s : State) : Geometry := s.geom.getD Geometry.absent

/-- The state right after reset (R40, R380); the parameters are those of a machine nobody has configured (log 10), and
no input has arrived and nothing has been output (log 21). -/
def State.reset : State where
  idState := .uninitialized
  abortCause := none
  geom := none
  idBytes := none
  wpProtect := true
  seq := none
  cfg := Config.Params.unconfigured
  wpLine := none
  markLines := none
  resetInput := false
  requests := []
  answers := []
  trace := []
  responses := []

end Sys2Proof.Machine
end

