-- ==== Sys2Proof/Machine/Operands.lean ====
section
/-! DEFINITION. Operand forms: little-endian values, page and block addresses and their address cycles
(41_address_translation.md), slices of a buffer, the payload and flag operands of requests (30_encoding.md R81 to R83),
the 40-bit fields of a response (R85). -/

namespace Sys2Proof.Machine

/-- `LE(s)` (R10, R65). -/
def le : List Byte → Nat
  | [] => 0
  | b :: bs => b.toNat + 256 * le bs

/-- `s[a..b)` (R10). -/
def slice (s : List Byte) (a b : Nat) : List Byte := (s.drop a).take (b - a)

/-- `s[i]` (R10); every caller has `i < len(s)`. -/
def byteAt (s : List Byte) (i : Nat) : Byte := s.getD i 0x00#8

/-- The address bytes of `EncodeAddress(a, n)`, least significant first, high bits dropped (R64, R127). -/
def encodeAddress (a : Nat) : Nat → List Byte
  | 0 => []
  | n + 1 => BitVec.ofNat 8 a :: encodeAddress (a >>> 8) n

/-- The value in the 40 bits of the `index` or the `count` field of a response (R85): the value itself where it fits, and
a free value where it does not (log 17). -/
def field40 (n : Nat) : Field40 := if n < 2 ^ 40 then BitVec.ofNat 40 n else Config.wideField n

/-- `decomposeAddress` (R120). -/
def decomposeAddress (g : Geometry) (p : Nat) : Nat × Nat := (p / g.pagesPerBlock, p % g.pagesPerBlock)

/-- `composeAddress` (R121). -/
def composeAddress (g : Geometry) (b i : Nat) : Nat := b * g.pagesPerBlock + i

/-- `colShift()` (R124). -/
def colShift (g : Geometry) : Nat := if g.largePage then Config.columnShiftLarge else Config.columnShiftLegacy

/-- `colCycles()` (R124). -/
def colCycles (g : Geometry) : Nat := colShift g / 8

/-- `rowCycles()` (R124). -/
def rowCycles (g : Geometry) : Nat := g.addressCycleCount - colCycles g

/-- `pageAddressWord(p)` (R125). -/
def pageAddressWord (g : Geometry) (p : Nat) : Nat := p <<< colShift g

/-- `eraseAddressWord(b)` (R126). -/
def eraseAddressWord (g : Geometry) (b : Nat) : Nat := b * g.pagesPerBlock

/-- `firstPage(b)` (R131). -/
def firstPage (g : Geometry) (b : Nat) : Nat := composeAddress g b 0

/-- The marker offset of the scan and the bulk write (R132). -/
def markerOffset (g : Geometry) : Nat := g.pageSize

/-- The marker offset of the sequential read (R132). -/
def seqMarkerOffset (g : Geometry) : Nat := g.pageSize + Config.seqMarkerDelta

/-- `flags[0]` (R82). -/
def includeOob (flags : Byte) : Bool := flags.getLsbD 0

/-- `flags[1]` (R82). -/
def rawMode (flags : Byte) : Bool := flags.getLsbD 1

/-- The buffer at the data cursor of a bulk write (R238). -/
def bufferAt (bufs : List (List Byte)) (k : Nat) : List Byte := bufs.getD k []

/-- The index of the first buffer whose length is not n (R239). -/
def firstWrongLength (n : Nat) (bufs : List (List Byte)) : Option Nat :=
  bufs.findIdx? (fun b => b.length != n)

/-- The bytes kept of the doubled reply of a slow-mode read (R149, R151). -/
def keepPhase : List Byte → List Byte
  | a :: b :: rest => (if Config.slowKeepPhase = 0 then a else b) :: keepPhase rest
  | _ => []

/-- Read cycles for each useful byte (R149: m). -/
def cyclesPerByte (c : Config.Params) : Nat := if c.slowMode then 2 else 1

/-- Useful bytes in one transaction (R149: per). -/
def usefulPerRead (c : Config.Params) : Nat := Config.readChunkMax / cyclesPerByte c

/-- The useful bytes of the next transaction of `ReadData` with n bytes to come (R149: k). -/
def chunkSize (c : Config.Params) (n : Nat) : Nat := min n (usefulPerRead c)

/-- The read cycles of that transaction (R149). -/
def chunkCycles (c : Config.Params) (n : Nat) : Nat := chunkSize c n * cyclesPerByte c

/-- The useful bytes of a reply (R149). -/
def usefulBytes (c : Config.Params) (raw : List Byte) : List Byte := if c.slowMode then keepPhase raw else raw

end Sys2Proof.Machine
end

