-- ==== Sys2Proof/Machine/Flags.lean ====
section
/-! DEFINITION. The flag-like values of 10_state.md R37: the FAIL bit of a status byte, the bad-block marker of a page,
the undefined request flags, the validity of a geometry; and the comparison of 49_diagnostics.md R330. -/

namespace Sys2Proof.Machine

/-- `StatusFailed(s)` (R156). -/
def statusFailed (s : Byte) : Bool := s &&& Config.statusFailMask != 0x00#8

/-- `StatusFailed` of the last status byte read; where none has been read it does not fail (no run asks; log 19). -/
def lastStatusFailed : Option Byte → Bool
  | some s => statusFailed s
  | none => false

/-- `MarkerBad(d, off)` (R282). -/
def markerBad (d : List Byte) (off : Nat) : Bool := byteAt d off != Config.goodMarker

/-- Every flag bit outside the ones the operation defines is 0 (R82). -/
def flagsDefined (defined flags : Byte) : Bool := flags &&& ~~~ defined == 0x00#8

/-- `geometryValid(g)` (R202). -/
def geometryValid (g : Geometry) : Bool :=
  decide (0 < g.pageSize) && decide (0 < g.pagesPerBlock) && decide (0 < g.blocksPerLun) && decide (0 < g.lunCount)
    && (g.largePage || g.pageSize % 2 == 0)

/-- The number of positions at which two buffers of one length differ (R330). -/
def differingBytes : List Byte → List Byte → Nat
  | a :: as, b :: bs => (if a != b then 1 else 0) + differingBytes as bs
  | _, _ => 0

end Sys2Proof.Machine
end

