-- ==== Sys2Proof/Machine/Ops.lean ====
section
/-! DEFINITION. The shared operations: a transaction at the transport port (42_command_encoder.md R140 to R147), posting a
response, the error exit (60_exceptions.md R345, R346), the entry checks (R353), acceptance of a request (30_encoding.md
R80, R84), and reset (70_reset_and_hazards.md R380). -/

namespace Sys2Proof.Machine

/-! ## The transport port -/

/-- The level of the write-protect line for `SetWP(p)` (R146). -/
def wpLevel (c : Config.Params) (p : Bool) : Bool := if p then c.wpProtectLevel else !c.wpProtectLevel

/-- The levels of the sequential-read lines for `Mark(m)` (R146). -/
def markLevels (c : Config.Params) : MarkPattern → BitVec 2
  | .atBegin => c.seqMarkBegin
  | .atEnd => c.seqMarkEnd

/-- The lines after a transaction: `SetWP` and `Mark` answered ok drive them; not answered ok, their level is unknown
(R146, log 13). -/
def State.driveLines (s : State) (t : Transaction) (a : Answer) : State :=
  match t with
  | .setWP p => { s with wpLine := if a = .ok then some (wpLevel s.cfg p) else none }
  | .mark m => { s with markLines := if a = .ok then some (markLevels s.cfg m) else none }
  | _ => s

/-- A transaction completes with the answer `a`, the oldest one waiting; `rest` are the answers after it (R72). -/
def State.complete (s : State) (t : Transaction) (a : Answer) (rest : List Answer) : State :=
  { s.driveLines t a with answers := rest, trace := s.trace ++ [{ transaction := t, answer := some a }] }

/-- A transaction that is answered ok or absent (R97); with no answer yet the engine waits (log 2), and an answer of
another kind counts as absent (R395, log 3). -/
def transact (t : Transaction) (s : State) (onOk onAbsent : State → State) : State :=
  match s.answers with
  | [] => s
  | .ok :: rest => onOk (s.complete t .ok rest)
  | a :: rest => onAbsent (s.complete t a rest)

/-- `Delay(t)`: an event of the trace, not sent to the transport (R146). -/
def State.recordDelay (s : State) : State :=
  { s with trace := s.trace ++ [{ transaction := .delay s.cfg.featureSettleDelay, answer := none }] }

/-! ## Responses -/

/-- Post a response: the operation ends, the locals lose their values, `S.busy <- 0` (R345, R394). -/
def State.post (s : State) (r : Response) : State :=
  { s with responses := s.responses ++ [r], seq := none }

/-- The sequencer goes on at `todo`. -/
def State.goOn (s : State) (q : Seq) (todo : List Item) : State :=
  { s with seq := some { q with todo := todo } }

/-! ## The error exit -/

/-- The protocol-level error a result code is, if it is one (R86, R346). -/
def protocolError : ResultCode → Option AbortCause
  | .deviceAbsent => some .deviceAbsent
  | .identificationFailed => some .identificationFailed
  | .timeout => some .timeout
  | _ => none

/-- The operation is IDENTIFY. -/
def isIdentify : Instr → Bool
  | .identify _ => true
  | _ => false

/-- The session abort: the first cause is kept (R346). -/
def State.abortSession (s : State) (c : AbortCause) : State :=
  match s.abortCause with
  | some _ => s
  | none => { s with abortCause := some c }

/-- What a protocol-level error inside IDENTIFY does to the identification state (R204, R346). -/
def State.failIdentification (s : State) : State := { s with idState := .failed, geom := none }

/-- Steps 2 to 4 of the error exit (R345): the abort rule, then the response; no guard is open any more. -/
def postError (s : State) (q : Seq) (r : Response) : State :=
  match protocolError r.code with
  | some c => ((if isIdentify q.op then s.failIdentification else s).abortSession c).post r
  | none => s.post r

/-- An operation raises an error (R345): with a guard open, its write-protect restore is the only transaction still
sent (R157); otherwise the error exit runs at once. -/
def raise (s : State) (q : Seq) (r : Response) : State :=
  match q.saved with
  | some _ => { s with seq := some { q with todo := [.guardClose], pending := some r } }
  | none => postError s q r

/-- The response of DEVICE_ABSENT or TIMEOUT with the context the operation has (R238, R265, R340; log 15). -/
def errorResponse (q : Seq) (c : ResultCode) : Response :=
  match q.op with
  | .readPage _ p => { code := c, index := some (field40 p.toNat) }
  | .writePage _ p _ => { code := c, index := some (field40 p.toNat) }
  | .writePages _ _ _ => { code := c, count := some (field40 q.cursor), list := some (.blocks q.blocks) }
  | .eraseBlock _ b => { code := c, index := some (field40 b.toNat) }
  | .eraseRange _ _ _ => { code := c, list := some (.statuses q.statuses) }
  | .seqReadBlock _ b => { code := c, index := some (field40 b.toNat) }
  | .getFeature _ a => { code := c, index := some (field40 a.toNat) }
  | .setFeature _ a _ => { code := c, index := some (field40 a.toNat) }
  | _ => { code := c }

/-- A transaction reports absent (R147). -/
def raiseAbsent (s : State) (q : Seq) : State := raise s q (errorResponse q .deviceAbsent)

/-! ## Acceptance of a request -/

/-- INVALID_ARGUMENT (R349). -/
def invalidArgument : Response := { code := .invalidArgument }

/-- INVALID_ARGUMENT naming an index. -/
def invalidIndex (n : Nat) : Response := { code := .invalidArgument, index := some (field40 n) }

/-- INVALID_ARGUMENT naming a count. -/
def invalidCount (n : Nat) : Response := { code := .invalidArgument, count := some (field40 n) }

/-- One entry check before the others. -/
def checkThen (ok : Bool) (r : Response) (others : Option Response) : Option Response :=
  if ok then others else some r

/-- The state checks of R353, steps 3 and 4, before an operation's own checks. -/
def stateChecks (needsIdentified : Bool) (s : State) (others : Option Response) : Option Response :=
  match s.abortCause with
  | some c => some { code := c.result }
  | none =>
    if needsIdentified && s.idState != .ready then some { code := .notIdentified } else others

/-- A request presented while an operation runs is held until the port is free (R80, log 6). -/
def State.hold (s : State) (i : Instr) : State :=
  match encode i with
  | .request r => { s with requests := s.requests ++ [r] }
  | .command _ => s

/-- Acceptance (R80, R353): held while busy; refused with a response; or started. -/
def accept (i : Instr) (s : State) (refusal : Option Response) (start : State → State) : State :=
  if s.busy then s.hold i
  else
    match refusal with
    | some r => s.post r
    | none => start s

/-- A request whose `op` spells no operation (R84). -/
def illegalRequest (s : State) : State := s.post { code := .illegalRequest }

/-! ## Reset -/

/-- Reset (R380, R381): every piece of engine state takes its reset value and no transaction is sent. The lines are not
driven, and their levels are unknown until the first `SetWP` or `Mark` (R40, R381). The parameters, what the outside has
presented and what has been output stay as they are (log 12). -/
def State.applyReset (s : State) : State :=
  { State.reset with
    cfg := s.cfg, requests := s.requests, answers := s.answers, trace := s.trace, responses := s.responses }

end Sys2Proof.Machine
end

