-- ==== Sys2Proof/Machine/Frames.lean ====
section
/-! DEFINITION. The frames: the ordered items of the procedures that contain no decision of their own
(42_command_encoder.md R148, R155; 44_page_read.md R211 to R213; 45_page_write.md R231 to R233; 46_block_erase.md R261). -/

namespace Sys2Proof.Machine

/-- The address cycles of `EncodeAddress(a, n)` (R127). -/
def addressItems (a n : Nat) : List Item := (encodeAddress a n).map .addr

/-- `Encode(c, (a, n), none)` (R148). -/
def encodeItems (c : Byte) (a n : Nat) : List Item := .cmd c :: addressItems a n

/-- `ReadStatus()` (R155). -/
def readStatusItems : List Item := [.cmd Config.cmdGetStatus, .readData 1, .act .takeStatus]

/-- `ReadPageLarge(p, oob)` (R212). -/
def readPageLarge (g : Geometry) (p : Nat) (oob : Bool) : List Item :=
  encodeItems Config.cmdRead (pageAddressWord g p) g.addressCycleCount ++
    [.cmd Config.cmdReadStart, .waitReady, .readData (if oob then g.rawPageSize else g.pageSize)]

/-- One sub-read of the legacy page read (R213). -/
def legacySubRead (g : Geometry) (c : Byte) (p n : Nat) : List Item :=
  encodeItems c (pageAddressWord g p) g.addressCycleCount ++ [.waitReady, .readData n]

/-- `ReadPageLegacy(p, oob)` (R213). -/
def readPageLegacy (g : Geometry) (p : Nat) (oob : Bool) : List Item :=
  legacySubRead g Config.cmdRead p (g.pageSize / 2) ++ legacySubRead g Config.cmdRead1 p (g.pageSize / 2) ++
    (if oob then legacySubRead g Config.cmdReadOob p g.oobSize else [])

/-- `ReadPage(p, oob)` (R211). -/
def readPageItems (g : Geometry) (p : Nat) (oob : Bool) : List Item :=
  if g.largePage then readPageLarge g p oob else readPageLegacy g p oob

/-- `Cmd(ptr)`, only with a pointer command (R231). -/
def pointerItems : Option Byte → List Item
  | some c => [.cmd c]
  | none => []

/-- `ProgramAttempt` (R231). -/
def programAttempt (g : Geometry) (a : Attempt) : List Item :=
  pointerItems a.pointer ++ encodeItems Config.cmdSeqin a.address g.addressCycleCount ++
    [.dataOut a.data, .cmd Config.cmdPageprog, .waitReady] ++ readStatusItems

/-- `ProgramWithRetry` (R235): an attempt and the decision after it. -/
def programWithRetry (g : Geometry) (a : Attempt) : List Item := programAttempt g a ++ [.act (.programVerdict a)]

/-- `WritePageLarge` (R232). -/
def writePageLarge (g : Geometry) (p : Nat) (buf : List Byte) : List Item :=
  programWithRetry g { pointer := none, address := pageAddressWord g p, data := buf, page := p }

/-- `WritePageLegacy` (R233). -/
def writePageLegacy (g : Geometry) (p : Nat) (buf : List Byte) : List Item :=
  let h := g.pageSize / 2
  let a := pageAddressWord g p
  programWithRetry g { pointer := some Config.pointerFirst, address := a, data := slice buf 0 h, page := p } ++
  programWithRetry g { pointer := some Config.pointerSecond, address := a, data := slice buf h (2 * h), page := p } ++
  programWithRetry g { pointer := some Config.pointerSpare, address := a, data := slice buf (2 * h) g.rawPageSize,
                       page := p }

/-- `WithWriteEnabled(body)` (R157). -/
def guarded (body : List Item) : List Item := .guardOpen :: body ++ [.guardClose]

/-- `WriteOnePage(p, buf)` (R230). -/
def writeOnePage (g : Geometry) (p : Nat) (buf : List Byte) : List Item :=
  guarded (if g.largePage then writePageLarge g p buf else writePageLegacy g p buf)

/-- `EraseOne(b)` (R261). -/
def eraseOne (g : Geometry) (b : Nat) : List Item :=
  guarded (encodeItems Config.cmdEraseSetup (eraseAddressWord g b) (rowCycles g) ++
    [.cmd Config.cmdEraseConfirm, .waitReady] ++ readStatusItems)

/-- The frame of IDENTIFY (R180). -/
def identifyFrame : List Item :=
  [.cmd Config.cmdReadId, .addr Config.readIdAddress, .readData Config.readIdLen, .act .keepIdBytes,
   .cmd Config.cmdReadId, .addr Config.readIdOnfiAddress, .readData Config.onfiSig.length, .act .checkSignature,
   .cmd Config.cmdReadParamPage, .addr Config.paramPageAddress, .waitReady, .readData Config.paramPageLen,
   .act .parsePage]

/-- One page of the sequential read (R285). -/
def seqPageItems (g : Geometry) : List Item := [.readData g.rawPageSize, .act .seqPage, .waitReady, .act .seqNext]

/-- The start of the sequential read (R285): BEGIN, one READ0 with the page address word, one wait. -/
def seqReadFrame (g : Geometry) (b : Nat) : List Item :=
  .mark .atBegin :: encodeItems Config.cmdRead (pageAddressWord g (firstPage g b)) g.addressCycleCount ++ [.waitReady]

/-- GET_FEATURE (R310). -/
def getFeatureFrame (fa : Byte) : List Item :=
  [.cmd Config.cmdGetFeatures, .addr fa, .delay, .readData Config.featureLen]

/-- SET_FEATURE (R311). -/
def setFeatureFrame (fa : Byte) (v : List Byte) : List Item :=
  [.cmd Config.cmdSetFeatures, .addr fa, .delay, .dataOut v]

/-- One block of SCAN_BAD_BLOCKS (R280). -/
def scanBlockItems (g : Geometry) (b : Nat) : List Item := readPageItems g (firstPage g b) true ++ [.act .scanNext]

/-- One block of ERASE_RANGE (R264). -/
def eraseRangeBlockItems (g : Geometry) (b : Nat) : List Item := eraseOne g b ++ [.act .rangeNext]

/-- The marker pages of a block in the bulk write (R240). -/
def markerPages (c : Config.Params) (g : Geometry) (page : Nat) : List Item :=
  (List.range (min c.writeMarkerPages g.pagesPerBlock)).flatMap
    fun j => readPageItems g (page + j) true ++ [.act .bulkMarker]

end Sys2Proof.Machine
end

