-- ==== Sys2Proof/Machine/Procedures.lean ====
section
/-! DEFINITION. What the engine computes between two transactions, one definition for each `Action`: the parameter-page
parser (43_identification.md R186 to R204), the program retry (45_page_write.md R235), the loops of the bulk write, the
erase range, the scan and the sequential read (files 45 to 47), and the response at the end of each procedure. -/

namespace Sys2Proof.Machine

/-- What an action decides: the procedure goes on, goes on after further items, or raises an error. -/
inductive Move where
  | go (s : State) (q : Seq)
  | push (s : State) (q : Seq) (items : List Item)
  | fail (s : State) (q : Seq) (r : Response)
deriving DecidableEq, Repr

/-! ## Identification -/

/-- A little-endian field of the parameter page (R186). -/
def pageField (pp : List Byte) (a b : Nat) : Nat := le (slice pp a b)

/-- `parse(pp)` (R187 to R201). -/
def parseGeometry (c : Config.Params) (pp : List Byte) : Geometry :=
  let pageSize := pageField pp 80 84
  let oobSize := pageField pp 84 86
  let pagesPerBlock := pageField pp 92 96
  let blocksPerLun := pageField pp 96 100
  let lunCount := (byteAt pp 100).toNat
  let rawPageSize := pageSize + oobSize
  let blockCount := blocksPerLun * lunCount
  let pageCount := blockCount * pagesPerBlock
  { pageSize := pageSize
    oobSize := oobSize
    rawPageSize := rawPageSize
    pagesPerBlock := pagesPerBlock
    blocksPerLun := blocksPerLun
    lunCount := lunCount
    blockCount := blockCount
    pageCount := pageCount
    blockSize := pagesPerBlock * rawPageSize
    chipSizeMB := pageCount * rawPageSize / 2 ^ 20
    addressCycleCount := Config.addressCycleCount
    bitsPerCell := byteAt pp 102
    manufacturerId := byteAt pp 64
    idString := slice pp 44 64
    largePage := !c.forceLegacy }

/-- The parameter page's own signature (R185, R95). -/
def pageSignature (pp : List Byte) : List Byte :=
  slice pp Config.paramSigOffset (Config.paramSigOffset + Config.onfiSig.length)

/-- IDENTIFICATION_FAILED (R204, R342). -/
def identificationFailed : Response := { code := .identificationFailed }

/-- `S.idBytes <- ReadData(8)`; `S.idState <- 2` (R180, R182). -/
def keepIdBytes (s : State) (q : Seq) : Move :=
  .go { s with idBytes := some q.buf, idState := .probeOnfi } { q with buf := [] }

/-- The check of the READ-ID 0x20 reply; `S.idState <- 3` (R180, R183). -/
def checkSignature (s : State) (q : Seq) : Move :=
  if q.buf = Config.onfiSig then .go { s with idState := .parseParameterPage } { q with buf := [] }
  else .fail s q identificationFailed

/-- The check of the page's signature, the parse, the validation and the commit (R185, R202, R203). -/
def parsePage (s : State) (q : Seq) : Move :=
  let g := parseGeometry s.cfg q.buf
  if pageSignature q.buf = Config.onfiSig then
    if geometryValid g then .go { s with geom := some g, idState := .ready } { q with buf := [] }
    else .fail s q identificationFailed
  else .fail s q identificationFailed

/-! ## Status and program retry -/

/-- The byte `ReadStatus` returns becomes the last status byte (R155, R34). -/
def takeStatus (s : State) (q : Seq) : Move := .go s { q with status := q.buf.head?, buf := [] }

/-- The response of a PROGRAM_FAILURE, with the bulk write's count and list where it is one (R235, R238, R344). -/
def programFailure (q : Seq) (page : Nat) : Response :=
  match q.op with
  | .writePages _ _ _ =>
    { code := .programFailure, index := some (field40 page), status := q.status, count := some (field40 q.cursor),
      list := some (.blocks q.blocks) }
  | _ => { code := .programFailure, index := some (field40 page), status := q.status }

/-- The decision after a program attempt (R235). -/
def programVerdict (a : Attempt) (s : State) (q : Seq) : Move :=
  if lastStatusFailed q.status then
    if s.cfg.programRetryLimit ≤ q.retry then .fail s q (programFailure q a.page)
    else .push s { q with retry := q.retry + 1 } (programWithRetry s.geo a)
  else .go s { q with retry := 0 }

/-! ## Erase -/

/-- The result of ERASE_BLOCK (R260, R262). -/
def eraseVerdict (s : State) (q : Seq) : Move :=
  if lastStatusFailed q.status then
    .fail s q { code := .eraseFailure, index := some (field40 q.block), status := q.status }
  else .go s q

/-- The first failing pair of ERASE_RANGE (R264). -/
def firstFailed (ps : List (Nat × Byte)) : Option (Nat × Byte) := ps.find? fun p => statusFailed p.2

/-- After one block of ERASE_RANGE: record it, go on to the next block, or end the range (R264). -/
def rangeNext (s : State) (q : Seq) : Move :=
  let results := q.statuses ++ [(q.block, q.status.getD 0x00#8)]
  let q' : Seq := { q with statuses := results }
  match q.op with
  | .eraseRange _ _ last =>
    if q.block < last.toNat then
      .push s { q' with block := q.block + 1 } (eraseRangeBlockItems s.geo (q.block + 1))
    else
      match firstFailed results with
      | some (b, st) =>
        .fail s q' { code := .eraseFailure, index := some (field40 b), status := some st, list := some (.statuses results) }
      | none => .go s q'
  | _ => .go s q'

/-! ## Scan and sequential read -/

/-- After one block of the scan (R280). -/
def scanNext (s : State) (q : Seq) : Move :=
  let blocks := if markerBad q.buf (markerOffset s.geo) then q.blocks ++ [q.block] else q.blocks
  let q' : Seq := { q with blocks := blocks, buf := [], block := q.block + 1 }
  if q.block + 1 < s.geo.blockCount then .push s q' (scanBlockItems s.geo (q.block + 1)) else .go s q'

/-- The request asked for the spare bytes of a sequential read (R284). -/
def seqIncludesOob : Instr → Bool
  | .seqReadBlock f _ => includeOob f
  | _ => false

/-- After one page's data in the sequential read: the marker check on the first two pages, and the bytes returned
(R285, R286). -/
def seqPage (s : State) (q : Seq) : Move :=
  let bad := q.bad || (decide (q.page < Config.seqMarkerPages) && markerBad q.buf (seqMarkerOffset s.geo))
  let kept := if seqIncludesOob q.op then q.buf else slice q.buf 0 s.geo.pageSize
  .go s { q with bad := bad, out := q.out ++ kept, buf := [] }

/-- After one page's wait in the sequential read: the next page, or END (R285, R289). -/
def seqNext (s : State) (q : Seq) : Move :=
  let q' : Seq := { q with page := q.page + 1 }
  if q.page + 1 < s.geo.pagesPerBlock then .push s q' (seqPageItems s.geo) else .push s q' [.mark .atEnd]

/-! ## Bulk write -/

/-- The buffers of a bulk write. -/
def bulkBuffers : Instr → List (List Byte)
  | .writePages _ _ bufs => bufs
  | _ => []

/-- Write the buffer at the data cursor to the page at the page cursor (R238). -/
def bulkWrite (s : State) (q : Seq) : Move :=
  .push s q (writeOnePage s.geo q.page (bufferAt (bulkBuffers q.op) q.cursor) ++ [.act .bulkWritten])

/-- A block whose markers are good is entered: erase it first where the configuration says so (R238). -/
def bulkGoodBlock (s : State) (q : Seq) : Move :=
  if s.cfg.bulkEraseBeforeProgram then .push s q (eraseOne s.geo q.block ++ [.act .bulkErased]) else bulkWrite s q

/-- The head of the bulk write's loop (R238, R244). -/
def bulkLoop (s : State) (q : Seq) : Move :=
  if (bulkBuffers q.op).length ≤ q.cursor then .go s q
  else if s.geo.pageCount ≤ q.page then
    .fail s q { code := .capacityExhausted, count := some (field40 q.cursor), list := some (.blocks q.blocks) }
  else if q.page % s.geo.pagesPerBlock = 0 then
    match markerPages s.cfg s.geo q.page with
    | [] => bulkGoodBlock s q
    | items => .push s { q with bad := false } (items ++ [.act .bulkEntered])
  else bulkWrite s q

/-- After one marker page (R240, R282). -/
def bulkMarker (s : State) (q : Seq) : Move :=
  .go s { q with bad := q.bad || markerBad q.buf (markerOffset s.geo), buf := [] }

/-- After the marker pages of a block: skip the block, or enter it (R238, R241). -/
def bulkEntered (s : State) (q : Seq) : Move :=
  if q.bad then
    bulkLoop s { q with bad := false, blocks := q.blocks ++ [q.block], page := q.page + s.geo.pagesPerBlock,
                        block := q.block + 1 }
  else bulkGoodBlock s q

/-- After the erase of a block in the bulk write (R238, R243). -/
def bulkErased (s : State) (q : Seq) : Move :=
  if lastStatusFailed q.status then
    .fail s q { code := .eraseFailure, index := some (field40 q.block), status := q.status,
                count := some (field40 q.cursor), list := some (.blocks q.blocks) }
  else bulkWrite s q

/-- After one page of the bulk write: the cursors move on (R238). -/
def bulkWritten (s : State) (q : Seq) : Move :=
  bulkLoop s { q with cursor := q.cursor + 1, page := q.page + 1,
                      block := if (q.page + 1) % s.geo.pagesPerBlock = 0 then q.block + 1 else q.block }

/-! ## All actions, and the end of a procedure -/

/-- The action's computation. -/
def runAction (a : Action) (s : State) (q : Seq) : Move :=
  match a with
  | .keepIdBytes => keepIdBytes s q
  | .checkSignature => checkSignature s q
  | .parsePage => parsePage s q
  | .takeStatus => takeStatus s q
  | .programVerdict att => programVerdict att s q
  | .eraseVerdict => eraseVerdict s q
  | .rangeNext => rangeNext s q
  | .scanNext => scanNext s q
  | .seqPage => seqPage s q
  | .seqNext => seqNext s q
  | .bulkMarker => bulkMarker s q
  | .bulkEntered => bulkEntered s q
  | .bulkErased => bulkErased s q
  | .bulkWritten => bulkWritten s q

/-- The result of the sequential read (R285, R287, R288). -/
def seqResponse (flags : Byte) (b : Nat) (q : Seq) : Response :=
  if q.bad && !rawMode flags then
    { code := .badBlock, index := some (field40 b), markerBad := some true, data := some [] }
  else { code := .ok, index := some (field40 b), markerBad := some q.bad, data := some q.out }

/-- The response an operation returns at the end of its procedure (R180, R210, R230, R238, R260, R264, R280, R285,
R310, R311). -/
def okResponse (s : State) (q : Seq) : Response :=
  match q.op with
  | .identify _ => { code := .ok, geometry := s.geom, data := s.idBytes }
  | .readPage _ p => { code := .ok, index := some (field40 p.toNat), data := some q.buf }
  | .writePage _ p _ => { code := .ok, index := some (field40 p.toNat), status := q.status }
  | .writePages _ _ _ => { code := .ok, count := some (field40 q.cursor), list := some (.blocks q.blocks) }
  | .eraseBlock _ b => { code := .ok, index := some (field40 b.toNat), status := q.status }
  | .eraseRange _ _ _ => { code := .ok, list := some (.statuses q.statuses) }
  | .scanBadBlocks _ => { code := .ok, list := some (.blocks q.blocks) }
  | .seqReadBlock f b => seqResponse f b.toNat q
  | .getFeature _ a => { code := .ok, index := some (field40 a.toNat), data := some q.buf }
  | .setFeature _ a _ => { code := .ok, index := some (field40 a.toNat) }
  | _ => { code := .ok }

end Sys2Proof.Machine
end

