-- ==== Sys2Proof/Machine/Sequencer.lean ====
section
/-! DEFINITION. The sequencer (10_state.md R33): it advances by one transport transaction a step, through the remaining
program; what stands between two transactions is computed in the step of the earlier one (log 1). Also the fetch: what
the machine does next. -/

namespace Sys2Proof.Machine

/-- Go on through `todo` up to the next transaction, the end of the procedure, or an error. `ReadData(0)` and the
`DataOut` of no byte send nothing (R143, R149). -/
def settle (s : State) (q : Seq) : List Item → State
  | [] => s.post (okResponse s q)
  | .readData 0 :: rest => settle s q rest
  | .dataOut [] :: rest => settle s q rest
  | .act a :: rest =>
    match runAction a s q with
    | .go s' q' => settle s' q' rest
    | .push s' q' items => s'.goOn q' (items ++ rest)
    | .fail s' q' r => raise s' q' r
  | it :: rest => s.goOn q (it :: rest)

/-- Start an operation's procedure (R80: `S.busy <- 1`). -/
def startOp (s : State) (q : Seq) : State := settle s q q.todo

/-- Start an operation with the locals of a fresh sequencer. -/
def startFrame (i : Instr) (items : List Item) (s : State) : State := startOp s { op := i, todo := items }

/-! ## One transaction -/

/-- A transaction answered ok or absent, after which the program goes on at `rest` (R141 to R143, R147). -/
def simpleItem (t : Transaction) (s : State) (q : Seq) (rest : List Item) : State :=
  transact t s (fun s' => settle s' q rest) (fun s' => raiseAbsent s' q)

/-- One transaction of `ReadData(n)` (R144, R149). -/
def readDataItem (n : Nat) (s : State) (q : Seq) (rest : List Item) : State :=
  let t : Transaction := .dataIn (chunkCycles s.cfg n)
  match s.answers with
  | [] => s
  | .bytes raw :: as =>
    if raw.length = chunkCycles s.cfg n then
      settle (s.complete t (.bytes raw) as) { q with buf := q.buf ++ usefulBytes s.cfg raw }
        (.readData (n - chunkSize s.cfg n) :: rest)
    else raiseAbsent (s.complete t (.bytes raw) as) q
  | a :: as => raiseAbsent (s.complete t a as) q

/-- One poll of `WaitReady()` (R145, R152). -/
def waitReadyItem (s : State) (q : Seq) (rest : List Item) : State :=
  match s.answers with
  | [] => s
  | .ready true :: as => settle (s.complete .pollReady (.ready true) as) { q with poll := 0 } rest
  | .ready false :: as =>
    if s.cfg.readyPollLimit ≤ q.poll + 1 then
      raise (s.complete .pollReady (.ready false) as) q (errorResponse q .timeout)
    else (s.complete .pollReady (.ready false) as).goOn { q with poll := q.poll + 1 } (.waitReady :: rest)
  | a :: as => raiseAbsent (s.complete .pollReady a as) q

/-- The entry of the write-enable guard (R157). -/
def guardOpenItem (s : State) (q : Seq) (rest : List Item) : State :=
  let q' : Seq := { q with saved := some s.wpProtect }
  transact (.setWP false) s (fun s' => settle { s' with wpProtect := false } q' rest) (fun s' => raiseAbsent s' q')

/-- What follows the guard's restore: an error raised before it is kept; else an absent restore raises; else the
operation goes on (R157). -/
def afterRestore (answeredOk : Bool) (s : State) (q : Seq) (rest : List Item) : State :=
  let q' : Seq := { q with saved := none, pending := none }
  match q.pending with
  | some r => postError s q' r
  | none => if answeredOk then settle s q' rest else raiseAbsent s q'

/-- The exit of the write-enable guard: `S.wpProtect <- saved; SetWP(saved)` (R157, log 14). -/
def guardCloseItem (s : State) (q : Seq) (rest : List Item) : State :=
  let p := q.saved.getD s.wpProtect
  transact (.setWP p) s (fun s' => afterRestore true { s' with wpProtect := p } q rest)
    (fun s' => afterRestore false { s' with wpProtect := p } q rest)

/-- The transaction at the head of the remaining program, but for a command latch, which is an instruction of its own. -/
def performItem (s : State) (q : Seq) : List Item → State
  | .addr b :: rest => simpleItem (.addr b) s q rest
  | .mark m :: rest => simpleItem (.mark m) s q rest
  | .delay :: rest => settle s.recordDelay q rest
  | .dataOut (b :: bs) :: rest => simpleItem (.dataOut (b :: bs)) s q rest
  | .readData (n + 1) :: rest => readDataItem (n + 1) s q rest
  | .waitReady :: rest => waitReadyItem s q rest
  | .guardOpen :: rest => guardOpenItem s q rest
  | .guardClose :: rest => guardCloseItem s q rest
  | todo => settle s q todo

/-! ## The command latch -/

/-- What remains of the program once the command `b` is sent: the rest after its item, or, where the program does not
stand at it, all of it (log 7). -/
def afterCommand (b : Byte) : List Item → List Item
  | .cmd b' :: rest => if b' = b then rest else .cmd b' :: rest
  | todo => todo

/-- `Cmd(b)`: one command-latch transaction (R141, R147). With no operation in progress an absent answer aborts the
session and nothing is responded to (log 7). -/
def latchCommand (b : Byte) (s : State) : State :=
  match s.seq with
  | some q => simpleItem (.cmd b) s q (afterCommand b q.todo)
  | none => transact (.cmd b) s (fun s' => s') (fun s' => s'.abortSession .deviceAbsent)

/-! ## Fetch -/

/-- What the machine does next. -/
inductive Fetched where
  /-- The reset input is asserted (R380). -/
  | reset
  /-- Idle with no request: the engine waits (R382). -/
  | idle
  /-- A request is accepted (R80): its instruction, and the state with it taken from the port. -/
  | operation (i : Instr) (s : State)
  /-- A request that spells no operation is accepted (R84). -/
  | illegal (s : State)
  /-- The sequencer is at a command latch (R141). -/
  | command (i : Instr)
  /-- The sequencer is at a command byte outside R87 to R93. -/
  | unknownCommand
  /-- The sequencer is at another transaction. -/
  | item (q : Seq)
deriving DecidableEq, Repr

/-- The fetch (R33, R80). -/
def fetch (s : State) : Fetched :=
  if s.resetInput then .reset
  else
    match s.seq with
    | some q =>
      match q.todo with
      | .cmd b :: _ =>
        match decodeCommand b with
        | .ok i => .command i
        | .error _ => .unknownCommand
      | _ => .item q
    | none =>
      match s.requests with
      | [] => .idle
      | r :: rs =>
        match decodeRequest r with
        | .ok i => .operation i { s with requests := rs }
        | .error _ => .illegal { s with requests := rs }

/-- The state in which the next step fetches the given word: a request at the head of the port of an idle engine, or a
frame of that one command, with the transport's ok waiting (log 9). -/
def State.placeWord (s : State) : PortWord → State
  | .request r => { s with resetInput := false, seq := none, requests := r :: s.requests }
  | .command b =>
    match decodeCommand b with
    | .ok i =>
      { s with resetInput := false, seq := some { op := i, todo := [.cmd b] }, answers := .ok :: s.answers }
    | .error _ => { s with resetInput := false, seq := none,
                           requests := { header := b.zeroExtend 80, payload := [] } :: s.requests }

end Sys2Proof.Machine
end

