-- ==== Sys2Proof/Machine/BadBlock.lean ====
section
/-! DEFINITION. SCAN_BAD_BLOCKS and SEQ_READ_BLOCK (47_bad_block_and_sequential.md R280 to R290). -/

namespace Sys2Proof.Machine

/-- The entry checks of SCAN_BAD_BLOCKS (R280). -/
def scanRefusal (flags : Byte) (s : State) : Option Response :=
  stateChecks true s
    (checkThen (flagsDefined 0x00#8 flags) invalidArgument (checkThen (1 ≤ s.geo.oobSize) invalidArgument none))

/-- The frame of the scan; a device without blocks has none (no valid geometry is such, R202). -/
def scanFrame (g : Geometry) : List Item := if g.blockCount = 0 then [] else scanBlockItems g 0

/-- SCAN_BAD_BLOCKS (R280). -/
def execScanBadBlocks (flags : Byte) (s : State) : Host.Outcome State Fault Refusal :=
  .next (accept (.scanBadBlocks flags) s (scanRefusal flags s) fun s' =>
    startFrame (.scanBadBlocks flags) (scanFrame s'.geo) s')

/-- The entry checks of SEQ_READ_BLOCK (R284). -/
def seqReadRefusal (flags : Byte) (block : Arg) (s : State) : Option Response :=
  stateChecks true s
    (checkThen (flagsDefined 0x03#8 flags) invalidArgument
      (checkThen (block.toNat < s.geo.blockCount) (invalidIndex block.toNat)
        (checkThen (Config.seqMarkerDelta + 1 ≤ s.geo.oobSize) invalidArgument none)))

/-- The items after the sequential read's first wait; a block without pages has none to read (no valid geometry is
such, R202). -/
def seqBodyItems (g : Geometry) : List Item := if g.pagesPerBlock = 0 then [.mark .atEnd] else seqPageItems g

/-- SEQ_READ_BLOCK (R284, R285). -/
def execSeqReadBlock (flags : Byte) (block : Arg) (s : State) : Host.Outcome State Fault Refusal :=
  .next (accept (.seqReadBlock flags block) s (seqReadRefusal flags block s) fun s' =>
    startFrame (.seqReadBlock flags block) (seqReadFrame s'.geo block.toNat ++ seqBodyItems s'.geo) s')

end Sys2Proof.Machine
end

