-- ==== Sys2Proof/Machine/BlockErase.lean ====
section
/-! DEFINITION. ERASE_BLOCK and ERASE_RANGE (46_block_erase.md R260 to R265). -/

namespace Sys2Proof.Machine

/-- The entry checks of ERASE_BLOCK (R260). -/
def eraseBlockRefusal (flags : Byte) (block : Arg) (s : State) : Option Response :=
  stateChecks true s
    (checkThen (flagsDefined 0x00#8 flags) invalidArgument
      (checkThen (block.toNat < s.geo.blockCount) (invalidIndex block.toNat) none))

/-- ERASE_BLOCK (R260). -/
def execEraseBlock (flags : Byte) (block : Arg) (s : State) : Host.Outcome State Fault Refusal :=
  .next (accept (.eraseBlock flags block) s (eraseBlockRefusal flags block s) fun s' =>
    startOp s' { op := .eraseBlock flags block, block := block.toNat,
                 todo := eraseOne s'.geo block.toNat ++ [.act .eraseVerdict] })

/-- The entry checks of ERASE_RANGE (R264). -/
def eraseRangeRefusal (flags : Byte) (first last : Arg) (s : State) : Option Response :=
  stateChecks true s
    (checkThen (flagsDefined 0x00#8 flags) invalidArgument
      (checkThen (first.toNat ≤ last.toNat) (invalidIndex first.toNat)
        (checkThen (last.toNat < s.geo.blockCount) (invalidIndex last.toNat) none)))

/-- ERASE_RANGE (R264). -/
def execEraseRange (flags : Byte) (first last : Arg) (s : State) : Host.Outcome State Fault Refusal :=
  .next (accept (.eraseRange flags first last) s (eraseRangeRefusal flags first last s) fun s' =>
    startOp s' { op := .eraseRange flags first last, block := first.toNat,
                 todo := eraseRangeBlockItems s'.geo first.toNat })

end Sys2Proof.Machine
end

