-- ==== Sys2Proof/Machine/Diagnostics.lean ====
section
/-! DEFINITION. COMPUTE_BER (49_diagnostics.md R330 to R333). -/

namespace Sys2Proof.Machine

/-- The entry checks of COMPUTE_BER; the state checks do not apply to it (R331, R333). -/
def berRefusal (flags : Byte) (x y : List Byte) : Option Response :=
  checkThen (flagsDefined 0x00#8 flags) invalidArgument
    (checkThen (x.length == y.length) (invalidCount x.length) (checkThen (1 ≤ x.length) invalidArgument none))

/-- COMPUTE_BER: no transaction; it completes in the step that accepts it (R330). -/
def execComputeBer (flags : Byte) (x y : List Byte) (s : State) : Host.Outcome State Fault Refusal :=
  .next (accept (.computeBer flags x y) s (berRefusal flags x y) fun s' =>
    s'.post { code := .ok, ber := some (differingBytes x y, x.length) })

end Sys2Proof.Machine
end

