-- ==== Sys2Proof/Machine/Features.lean ====
section
/-! DEFINITION. GET_FEATURE and SET_FEATURE (48_features.md R310 to R314). -/

namespace Sys2Proof.Machine

/-- The entry checks of GET_FEATURE (R312). -/
def getFeatureRefusal (flags : Byte) (address : Arg) (s : State) : Option Response :=
  stateChecks true s
    (checkThen (flagsDefined 0x00#8 flags) invalidArgument
      (checkThen (address.toNat ≤ 0xFF) (invalidIndex address.toNat) none))

/-- GET_FEATURE (R310). -/
def execGetFeature (flags : Byte) (address : Arg) (s : State) : Host.Outcome State Fault Refusal :=
  .next (accept (.getFeature flags address) s (getFeatureRefusal flags address s) fun s' =>
    startFrame (.getFeature flags address) (getFeatureFrame (address.extractLsb' 0 8)) s')

/-- The entry checks of SET_FEATURE (R312). -/
def setFeatureRefusal (flags : Byte) (address : Arg) (value : List Byte) (s : State) : Option Response :=
  stateChecks true s
    (checkThen (flagsDefined 0x00#8 flags) invalidArgument
      (checkThen (address.toNat ≤ 0xFF) (invalidIndex address.toNat)
        (checkThen (value.length == Config.featureLen) (invalidCount value.length) none)))

/-- SET_FEATURE (R311). -/
def execSetFeature (flags : Byte) (address : Arg) (value : List Byte) (s : State) :
    Host.Outcome State Fault Refusal :=
  .next (accept (.setFeature flags address value) s (setFeatureRefusal flags address value s) fun s' =>
    startFrame (.setFeature flags address value) (setFeatureFrame (address.extractLsb' 0 8) value) s')

end Sys2Proof.Machine
end

