-- ==== Sys2Proof/Machine/Identification.lean ====
section
/-! DEFINITION. IDENTIFY (43_identification.md R180 to R206). -/

namespace Sys2Proof.Machine

/-- The entry checks of IDENTIFY: no abort (R180, R353), no flag bit (R82). -/
def identifyRefusal (flags : Byte) (s : State) : Option Response :=
  stateChecks false s (checkThen (flagsDefined 0x00#8 flags) invalidArgument none)

/-- IDENTIFY starts: `S.idState <- 1`, the geometry registers lose their values (R180, R205). -/
def State.startIdentification (s : State) : State := { s with idState := .probeId, geom := none }

/-- IDENTIFY (R180). -/
def execIdentify (flags : Byte) (s : State) : Host.Outcome State Fault Refusal :=
  .next (accept (.identify flags) s (identifyRefusal flags s) fun s' =>
    startFrame (.identify flags) identifyFrame s'.startIdentification)

end Sys2Proof.Machine
end

