-- ==== Sys2Proof/Machine/NandCommands.lean ====
section
/-! DEFINITION. The NAND command bytes (30_encoding.md R87 to R93): each is one command-latch transaction
(42_command_encoder.md R141). -/

namespace Sys2Proof.Machine

/-- `Cmd` of the byte of R87. -/
def execNandRead (s : State) : Host.Outcome State Fault Refusal := .next (latchCommand Config.cmdRead s)

/-- `Cmd` of the byte of R90. -/
def execNandRead1 (s : State) : Host.Outcome State Fault Refusal := .next (latchCommand Config.cmdRead1 s)

/-- `Cmd` of the byte of R87. -/
def execNandReadStart (s : State) : Host.Outcome State Fault Refusal := .next (latchCommand Config.cmdReadStart s)

/-- `Cmd` of the byte of R91. -/
def execNandReadOob (s : State) : Host.Outcome State Fault Refusal := .next (latchCommand Config.cmdReadOob s)

/-- `Cmd` of the byte of R87. -/
def execNandSeqin (s : State) : Host.Outcome State Fault Refusal := .next (latchCommand Config.cmdSeqin s)

/-- `Cmd` of the byte of R87. -/
def execNandPageprog (s : State) : Host.Outcome State Fault Refusal := .next (latchCommand Config.cmdPageprog s)

/-- `Cmd` of the byte of R87. -/
def execNandGetStatus (s : State) : Host.Outcome State Fault Refusal := .next (latchCommand Config.cmdGetStatus s)

/-- `Cmd` of the byte of R87. -/
def execNandEraseSetup (s : State) : Host.Outcome State Fault Refusal := .next (latchCommand Config.cmdEraseSetup s)

/-- `Cmd` of the byte of R87. -/
def execNandEraseConfirm (s : State) : Host.Outcome State Fault Refusal := .next (latchCommand Config.cmdEraseConfirm s)

/-- `Cmd` of the byte of R88. -/
def execNandReadId (s : State) : Host.Outcome State Fault Refusal := .next (latchCommand Config.cmdReadId s)

/-- `Cmd` of the byte of R89. -/
def execNandReadParamPage (s : State) : Host.Outcome State Fault Refusal := .next (latchCommand Config.cmdReadParamPage s)

/-- `Cmd` of the byte of R92. -/
def execNandGetFeatures (s : State) : Host.Outcome State Fault Refusal := .next (latchCommand Config.cmdGetFeatures s)

/-- `Cmd` of the byte of R93. -/
def execNandSetFeatures (s : State) : Host.Outcome State Fault Refusal := .next (latchCommand Config.cmdSetFeatures s)

end Sys2Proof.Machine
end

