-- ==== Sys2Proof/Machine/PageRead.lean ====
section
/-! DEFINITION. READ_PAGE (44_page_read.md R210 to R216). -/

namespace Sys2Proof.Machine

/-- The entry checks of READ_PAGE (R210). -/
def readPageRefusal (flags : Byte) (page : Arg) (s : State) : Option Response :=
  stateChecks true s
    (checkThen (flagsDefined 0x01#8 flags) invalidArgument
      (checkThen (page.toNat < s.geo.pageCount) (invalidIndex page.toNat) none))

/-- READ_PAGE (R210). -/
def execReadPage (flags : Byte) (page : Arg) (s : State) : Host.Outcome State Fault Refusal :=
  .next (accept (.readPage flags page) s (readPageRefusal flags page s) fun s' =>
    startFrame (.readPage flags page) (readPageItems s'.geo page.toNat (includeOob flags)) s')

end Sys2Proof.Machine
end

