-- ==== Sys2Proof/Machine/PageWrite.lean ====
section
/-! DEFINITION. WRITE_PAGE and WRITE_PAGES (45_page_write.md R230 to R245). -/

namespace Sys2Proof.Machine

/-- The entry checks of WRITE_PAGE (R230). -/
def writePageRefusal (flags : Byte) (page : Arg) (buffer : List Byte) (s : State) : Option Response :=
  stateChecks true s
    (checkThen (flagsDefined 0x00#8 flags) invalidArgument
      (checkThen (page.toNat < s.geo.pageCount) (invalidIndex page.toNat)
        (checkThen (buffer.length == s.geo.rawPageSize) (invalidCount buffer.length) none)))

/-- WRITE_PAGE (R230). -/
def execWritePage (flags : Byte) (page : Arg) (buffer : List Byte) (s : State) :
    Host.Outcome State Fault Refusal :=
  .next (accept (.writePage flags page buffer) s (writePageRefusal flags page buffer s) fun s' =>
    startFrame (.writePage flags page buffer) (writeOnePage s'.geo page.toNat buffer) s')

/-- The last check of WRITE_PAGES: every buffer is a raw page (R239). -/
def buffersCheck (n : Nat) (bufs : List (List Byte)) : Option Response :=
  match firstWrongLength n bufs with
  | some k => some (invalidIndex k)
  | none => none

/-- The entry checks of WRITE_PAGES (R239). -/
def writePagesRefusal (flags : Byte) (startPage : Arg) (buffers : List (List Byte)) (s : State) : Option Response :=
  stateChecks true s
    (checkThen (flagsDefined 0x00#8 flags) invalidArgument
      (checkThen (startPage.toNat < s.geo.pageCount) (invalidIndex startPage.toNat)
        (checkThen (startPage.toNat % s.geo.pagesPerBlock == 0) (invalidIndex startPage.toNat)
          (checkThen (1 ≤ s.geo.oobSize) invalidArgument (buffersCheck s.geo.rawPageSize buffers)))))

/-- What a move of a procedure comes to when nothing of the program follows it. -/
def startMove : Move → State
  | .go s q => settle s q []
  | .push s q items => s.goOn q items
  | .fail s q r => raise s q r

/-- WRITE_PAGES (R238). -/
def execWritePages (flags : Byte) (startPage : Arg) (buffers : List (List Byte)) (s : State) :
    Host.Outcome State Fault Refusal :=
  .next (accept (.writePages flags startPage buffers) s (writePagesRefusal flags startPage buffers s) fun s' =>
    startMove (bulkLoop s'
      { op := .writePages flags startPage buffers, todo := [], page := startPage.toNat,
        block := (decomposeAddress s'.geo startPage.toNat).1 }))

end Sys2Proof.Machine
end

