-- ==== Sys2Proof/Machine/Dispatch.lean ====
section
/-! DEFINITION. The dispatch: one arm per instruction, each one call of its meaning. -/

namespace Sys2Proof.Machine

def exec (i : Instr) (s : State) : Host.Outcome State Fault Refusal :=
  match i with
  -- The operations at the request port (R81).
  | .identify flags => Sys2Proof.Machine.execIdentify flags s
  | .readPage flags page => Sys2Proof.Machine.execReadPage flags page s
  | .writePage flags page buffer => Sys2Proof.Machine.execWritePage flags page buffer s
  | .writePages flags startPage buffers => Sys2Proof.Machine.execWritePages flags startPage buffers s
  | .eraseBlock flags block => Sys2Proof.Machine.execEraseBlock flags block s
  | .eraseRange flags first last => Sys2Proof.Machine.execEraseRange flags first last s
  | .scanBadBlocks flags => Sys2Proof.Machine.execScanBadBlocks flags s
  | .seqReadBlock flags block => Sys2Proof.Machine.execSeqReadBlock flags block s
  | .getFeature flags address => Sys2Proof.Machine.execGetFeature flags address s
  | .setFeature flags address value => Sys2Proof.Machine.execSetFeature flags address value s
  | .computeBer flags x y => Sys2Proof.Machine.execComputeBer flags x y s
  -- The NAND command bytes at the transport port (R87 to R93).
  | .nandRead => Sys2Proof.Machine.execNandRead s
  | .nandRead1 => Sys2Proof.Machine.execNandRead1 s
  | .nandReadStart => Sys2Proof.Machine.execNandReadStart s
  | .nandReadOob => Sys2Proof.Machine.execNandReadOob s
  | .nandSeqin => Sys2Proof.Machine.execNandSeqin s
  | .nandPageprog => Sys2Proof.Machine.execNandPageprog s
  | .nandGetStatus => Sys2Proof.Machine.execNandGetStatus s
  | .nandEraseSetup => Sys2Proof.Machine.execNandEraseSetup s
  | .nandEraseConfirm => Sys2Proof.Machine.execNandEraseConfirm s
  | .nandReadId => Sys2Proof.Machine.execNandReadId s
  | .nandReadParamPage => Sys2Proof.Machine.execNandReadParamPage s
  | .nandGetFeatures => Sys2Proof.Machine.execNandGetFeatures s
  | .nandSetFeatures => Sys2Proof.Machine.execNandSetFeatures s

end Sys2Proof.Machine
end

