-- ==== Sys2Proof/Machine/Step.lean ====
section
/-! DEFINITION. The step: reset, waiting, the acceptance of a request, or one transport transaction (10_state.md R32, R33;
70_reset_and_hazards.md R380), and how a word is placed where the next step fetches it. -/

namespace Sys2Proof.Machine

/-- One step. -/
def step (s : State) : Host.Outcome State Fault Refusal :=
  match fetch s with
  | .reset => .next s.applyReset
  | .idle => .next s
  | .operation i s' => exec i s'
  | .illegal s' => .next (illegalRequest s')
  | .command i => exec i s
  | .unknownCommand => .fault .unknownCommandByte
  | .item q => .next (performItem s q q.todo)

/-- The state in which the very next step runs the given word of the opcode table (log 8, log 9). -/
def State.withFetchWord (s : State) (nbits w : Nat) : State := s.placeWord (tableWord nbits w)

end Sys2Proof.Machine
end

