-- ==== Sys2Proof/WellFormed.lean ====
section
/-! DEFINITION. The checks on a request that need no engine state: those of 30_encoding.md R82, 46_block_erase.md R264,
48_features.md R312 and 49_diagnostics.md R331. An ill-formed request still runs: the engine responds INVALID_ARGUMENT. -/

namespace Sys2Proof

/-- The flag bits an instruction defines (R82): includeOOB for READ_PAGE and SEQ_READ_BLOCK, rawMode for
SEQ_READ_BLOCK. -/
def Instr.definedFlags : Instr → Byte
  | .readPage _ _ => 0x01#8
  | .seqReadBlock _ _ => 0x03#8
  | _ => 0x00#8

/-- The flags byte of a request (R80); a NAND command has none. -/
def Instr.flagsByte : Instr → Byte
  | .identify f => f
  | .readPage f _ => f
  | .writePage f _ _ => f
  | .writePages f _ _ => f
  | .eraseBlock f _ => f
  | .eraseRange f _ _ => f
  | .scanBadBlocks f => f
  | .seqReadBlock f _ => f
  | .getFeature f _ => f
  | .setFeature f _ _ => f
  | .computeBer f _ _ => f
  | _ => 0x00#8

/-- The operation uses `arg0` (R81). -/
def Instr.usesArg0 : Instr → Bool
  | .readPage _ _ => true
  | .writePage _ _ _ => true
  | .writePages _ _ _ => true
  | .eraseBlock _ _ => true
  | .eraseRange _ _ _ => true
  | .seqReadBlock _ _ => true
  | .getFeature _ _ => true
  | .setFeature _ _ _ => true
  | _ => false

/-- The operation uses `arg1` (R81). -/
def Instr.usesArg1 : Instr → Bool
  | .eraseRange _ _ _ => true
  | _ => false

/-- The instruction is an operation of the request port (R81), not a NAND command byte. -/
def Instr.isOperation : Instr → Bool
  | .nandRead => false
  | .nandRead1 => false
  | .nandReadStart => false
  | .nandReadOob => false
  | .nandSeqin => false
  | .nandPageprog => false
  | .nandGetStatus => false
  | .nandEraseSetup => false
  | .nandEraseConfirm => false
  | .nandReadId => false
  | .nandReadParamPage => false
  | .nandGetFeatures => false
  | .nandSetFeatures => false
  | _ => true

/-- Every undefined flag bit is 0 (R82). -/
def Instr.flagsOk (i : Instr) : Bool := i.flagsByte &&& ~~~ i.definedFlags == 0x00#8

/-- A feature address is below 256 (R312). -/
def Instr.featureAddressOk : Instr → Bool
  | .getFeature _ a => decide (a.toNat ≤ 0xFF)
  | .setFeature _ a _ => decide (a.toNat ≤ 0xFF)
  | _ => true

/-- A feature value has 4 bytes (R312). -/
def Instr.featureValueOk : Instr → Bool
  | .setFeature _ _ v => v.length == Config.featureLen
  | _ => true

/-- An erase range is ordered (R264). -/
def Instr.rangeOk : Instr → Bool
  | .eraseRange _ b0 b1 => decide (b0.toNat ≤ b1.toNat)
  | _ => true

/-- The two buffers of a comparison have one length (R331). -/
def Instr.berLengthsOk : Instr → Bool
  | .computeBer _ x y => x.length == y.length
  | _ => true

/-- The buffers of a comparison are not empty (R331). -/
def Instr.berNonempty : Instr → Bool
  | .computeBer _ x _ => decide (1 ≤ x.length)
  | _ => true

/-- All checks together. -/
def Instr.wellFormed (i : Instr) : Bool :=
  i.flagsOk && i.featureAddressOk && i.featureValueOk && i.rangeOk && i.berLengthsOk && i.berNonempty

end Sys2Proof
end

