-- ==== Sys2Proof/Safety.lean ====
section
/-! DEFINITION. What a safe machine is, in the terms the statements use: a well-formed geometry (10_state.md R24, R27,
43_identification.md R202), a well-formed sequencer, legal transactions, and the machine's invariant. -/

namespace Sys2Proof.Machine

/-! ## Geometry -/

/-- The geometry registers hold an identified geometry: the invariants of R27, the derived registers of R195 to R199,
the validity check of R202, and every field within its width of R24. -/
structure Geometry.Wf (g : Geometry) : Prop where
  raw : g.rawPageSize = g.pageSize + g.oobSize
  blocks : g.blockCount = g.blocksPerLun * g.lunCount
  pages : g.pageCount = g.blockCount * g.pagesPerBlock
  blockBytes : g.blockSize = g.pagesPerBlock * g.rawPageSize
  chip : g.chipSizeMB = g.pageCount * g.rawPageSize / 2 ^ 20
  cycles : g.addressCycleCount = 5
  valid : geometryValid g = true
  pageSizeFits : g.pageSize < 2 ^ 32
  oobSizeFits : g.oobSize < 2 ^ 16
  rawPageSizeFits : g.rawPageSize < 2 ^ 33
  pagesPerBlockFits : g.pagesPerBlock < 2 ^ 32
  blocksPerLunFits : g.blocksPerLun < 2 ^ 32
  lunCountFits : g.lunCount < 2 ^ 8
  blockCountFits : g.blockCount < 2 ^ 40
  pageCountFits : g.pageCount < 2 ^ 72
  blockSizeFits : g.blockSize < 2 ^ 65
  chipSizeFits : g.chipSizeMB < 2 ^ 85

/-! ## The remaining program -/

/-- The command bytes of R87 to R93. -/
def commandBytes : List Byte := commandTable.map (·.1)

/-- The item is a transaction: the sequencer can stand at it. -/
def Item.isTransaction : Item → Bool
  | .act _ => false
  | .readData 0 => false
  | .dataOut [] => false
  | _ => true

/-- Every command byte the item can send is one of R87 to R93 (R96). -/
def Item.commandsKnown : Item → Bool
  | .cmd b => commandBytes.contains b
  | .act (.programVerdict a) =>
    match a.pointer with
    | some b => commandBytes.contains b
    | none => true
  | _ => true

/-- The action belongs to IDENTIFY. -/
def Action.ofIdentify : Action → Bool
  | .keepIdBytes => true
  | .checkSignature => true
  | .parsePage => true
  | _ => false

/-- The item belongs to no other operation than IDENTIFY. -/
def Item.ofIdentify : Item → Bool
  | .act a => a.ofIdentify
  | _ => false

/-- The commands that write or erase: SEQIN, PAGEPROG, ERASE-SETUP, ERASE-CONFIRM (R87). -/
def writeCommands : List Byte := [0x80#8, 0x10#8, 0x60#8, 0xD0#8]

/-- The write-enable guard after an item: open or closed, or nothing where the item may not stand there (R157: no guard
runs inside another, and every write and every erase runs inside one). -/
def guardStep (isOpen : Bool) : Item → Option Bool
  | .cmd b => if writeCommands.contains b && !isOpen then none else some isOpen
  | .guardOpen => if isOpen then none else some true
  | .guardClose => if isOpen then some false else none
  | .act (.programVerdict _) => if isOpen then some true else none
  | .act .takeStatus => some isOpen
  | .act _ => if isOpen then none else some false
  | _ => some isOpen

/-- The write-enable guard after a program. -/
def guardAfter (isOpen : Bool) : List Item → Option Bool
  | [] => some isOpen
  | it :: rest =>
    match guardStep isOpen it with
    | some o => guardAfter o rest
    | none => none

/-- The identification state while `rest` of IDENTIFY's frame remains (R180, R181). -/
def identifyState (rest : List Item) : IdState :=
  if .act .keepIdBytes ∈ rest then .probeId
  else if .act .checkSignature ∈ rest then .probeOnfi
  else .parseParameterPage

/-- A transaction IDENTIFY sends. -/
def identifyItem : Item → Bool
  | .cmd b => commandBytes.contains b && !writeCommands.contains b
  | .addr _ => true
  | .readData (_ + 1) => true
  | .waitReady => true
  | _ => false

/-- IDENTIFY in progress: the sequencer is inside its frame, at the state R181 gives, with no geometry (R180, R205). -/
def IdentifyRunning (s : State) (q : Seq) : Prop :=
  ∃ it rest, q.todo = it :: rest ∧ identifyItem it = true ∧ rest ≠ [] ∧ rest <:+ identifyFrame ∧
    s.idState = identifyState rest ∧ s.geom = none ∧ q.saved = none

/-- Another operation in progress: the device is identified (R353), and no step of IDENTIFY remains. -/
def DeviceOpRunning (s : State) (q : Seq) : Prop :=
  s.idState = .ready ∧ (∀ it ∈ q.todo, it.ofIdentify = false)

/-- The sequencer of an operation in progress. -/
structure SeqInv (s : State) (q : Seq) : Prop where
  /-- It stands at a transaction (R33). -/
  atTransaction : ∃ it rest, q.todo = it :: rest ∧ it.isTransaction = true
  /-- Every command byte still to be sent is known (R96). -/
  commands : ∀ it ∈ q.todo, it.commandsKnown = true
  /-- The guard opens and closes properly, and is closed at the end (R157). -/
  guardBalanced : guardAfter q.saved.isSome q.todo = some false
  /-- Outside a guard the flag is 1 (R30). -/
  protectedOutside : q.saved = none → s.wpProtect = true
  /-- The saved value is always 1 (R157). -/
  savedProtected : ∀ b, q.saved = some b → b = true
  /-- Inside a guard, until an error waits for its restore, the flag is 0 (R157). -/
  openUnprotected : q.saved.isSome = true → q.pending = none → s.wpProtect = false
  /-- A raised error waits only for the guard's restore, and carries no data (R345, R362). -/
  pendingRestore : ∀ r, q.pending = some r →
    q.todo = [.guardClose] ∧ r.data = none ∧ r.code ≠ .ok ∧ r.code ≠ .badBlock
  /-- The poll counter stays below the bound (R152). -/
  pollBound : q.poll < s.cfg.readyPollLimit
  /-- The retry counter stays within the bound (R235). -/
  retryBound : q.retry ≤ s.cfg.programRetryLimit
  /-- The operation runs in the identification state its rule gives (R181, R353). -/
  phase : if isIdentify q.op then IdentifyRunning s q else DeviceOpRunning s q

/-! ## Transactions -/

/-- A legal transaction: a command byte of R87 to R93 (R96), at most `READ_CHUNK_MAX` read cycles (R390). -/
def Event.legal (e : Event) : Bool :=
  match e.transaction with
  | .cmd b => commandBytes.contains b
  | .dataIn n => decide (n ≤ Config.readChunkMax)
  | _ => true

/-! ## The machine -/

/-- The invariant of the machine. -/
structure Inv (s : State) : Prop where
  /-- R25. -/
  validIffReady : s.gValid = true ↔ s.idState = .ready
  /-- R27, R202, R24. -/
  geometry : ∀ g, s.geom = some g → g.Wf
  /-- An aborted session runs no operation (R346). -/
  abortedIdle : s.abortCause.isSome = true → s.seq = none
  /-- A failed identification has aborted the session (R204, R346). -/
  failedAborted : s.idState = .failed → s.abortCause.isSome = true
  /-- While no operation runs, the device is protected (R30) and no identification is under way (R181). -/
  idle : s.seq = none → s.wpProtect = true ∧
    (s.idState = .uninitialized ∨ s.idState = .ready ∨ s.idState = .failed)
  /-- While an operation runs, its sequencer is in order. -/
  running : ∀ q, s.seq = some q → SeqInv s q
  /-- Every transaction sent was legal (R96, R390). -/
  traceLegal : ∀ e ∈ s.trace, e.legal = true

/-- The engine is identified, not aborted and idle, with geometry `g`, and reset is not asserted: a device operation
passes the state checks (R353). -/
structure State.ReadyWith (s : State) (g : Geometry) : Prop where
  running : s.resetInput = false
  idle : s.seq = none
  notAborted : s.abortCause = none
  ready : s.idState = .ready
  geometry : s.geom = some g

/-! ## Runs -/

/-- `n` steps of the machine lead from `s` to `t`. -/
def Runs (n : Nat) (s t : State) : Prop := Host.Core.run Sys2Proof.core n s = .next t

/-- Executing `i` starts an operation that `n` further steps bring to `t`. -/
def Completes (i : Instr) (n : Nat) (s t : State) : Prop := ∃ s₁, exec i s = .next s₁ ∧ Runs n s₁ t

/-- The engine after the transactions `events`, with the answers `as` still waiting. -/
def State.after (s : State) (as : List Answer) (events : List Event) : State :=
  { s with answers := as, trace := s.trace ++ events }

/-- The level of the write-protect line after `events`, from the level before them (R146). -/
def wpLineAfter (c : Config.Params) (level : Option Bool) : List Event → Option Bool
  | [] => level
  | e :: es =>
    wpLineAfter c
      (match e.transaction with
        | .setWP p => if e.answer = some .ok then some (wpLevel c p) else none
        | _ => level) es

/-- The levels of the sequential-read lines after `events` (R146). -/
def markLinesAfter (c : Config.Params) (levels : Option (BitVec 2)) : List Event → Option (BitVec 2)
  | [] => levels
  | e :: es =>
    markLinesAfter c
      (match e.transaction with
        | .mark m => if e.answer = some .ok then some (markLevels c m) else none
        | _ => levels) es

/-! ## One transaction and its answer -/

/-- The transaction of an item that is answered by the transport; `guardClose` restores the saved value, so its `SetWP` is
not fixed by the item (R97, R157). -/
def Item.transaction (c : Config.Params) : Item → Option Transaction
  | .cmd b => some (.cmd b)
  | .addr b => some (.addr b)
  | .dataOut (b :: bs) => some (.dataOut (b :: bs))
  | .mark m => some (.mark m)
  | .readData (n + 1) => some (.dataIn (chunkCycles c (n + 1)))
  | .waitReady => some .pollReady
  | .guardOpen => some (.setWP false)
  | _ => none

/-- The answer completes the transaction (R97); any other answer counts as absent (R144, R395, log 3). -/
def Transaction.acceptedBy : Transaction → Answer → Bool
  | .pollReady, .ready _ => true
  | .pollReady, _ => false
  | .dataIn n, .bytes raw => raw.length == n
  | .dataIn _, _ => false
  | _, .ok => true
  | _, _ => false

/-- The session abort (R346): the first cause is kept; inside IDENTIFY the identification fails (R204). -/
def State.aborted (s : State) (identify : Bool) (c : AbortCause) : State :=
  { s with abortCause := some (s.abortCause.getD c)
           idState := if identify then .failed else s.idState
           geom := if identify then none else s.geom }

/-- The engine has answered a request: idle, with one more response. -/
def State.responded (s : State) (r : Response) : State :=
  { s with seq := none, responses := s.responses ++ [r] }

/-! ## What the transport says -/

/-- A stretch of a conversation at the transport port: the answers it takes, and the events it leaves in the trace. -/
structure Talk where
  answers : List Answer
  events : List Event

/-- One after the other. -/
def Talk.join (ts : List Talk) : Talk :=
  { answers := ts.flatMap fun t => t.answers, events := ts.flatMap fun t => t.events }

/-- A transaction answered ok. -/
def okEvent (t : Transaction) : Event := { transaction := t, answer := some .ok }

/-- Transactions answered ok. -/
def Talk.sends (ts : List Transaction) : Talk :=
  { answers := ts.map fun _ => .ok, events := ts.map okEvent }

/-- The answers of a `WaitReady` that succeeds after `j` polls answered false (R152). -/
def pollAnswers (j : Nat) : List Answer := List.replicate j (.ready false) ++ [.ready true]

/-- The polls of a `WaitReady` with the given answers. -/
def pollEvents (as : List Answer) : List Event := as.map fun a => { transaction := .pollReady, answer := some a }

/-- `WaitReady()` that returns (R152). -/
def Waits (c : Config.Params) (t : Talk) : Prop :=
  ∃ j, j < c.readyPollLimit ∧ t = { answers := pollAnswers j, events := pollEvents (pollAnswers j) }

/-- `ReadData(n)` gets the raw replies `raws`, each of the length asked, and returns `data` (R149). -/
def Replies (c : Config.Params) : Nat → List (List Byte) → List Byte → Prop
  | n, [], data => n = 0 ∧ data = []
  | n, raw :: raws, data =>
    0 < n ∧ raw.length = chunkCycles c n ∧
      ∃ more, data = usefulBytes c raw ++ more ∧ Replies c (n - chunkSize c n) raws more

/-- The read transactions with the given replies. -/
def readEvents (raws : List (List Byte)) : List Event :=
  raws.map fun raw => { transaction := .dataIn raw.length, answer := some (.bytes raw) }

/-- `ReadData(n)` that returns `data` (R149). -/
def Reads (c : Config.Params) (n : Nat) (t : Talk) (data : List Byte) : Prop :=
  ∃ raws, Replies c n raws data ∧ t = { answers := raws.map .bytes, events := readEvents raws }

/-- `ReadStatus()` that returns `status` (R155). -/
def ReadsStatus (c : Config.Params) (t : Talk) (status : Byte) : Prop :=
  ∃ r, Reads c 1 r [status] ∧ t = .join [.sends [.cmd 0x70#8], r]

/-- `Delay(FEATURE_SETTLE_DELAY)` (R146, R313). -/
def Talk.delay (c : Config.Params) : Talk :=
  { answers := [], events := [{ transaction := .delay c.featureSettleDelay, answer := none }] }

/-! ## The address cycles, written out -/

/-- The `n` low bytes of a row, least significant first (R127). -/
def rowBytes (row n : Nat) : List Byte := (List.range n).map fun k => BitVec.ofNat 8 (row / 256 ^ k)

/-- The five address cycles of a page access: two column bytes and three row bytes in large-page mode, one and four in
legacy mode; the column is 0 (R124, R125). -/
def pageAddressBytes (g : Geometry) (p : Nat) : List Byte :=
  if g.largePage then 0x00#8 :: 0x00#8 :: rowBytes p 3 else 0x00#8 :: rowBytes p 4

/-- The address cycles of an erase: the row of the block's first page, three bytes in large-page mode, four in legacy mode
(R124, R126). -/
def eraseAddressBytes (g : Geometry) (b : Nat) : List Byte :=
  rowBytes (b * g.pagesPerBlock) (if g.largePage then 3 else 4)

/-- A command latch and its address cycles. -/
def commandAndAddress (c : Byte) (as : List Byte) : List Transaction := .cmd c :: as.map .addr

/-! ## Procedures that succeed -/

/-- One sub-read of the legacy page read that returns `data` (R213). -/
def SubReads (c : Config.Params) (g : Geometry) (b : Byte) (p n : Nat) (t : Talk) (data : List Byte) : Prop :=
  ∃ w r, Waits c w ∧ Reads c n r data ∧ t = .join [.sends (commandAndAddress b (pageAddressBytes g p)), w, r]

/-- `ReadPage(p, oob)` that returns `data` (R211 to R213). -/
def ReadsPage (c : Config.Params) (g : Geometry) (p : Nat) (oob : Bool) (t : Talk) (data : List Byte) : Prop :=
  if g.largePage then
    ∃ w r, Waits c w ∧ Reads c (if oob then g.rawPageSize else g.pageSize) r data ∧
      t = .join [.sends (commandAndAddress 0x00#8 (pageAddressBytes g p) ++ [.cmd 0x30#8]), w, r]
  else
    ∃ t₁ t₂ d₁ d₂, SubReads c g 0x00#8 p (g.pageSize / 2) t₁ d₁ ∧ SubReads c g 0x01#8 p (g.pageSize / 2) t₂ d₂ ∧
      if oob then ∃ t₃ d₃, SubReads c g 0x50#8 p g.oobSize t₃ d₃ ∧ t = .join [t₁, t₂, t₃] ∧ data = d₁ ++ d₂ ++ d₃
      else t = .join [t₁, t₂] ∧ data = d₁ ++ d₂

/-- One program attempt that returns `status` (R231); the `DataOut` of no byte sends nothing (R143). -/
def Attempts (c : Config.Params) (g : Geometry) (pointer : List Byte) (p : Nat) (part : List Byte) (t : Talk)
    (status : Byte) : Prop :=
  ∃ w r, Waits c w ∧ ReadsStatus c r status ∧
    t = .join [.sends (pointer.map .cmd ++ commandAndAddress 0x80#8 (pageAddressBytes g p) ++
      (if part = [] then [] else [.dataOut part]) ++ [.cmd 0x10#8]), w, r]

/-- `n` program attempts in a row, each with the FAIL bit set (R235), the last with `status`. -/
def AttemptsFail (c : Config.Params) (g : Geometry) (pointer : List Byte) (p : Nat) (part : List Byte) :
    Nat → Talk → Byte → Prop
  | 0, _, _ => False
  | 1, t, status => Attempts c g pointer p part t status ∧ statusFailed status = true
  | n + 2, t, status =>
    ∃ t₁ t₂ st, Attempts c g pointer p part t₁ st ∧ statusFailed st = true ∧
      AttemptsFail c g pointer p part (n + 1) t₂ status ∧ t = .join [t₁, t₂]

/-- `ProgramWithRetry` that returns `status`: at most `PROGRAM_RETRY_LIMIT` failed attempts, then one that passes
(R235). -/
def Programs (c : Config.Params) (g : Geometry) (pointer : List Byte) (p : Nat) (part : List Byte) (t : Talk)
    (status : Byte) : Prop :=
  statusFailed status = false ∧
    (Attempts c g pointer p part t status ∨
      ∃ n t₁ t₂ st, n ≤ c.programRetryLimit ∧ AttemptsFail c g pointer p part n t₁ st ∧
        Attempts c g pointer p part t₂ status ∧ t = .join [t₁, t₂])

/-- `ProgramWithRetry` that raises PROGRAM_FAILURE with `status`: `1 + PROGRAM_RETRY_LIMIT` failed attempts (R235). -/
def ProgramFails (c : Config.Params) (g : Geometry) (pointer : List Byte) (p : Nat) (part : List Byte) (t : Talk)
    (status : Byte) : Prop :=
  AttemptsFail c g pointer p part (1 + c.programRetryLimit) t status

/-- The sub-writes of a page write with their pointer commands: one in large-page mode, three in legacy mode (R232,
R233). -/
def writeParts (g : Geometry) (buf : List Byte) : List (List Byte × List Byte) :=
  if g.largePage then [([], buf)]
  else
    let h := g.pageSize / 2
    [([0x00#8], buf.take h), ([0x01#8], (buf.drop h).take h), ([0x50#8], buf.drop (2 * h))]

/-- The given sub-writes all succeed; `status` is the last status byte, `before` the one before them. -/
def WritesParts (c : Config.Params) (g : Geometry) (p : Nat) (before : Option Byte) :
    List (List Byte × List Byte) → Talk → Option Byte → Prop
  | [], t, status => t = .join [] ∧ status = before
  | (pointer, part) :: parts, t, status =>
    ∃ t₁ t₂ st, Programs c g pointer p part t₁ st ∧ WritesParts c g p (some st) parts t₂ status ∧
      t = .join [t₁, t₂]

/-- One of the given sub-writes raises PROGRAM_FAILURE with `status`, after the earlier ones succeeded; the later ones are
not sent (R233). -/
def WritePartsFail (c : Config.Params) (g : Geometry) (p : Nat) :
    List (List Byte × List Byte) → Talk → Byte → Prop
  | [], _, _ => False
  | (pointer, part) :: parts, t, status =>
    ProgramFails c g pointer p part t status ∨
      ∃ t₁ t₂ st, Programs c g pointer p part t₁ st ∧ WritePartsFail c g p parts t₂ status ∧ t = .join [t₁, t₂]

/-- The write-enable guard around a body: both `SetWP` answered ok (R157). -/
def Talk.guarded (body : Talk) : Talk := .join [.sends [.setWP false], body, .sends [.setWP true]]

/-- `WriteOnePage(p, buf)` that returns `status` (R230). -/
def WritesPage (c : Config.Params) (g : Geometry) (p : Nat) (buf : List Byte) (t : Talk) (status : Byte) : Prop :=
  ∃ body, WritesParts c g p none (writeParts g buf) body (some status) ∧ t = body.guarded

/-- `WriteOnePage(p, buf)` that raises PROGRAM_FAILURE with `status` (R235, R236). -/
def PageWriteFails (c : Config.Params) (g : Geometry) (p : Nat) (buf : List Byte) (t : Talk) (status : Byte) : Prop :=
  ∃ body, WritePartsFail c g p (writeParts g buf) body status ∧ t = body.guarded

/-- `EraseOne(b)` that returns `status` (R261). -/
def Erases (c : Config.Params) (g : Geometry) (b : Nat) (t : Talk) (status : Byte) : Prop :=
  ∃ w r, Waits c w ∧ ReadsStatus c r status ∧
    t = (Talk.join [.sends (commandAndAddress 0x60#8 (eraseAddressBytes g b) ++ [.cmd 0xD0#8]), w, r]).guarded

/-- The erases of the blocks from `b` on, with the status byte of each (R264). -/
def ErasesFrom (c : Config.Params) (g : Geometry) : Nat → List Byte → Talk → Prop
  | _, [], t => t = .join []
  | b, st :: sts, t => ∃ t₁ t₂, Erases c g b t₁ st ∧ ErasesFrom c g (b + 1) sts t₂ ∧ t = .join [t₁, t₂]

/-- Each block with its status byte (R264). -/
def erasePairs (b : Nat) : List Byte → List (Nat × Byte)
  | [] => []
  | st :: sts => (b, st) :: erasePairs (b + 1) sts

/-- The marker at `off` of a raw page is not 0xFF (R282). -/
def MarkedBad (off : Nat) (d : List Byte) : Prop := d[off]? ≠ some 0xFF#8

/-- The reads of the blocks' first pages from `b` on, with each raw page (R280). -/
def ScansFrom (c : Config.Params) (g : Geometry) : Nat → List (List Byte) → Talk → Prop
  | _, [], t => t = .join []
  | b, d :: ds, t =>
    ∃ t₁ t₂, ReadsPage c g (b * g.pagesPerBlock) true t₁ d ∧ ScansFrom c g (b + 1) ds t₂ ∧ t = .join [t₁, t₂]

/-- The indices, from `b` on, of the raw pages whose marker at `off` is bad, in ascending order (R280). -/
def badFrom (off : Nat) : Nat → List (List Byte) → List Nat
  | _, [] => []
  | b, d :: ds => if d[off]? = some 0xFF#8 then badFrom off (b + 1) ds else b :: badFrom off (b + 1) ds

/-- The pages of the sequential read (R285). -/
def ReadsOn (c : Config.Params) (g : Geometry) : List (List Byte) → Talk → Prop
  | [], t => t = .join []
  | d :: ds, t => ∃ r w t₂, Reads c g.rawPageSize r d ∧ Waits c w ∧ ReadsOn c g ds t₂ ∧ t = .join [r, w, t₂]

/-- The marker pages of a block in the bulk write, with whether one of them is bad (R240). -/
def MarkersRead (c : Config.Params) (g : Geometry) (page : Nat) : Nat → Talk → Bool → Prop
  | 0, t, bad => t = .join [] ∧ bad = false
  | n + 1, t, bad =>
    ∃ t₁ t₂ d b, ReadsPage c g page true t₁ d ∧ MarkersRead c g (page + 1) n t₂ b ∧ t = .join [t₁, t₂] ∧
      (bad = true ↔ MarkedBad g.pageSize d ∨ b = true)

/-- `BlockMarkedBad(page)` (R240). -/
def BlockMarked (c : Config.Params) (g : Geometry) (page : Nat) (t : Talk) (bad : Bool) : Prop :=
  MarkersRead c g page (min c.writeMarkerPages g.pagesPerBlock) t bad

/-- What stands between the page cursor and the write of its page (R238, R242): nothing inside a block; at a block's first
page its markers are read and good, and it is erased, where the configuration says so, without failing. -/
def BlockEntered (c : Config.Params) (g : Geometry) (page : Nat) (t : Talk) : Prop :=
  if page % g.pagesPerBlock = 0 then
    ∃ t₁, BlockMarked c g page t₁ false ∧
      if c.bulkEraseBeforeProgram then
        ∃ t₂ st, Erases c g (page / g.pagesPerBlock) t₂ st ∧ statusFailed st = false ∧ t = .join [t₁, t₂]
      else t = t₁
  else t = .join []

/-- The loop of WRITE_PAGES (R238), from the page cursor, the data cursor and the skipped blocks, with every transaction
answered: what is said and what the operation responds. -/
inductive BulkWrites (c : Config.Params) (g : Geometry) (bufs : List (List Byte)) :
    Nat → Nat → List Nat → Talk → Response → Prop where
  /-- All buffers written. -/
  | done {page k : Nat} {skipped : List Nat} (h : bufs.length ≤ k) :
      BulkWrites c g bufs page k skipped (.join [])
        { code := .ok, count := some (field40 k), list := some (.blocks skipped) }
  /-- No page left (R244). -/
  | exhausted {page k : Nat} {skipped : List Nat} (h : k < bufs.length) (hp : g.pageCount ≤ page) :
      BulkWrites c g bufs page k skipped (.join [])
        { code := .capacityExhausted, count := some (field40 k), list := some (.blocks skipped) }
  /-- A bad block is skipped whole (R241). -/
  | skip {page k : Nat} {skipped : List Nat} {t₁ t₂ : Talk} {r : Response} (h : k < bufs.length)
      (hp : page < g.pageCount) (hb : page % g.pagesPerBlock = 0) (hm : BlockMarked c g page t₁ true)
      (hrest : BulkWrites c g bufs (page + g.pagesPerBlock) k (skipped ++ [page / g.pagesPerBlock]) t₂ r) :
      BulkWrites c g bufs page k skipped (.join [t₁, t₂]) r
  /-- The erase of a good block fails (R243). -/
  | eraseFails {page k : Nat} {skipped : List Nat} {t₁ t₂ : Talk} {st : Byte} (h : k < bufs.length)
      (hp : page < g.pageCount) (hb : page % g.pagesPerBlock = 0) (hm : BlockMarked c g page t₁ false)
      (he : c.bulkEraseBeforeProgram = true) (hs : Erases c g (page / g.pagesPerBlock) t₂ st)
      (hf : statusFailed st = true) :
      BulkWrites c g bufs page k skipped (.join [t₁, t₂])
        { code := .eraseFailure, index := some (field40 (page / g.pagesPerBlock)), status := some st,
          count := some (field40 k), list := some (.blocks skipped) }
  /-- A page is written: after the markers and the erase where it is the first of its block, at once elsewhere. -/
  | write {page k : Nat} {skipped : List Nat} {t₁ t₂ t₃ : Talk} {st : Byte} {r : Response} (h : k < bufs.length)
      (hp : page < g.pageCount) (hb : BlockEntered c g page t₁)
      (hw : WritesPage c g page (bufs.getD k []) t₂ st)
      (hrest : BulkWrites c g bufs (page + 1) (k + 1) skipped t₃ r) :
      BulkWrites c g bufs page k skipped (.join [t₁, t₂, t₃]) r
  /-- A page write fails (R243). -/
  | programFails {page k : Nat} {skipped : List Nat} {t₁ t₂ : Talk} {st : Byte} (h : k < bufs.length)
      (hp : page < g.pageCount) (hb : BlockEntered c g page t₁)
      (hw : PageWriteFails c g page (bufs.getD k []) t₂ st) :
      BulkWrites c g bufs page k skipped (.join [t₁, t₂])
        { code := .programFailure, index := some (field40 page), status := some st, count := some (field40 k),
          list := some (.blocks skipped) }

end Sys2Proof.Machine
end

