-- ==== Sys2Proof/Certificates/Slice0/Obligations.lean ====
section
/-! DEFINITION. The statements for the provers, each from a rule of spec/ or derived from its rules; OBLIGATIONS.json lists
them in this order. `Inv`, `Completes`, `Runs` and the conversations (`Talk`, `Reads`, `Waits`, ...) are in Safety.lean. -/

open Sys2Proof Sys2Proof.Machine

/-! ## Encoding -/

/-- The reset values of R40. -/
def Obligations.ResetHoldsTheValuesOfTheSpec : Prop :=
  State.reset.idState.code = 0#3 ∧ State.reset.abortCause = none ∧ State.reset.gValid = false ∧
  State.reset.geom = none ∧ State.reset.idBytes = none ∧ State.reset.wpProtect = true ∧
  State.reset.busy = false ∧ State.reset.seq = none ∧ State.reset.wpLine = none ∧ State.reset.markLines = none

/-- The numbers of the result codes (R86) and of the identification states (R22), and the 40-bit response fields: a value
that fits stands in its field unchanged (R85). -/
def Obligations.NumbersOfCodesAndStates : Prop :=
  [ResultCode.ok, .deviceAbsent, .identificationFailed, .timeout, .programFailure, .eraseFailure, .badBlock,
    .invalidArgument, .notIdentified, .capacityExhausted, .illegalRequest].map ResultCode.code =
    (List.range 11).map (BitVec.ofNat 8) ∧
  [IdState.uninitialized, .probeId, .probeOnfi, .parseParameterPage, .ready, .failed].map IdState.code =
    (List.range 6).map (BitVec.ofNat 3) ∧
  (∀ c : ResultCode, c.code.toNat ≤ 10) ∧ (∀ st : IdState, st.code.toNat ≤ 5) ∧
  (∀ n : Nat, n < 2 ^ 40 → (field40 n).toNat = n)

/-- Words spelled out from R80, R81 and R87 to R93 decode to the instructions they stand for. -/
def Obligations.SpelledWordsDecode : Prop :=
  decode (.request { header := 0x00000000000000000001#80, payload := [] }) = .ok (.identify 0x00#8) ∧
  decode (.request { header := 0x00000000000012340102#80, payload := [] }) = .ok (.readPage 0x01#8 0x00001234#32) ∧
  decode (.request { header := 0x00000004000000020006#80, payload := [] }) = .ok (.eraseRange 0x00#8 2#32 4#32) ∧
  decode (.request { header := 0x0000000000000001000A#80, payload := [[0x05#8, 0#8, 0#8, 0#8]] }) =
    .ok (.setFeature 0x00#8 1#32 [0x05#8, 0#8, 0#8, 0#8]) ∧
  decode (.request { header := 0x0000000000000000000C#80, payload := [] }) = .error (.undefinedOperation 0x0C#8) ∧
  decode (.command 0x30#8) = .ok .nandReadStart ∧ decode (.command 0xD0#8) = .ok .nandEraseConfirm ∧
  decode (.command 0xEF#8) = .ok .nandSetFeatures ∧ decode (.command 0xFF#8) = .error (.undefinedCommand 0xFF#8)

/-- Decoding an encoded instruction gives it back, with every operand at every value (R80 to R83, R87 to R93). -/
def Obligations.DecodeOfEncodeIsIdentity : Prop := ∀ i : Instr, decode (encode i) = .ok i

/-- The header is its four fields at the places R80 gives them, and nothing else: `op` in bits 7:0, `flags` in 15:8,
`arg0` in 47:16, `arg1` in 79:48. -/
def Obligations.HeaderIsItsFourFields : Prop :=
  (∀ h : Header, h.toNat = (opField h).toNat + 2 ^ 8 * (flagsField h).toNat + 2 ^ 16 * (arg0Field h).toNat +
    2 ^ 48 * (arg1Field h).toNat) ∧
  (∀ (op f : Byte) (a b : Arg), (packHeader op f a b).toNat =
    op.toNat + 2 ^ 8 * f.toNat + 2 ^ 16 * a.toNat + 2 ^ 48 * b.toNat)

/-- Which operation a request spells, with its operands (R81, R83); every other `op` spells none (R84). A missing payload
sequence reads as empty: the model's choice, log 5. -/
def Obligations.RequestsDecodeByTheirOperationCode : Prop :=
  ∀ r : Request,
    let op := opField r.header
    let f := flagsField r.header
    let a := arg0Field r.header
    (op = 0x01#8 → decodeRequest r = .ok (.identify f)) ∧
    (op = 0x02#8 → decodeRequest r = .ok (.readPage f a)) ∧
    (op = 0x03#8 → decodeRequest r = .ok (.writePage f a (r.payload.headD []))) ∧
    (op = 0x04#8 → decodeRequest r = .ok (.writePages f a r.payload)) ∧
    (op = 0x05#8 → decodeRequest r = .ok (.eraseBlock f a)) ∧
    (op = 0x06#8 → decodeRequest r = .ok (.eraseRange f a (arg1Field r.header))) ∧
    (op = 0x07#8 → decodeRequest r = .ok (.scanBadBlocks f)) ∧
    (op = 0x08#8 → decodeRequest r = .ok (.seqReadBlock f a)) ∧
    (op = 0x09#8 → decodeRequest r = .ok (.getFeature f a)) ∧
    (op = 0x0A#8 → decodeRequest r = .ok (.setFeature f a (r.payload.headD []))) ∧
    (op = 0x0B#8 → decodeRequest r = .ok (.computeBer f (r.payload.headD []) (r.payload.tail.headD []))) ∧
    (op.toNat = 0 ∨ 0x0C ≤ op.toNat → decodeRequest r = .error (.undefinedOperation op))

/-- The command bytes of R87 to R93, each with its instruction, and no other byte (R96). -/
def Obligations.TheThirteenCommandBytesDecode : Prop :=
  ∀ (b : Byte) (i : Instr), decodeCommand b = .ok i ↔
    (b, i) ∈ [(0x00#8, Instr.nandRead), (0x01#8, .nandRead1), (0x30#8, .nandReadStart), (0x50#8, .nandReadOob),
      (0x80#8, .nandSeqin), (0x10#8, .nandPageprog), (0x70#8, .nandGetStatus), (0x60#8, .nandEraseSetup),
      (0xD0#8, .nandEraseConfirm), (0x90#8, .nandReadId), (0xEC#8, .nandReadParamPage), (0xEE#8, .nandGetFeatures),
      (0xEF#8, .nandSetFeatures)]

/-! ## The step -/

/-- An idle engine accepts a request from the port and executes the instruction it decodes to (R80). That of several
waiting requests it takes the oldest is the model's choice, log 4. -/
def Obligations.StepExecutesTheDecodedRequest : Prop :=
  ∀ (s : State) (r : Request) (rs : List Request) (i : Instr), s.resetInput = false → s.seq = none →
    s.requests = r :: rs → decodeRequest r = .ok i → step s = exec i { s with requests := rs }

/-- Where the sequencer stands at a command byte, the step executes the NAND command it decodes to (R33, R141). -/
def Obligations.StepExecutesTheDecodedCommand : Prop :=
  ∀ (s : State) (q : Seq) (b : Byte) (rest : List Item) (i : Instr), s.resetInput = false → s.seq = some q →
    q.todo = .cmd b :: rest → decodeCommand b = .ok i → step s = exec i s

/-- A request with an undefined `op` gets ILLEGAL_REQUEST and changes nothing else (R84, R352), in every idle state. That of
several waiting requests it is the oldest is the model's choice, log 4. -/
def Obligations.UndefinedOperationGetsIllegalRequest : Prop :=
  ∀ (s : State) (r : Request) (rs : List Request), s.resetInput = false → s.seq = none → s.requests = r :: rs →
    (opField r.header).toNat = 0 ∨ 0x0C ≤ (opField r.header).toNat →
    step s = .next { s with requests := rs, responses := s.responses ++ [{ code := .illegalRequest }] }

/-- Reset at any time: the state of R40, with the levels of the lines unknown, and no transaction (R380, R381). That it posts
no response is the model's choice, log 12. -/
def Obligations.ResetWorksAtAnyTime : Prop :=
  ∀ s : State, s.resetInput = true → ∃ t, step s = .next t ∧ t.idState.code = 0#3 ∧ t.abortCause = none ∧
    t.gValid = false ∧ t.geom = none ∧ t.idBytes = none ∧ t.wpProtect = true ∧ t.busy = false ∧ t.seq = none ∧
    t.trace = s.trace ∧ t.wpLine = none ∧ t.markLines = none ∧ t.responses = s.responses

/-- Nothing the caller presents during an operation reaches it (R395): the step is the same for every content of the port,
and the port is held as it is (R80; the port as a queue is the model's, log 4). -/
def Obligations.PortIsHeldWhileBusy : Prop :=
  ∀ (s t : State) (q : Seq) (rs : List Request), s.resetInput = false → s.seq = some q → step s = .next t →
    step { s with requests := rs } = .next { t with requests := rs }

/-- An operation executed while another runs is held at the port, neither lost nor merged (R80; log 6). -/
def Obligations.OperationIsHeldByABusyEngine : Prop :=
  ∀ (s : State) (q : Seq) (i : Instr), s.seq = some q → i.isOperation = true →
    ∃ r, encode i = .request r ∧ exec i s = .next { s with requests := s.requests ++ [r] }

/-! ## Address translation -/

/-- `decomposeAddress` and `composeAddress` (R120, R121) are mutual inverses (R122). -/
def Obligations.AddressTranslationsAreInverse : Prop :=
  ∀ g : Geometry, g.Wf →
    (∀ p, p < g.pageCount → decomposeAddress g p = (p / g.pagesPerBlock, p % g.pagesPerBlock) ∧
      (decomposeAddress g p).1 < g.blockCount ∧ (decomposeAddress g p).2 < g.pagesPerBlock ∧
      composeAddress g (decomposeAddress g p).1 (decomposeAddress g p).2 = p) ∧
    (∀ b i, b < g.blockCount → i < g.pagesPerBlock → composeAddress g b i = b * g.pagesPerBlock + i ∧
      composeAddress g b i < g.pageCount ∧ decomposeAddress g (composeAddress g b i) = (b, i))

/-- Reading the cycles of `EncodeAddress(a, n)` as a little-endian number gives `a % 2^(8n)` (R128). -/
def Obligations.AddressCyclesReadBackAsTheAddress : Prop :=
  ∀ a n : Nat, (encodeAddress a n).length = n ∧ le (encodeAddress a n) = a % 2 ^ (8 * n) ∧
    (a < 2 ^ (8 * n) → le (encodeAddress a n) = a)

/-- The addressing modes: shifts, cycle counts and address words (R124, R125, R126), first pages and marker offsets (R131,
R132). -/
def Obligations.AddressWordsOfBothModes : Prop :=
  ∀ g : Geometry, g.addressCycleCount = 5 →
    colShift g = (if g.largePage then 16 else 8) ∧ colCycles g = (if g.largePage then 2 else 1) ∧
    rowCycles g = (if g.largePage then 3 else 4) ∧
    (∀ p, pageAddressWord g p = p * 2 ^ (if g.largePage then 16 else 8) ∧ pageAddressWord g p % 2 ^ colShift g = 0) ∧
    (∀ b, eraseAddressWord g b = b * g.pagesPerBlock ∧ firstPage g b = composeAddress g b 0 ∧
      firstPage g b = b * g.pagesPerBlock) ∧
    markerOffset g = g.pageSize ∧ seqMarkerOffset g = g.pageSize + 5

/-- The bytes of the address cycles, written out (R98, R212, R232, R261): `00 00 p[7:0] p[15:8] p[23:16]` in large-page
mode, `00 p[7:0] p[15:8] p[23:16] p[31:24]` in legacy mode, and the row bytes alone for an erase. -/
def Obligations.AddressCycleBytes : Prop :=
  (∀ (g : Geometry) (p : Nat), g.addressCycleCount = 5 →
    encodeAddress (pageAddressWord g p) g.addressCycleCount =
      if g.largePage then
        [0x00#8, 0x00#8, BitVec.ofNat 8 p, BitVec.ofNat 8 (p / 2 ^ 8), BitVec.ofNat 8 (p / 2 ^ 16)]
      else
        [0x00#8, BitVec.ofNat 8 p, BitVec.ofNat 8 (p / 2 ^ 8), BitVec.ofNat 8 (p / 2 ^ 16),
          BitVec.ofNat 8 (p / 2 ^ 24)]) ∧
  (∀ (g : Geometry) (b : Nat), g.addressCycleCount = 5 →
    let r := b * g.pagesPerBlock
    encodeAddress (eraseAddressWord g b) (rowCycles g) =
      if g.largePage then [BitVec.ofNat 8 r, BitVec.ofNat 8 (r / 2 ^ 8), BitVec.ofNat 8 (r / 2 ^ 16)]
      else
        [BitVec.ofNat 8 r, BitVec.ofNat 8 (r / 2 ^ 8), BitVec.ofNat 8 (r / 2 ^ 16), BitVec.ofNat 8 (r / 2 ^ 24)])

/-! ## The parameter page -/

/-- The parsed fields, byte by byte, least significant first (R187 to R194). -/
def Obligations.ParsedFieldsComeFromTheirBytes : Prop :=
  ∀ (c : Config.Params) (pp : List Byte), pp.length = 256 →
    let b := fun k => (pp.getD k 0x00#8).toNat
    let g := parseGeometry c pp
    g.pageSize = b 80 + 2 ^ 8 * b 81 + 2 ^ 16 * b 82 + 2 ^ 24 * b 83 ∧
    g.oobSize = b 84 + 2 ^ 8 * b 85 ∧
    g.pagesPerBlock = b 92 + 2 ^ 8 * b 93 + 2 ^ 16 * b 94 + 2 ^ 24 * b 95 ∧
    g.blocksPerLun = b 96 + 2 ^ 8 * b 97 + 2 ^ 16 * b 98 + 2 ^ 24 * b 99 ∧
    g.lunCount = b 100 ∧
    g.bitsPerCell = pp.getD 102 0x00#8 ∧
    g.idString = (List.range 20).map (fun k => pp.getD (44 + k) 0x00#8) ∧
    g.manufacturerId = pp.getD 64 0x00#8

/-- The derived geometry registers (R195 to R201), and when the candidate geometry is valid (R202). -/
def Obligations.DerivedRegistersAndValidity : Prop :=
  ∀ (c : Config.Params) (pp : List Byte),
    let g := parseGeometry c pp
    g.blockCount = g.blocksPerLun * g.lunCount ∧ g.pageCount = g.blockCount * g.pagesPerBlock ∧
    g.rawPageSize = g.pageSize + g.oobSize ∧ g.blockSize = g.pagesPerBlock * g.rawPageSize ∧
    g.chipSizeMB = g.pageCount * g.rawPageSize / 2 ^ 20 ∧ g.addressCycleCount = 5 ∧
    g.largePage = (if c.forceLegacy then false else true) ∧
    (geometryValid g = true ↔ 0 < g.pageSize ∧ 0 < g.pagesPerBlock ∧ 0 < g.blocksPerLun ∧ 0 < g.lunCount ∧
      (g.largePage = false → g.pageSize % 2 = 0))

/-! ## Refusals at acceptance -/

/-- While the session is aborted, every operation except COMPUTE_BER gets the cause as its response, and nothing else
changes (R346, R353). -/
def Obligations.AbortedSessionAnswersItsCause : Prop :=
  ∀ (s : State) (c : AbortCause) (i : Instr), s.seq = none → s.abortCause = some c → i.isOperation = true →
    (∀ f x y, i ≠ .computeBer f x y) → exec i s = .next (s.responded { code := c.result })

/-- Before identification, every operation except IDENTIFY and COMPUTE_BER gets NOT_IDENTIFIED, and nothing else changes
(R350). -/
def Obligations.UnidentifiedEngineRefuses : Prop :=
  ∀ (s : State) (i : Instr), s.seq = none → s.abortCause = none → s.idState ≠ .ready → i.isOperation = true →
    (∀ f, i ≠ .identify f) → (∀ f x y, i ≠ .computeBer f x y) →
    exec i s = .next (s.responded { code := .notIdentified })

/-- A request with an undefined flag bit set gets INVALID_ARGUMENT before any transaction (R82): bit 0 is defined for
READ_PAGE and SEQ_READ_BLOCK, bit 1 for SEQ_READ_BLOCK, and no other bit of any operation. IDENTIFY is refused so before
identification too, and COMPUTE_BER in every idle state: they skip the state checks of R353 that do not apply to them. -/
def Obligations.UndefinedFlagBitsAreRefused : Prop :=
  (∀ (s : State) (f : Byte), s.seq = none → f ≠ 0x00#8 →
    (s.abortCause = none → exec (.identify f) s = .next (s.responded { code := .invalidArgument })) ∧
    (∀ x y, exec (.computeBer f x y) s = .next (s.responded { code := .invalidArgument }))) ∧
  ∀ (s : State) (g : Geometry) (f : Byte), s.ReadyWith g →
    (f ≠ 0x00#8 → ∀ (a b : Arg) (x y : List Byte) (xs : List (List Byte)),
      ∀ i ∈ [Instr.identify f, .writePage f a x, .writePages f a xs, .eraseBlock f a, .eraseRange f a b,
        .scanBadBlocks f, .getFeature f a, .setFeature f a x, .computeBer f x y],
        exec i s = .next (s.responded { code := .invalidArgument })) ∧
    (f &&& 0xFE#8 ≠ 0x00#8 → ∀ a, exec (.readPage f a) s = .next (s.responded { code := .invalidArgument })) ∧
    (f &&& 0xFC#8 ≠ 0x00#8 → ∀ a, exec (.seqReadBlock f a) s = .next (s.responded { code := .invalidArgument }))

/-- A page or block index outside the device gets INVALID_ARGUMENT with the index, before any transaction (R129). -/
def Obligations.OutOfRangeIndexIsRefused : Prop :=
  ∀ (s : State) (g : Geometry) (a : Arg), s.ReadyWith g →
    (g.pageCount ≤ a.toNat →
      (∀ f, f &&& 0xFE#8 = 0x00#8 →
        exec (.readPage f a) s = .next (s.responded { code := .invalidArgument, index := some (field40 a.toNat) })) ∧
      (∀ x, exec (.writePage 0x00#8 a x) s =
        .next (s.responded { code := .invalidArgument, index := some (field40 a.toNat) })) ∧
      (∀ xs, exec (.writePages 0x00#8 a xs) s =
        .next (s.responded { code := .invalidArgument, index := some (field40 a.toNat) }))) ∧
    (g.blockCount ≤ a.toNat →
      exec (.eraseBlock 0x00#8 a) s = .next (s.responded { code := .invalidArgument, index := some (field40 a.toNat) }) ∧
      (∀ b : Arg, b.toNat ≤ a.toNat → exec (.eraseRange 0x00#8 b a) s =
        .next (s.responded { code := .invalidArgument, index := some (field40 a.toNat) })) ∧
      (∀ f, f &&& 0xFC#8 = 0x00#8 → exec (.seqReadBlock f a) s =
        .next (s.responded { code := .invalidArgument, index := some (field40 a.toNat) })))

/-- The other argument checks of the page and block operations, in the order their rules list them (R230, R239, R264, R280,
R284). -/
def Obligations.BadArgumentsAreRefused : Prop :=
  ∀ (s : State) (g : Geometry) (a : Arg), s.ReadyWith g →
    (∀ x : List Byte, a.toNat < g.pageCount → x.length ≠ g.rawPageSize → exec (.writePage 0x00#8 a x) s =
      .next (s.responded { code := .invalidArgument, count := some (field40 x.length) })) ∧
    (∀ xs : List (List Byte), a.toNat < g.pageCount →
      (a.toNat % g.pagesPerBlock ≠ 0 → exec (.writePages 0x00#8 a xs) s =
        .next (s.responded { code := .invalidArgument, index := some (field40 a.toNat) })) ∧
      (a.toNat % g.pagesPerBlock = 0 → g.oobSize = 0 → exec (.writePages 0x00#8 a xs) s =
        .next (s.responded { code := .invalidArgument })) ∧
      (∀ k : Nat, a.toNat % g.pagesPerBlock = 0 → 0 < g.oobSize → k < xs.length →
        (xs.getD k []).length ≠ g.rawPageSize → (∀ j < k, (xs.getD j []).length = g.rawPageSize) →
        exec (.writePages 0x00#8 a xs) s =
          .next (s.responded { code := .invalidArgument, index := some (field40 k) }))) ∧
    (∀ b : Arg, b.toNat < a.toNat → exec (.eraseRange 0x00#8 a b) s =
      .next (s.responded { code := .invalidArgument, index := some (field40 a.toNat) })) ∧
    (g.oobSize = 0 → exec (.scanBadBlocks 0x00#8) s = .next (s.responded { code := .invalidArgument })) ∧
    (∀ f, f &&& 0xFC#8 = 0x00#8 → a.toNat < g.blockCount → g.oobSize < 6 → exec (.seqReadBlock f a) s =
      .next (s.responded { code := .invalidArgument }))

/-- The feature entry checks, in order, the state checks first (R312). -/
def Obligations.FeatureEntryChecks : Prop :=
  ∀ (s : State) (a : Arg) (v : List Byte) (f : Byte), s.seq = none →
    ∀ i ∈ [Instr.getFeature f a, .setFeature f a v],
      (∀ c, s.abortCause = some c → exec i s = .next (s.responded { code := c.result })) ∧
      (s.abortCause = none → s.idState ≠ .ready → exec i s = .next (s.responded { code := .notIdentified })) ∧
      (s.abortCause = none → s.idState = .ready →
        (f ≠ 0x00#8 → exec i s = .next (s.responded { code := .invalidArgument })) ∧
        (f = 0x00#8 → 0xFF < a.toNat →
          exec i s = .next (s.responded { code := .invalidArgument, index := some (field40 a.toNat) })) ∧
        (f = 0x00#8 → a.toNat ≤ 0xFF → i = .setFeature f a v → v.length ≠ 4 →
          exec i s = .next (s.responded { code := .invalidArgument, count := some (field40 v.length) })))

/-! ## COMPUTE_BER -/

/-- COMPUTE_BER in every engine state, aborted or unidentified too (R333): its entry checks in order (R331), and the number
of differing bytes with the length (R330); no transaction, nothing else changes. -/
def Obligations.ComputeBerCountsDifferingBytes : Prop :=
  ∀ (s : State) (f : Byte) (x y : List Byte), s.seq = none →
    exec (.computeBer f x y) s = .next (s.responded
      (if f ≠ 0x00#8 then { code := .invalidArgument }
       else if x.length ≠ y.length then { code := .invalidArgument, count := some (field40 x.length) }
       else if x.length = 0 then { code := .invalidArgument }
       else { code := .ok, ber := some ((x.zip y).countP (fun p => p.1 != p.2), x.length) }))

/-- The laws of R332, and its example. -/
def Obligations.ComputeBerLaws : Prop :=
  ∀ (s : State) (x y : List Byte), s.seq = none → 0 < x.length →
    exec (.computeBer 0x00#8 x x) s = .next (s.responded { code := .ok, ber := some (0, x.length) }) ∧
    exec (.computeBer 0x00#8 x (x.map (fun b => b ^^^ 0xFF#8))) s =
      .next (s.responded { code := .ok, ber := some (x.length, x.length) }) ∧
    (x.length = y.length → exec (.computeBer 0x00#8 x y) s = exec (.computeBer 0x00#8 y x) s) ∧
    exec (.computeBer 0x00#8 [0x00#8, 0x11#8, 0x22#8, 0x33#8] [0x00#8, 0x10#8, 0x22#8, 0x00#8]) s =
      .next (s.responded { code := .ok, ber := some (2, 4) })

/-! ## Transactions -/

/-- Each of the 13 NAND commands (`nandRead`, `nandRead1`, `nandReadStart`, `nandReadOob`, `nandSeqin`, `nandPageprog`,
`nandGetStatus`, `nandEraseSetup`, `nandEraseConfirm`, `nandReadId`, `nandReadParamPage`, `nandGetFeatures`,
`nandSetFeatures`) is one command-latch transaction with its byte (R141): answered ok where the sequencer stands at it, the
sequencer goes on with the rest of the program (`settle`); where that starts with a transaction it stands there, and nothing
else changes. -/
def Obligations.NandCommandIsOneCommandLatch : Prop :=
  ∀ (s : State) (q : Seq) (b : Byte) (i : Instr) (rest : List Item) (as : List Answer),
    i.isOperation = false → encode i = .command b → s.seq = some q → q.todo = .cmd b :: rest → s.answers = .ok :: as →
    exec i s = .next (settle (s.after as [okEvent (.cmd b)]) q rest) ∧
    (∀ it rest', rest = it :: rest' → it.isTransaction = true →
      exec i s = .next { s.after as [okEvent (.cmd b)] with seq := some { q with todo := it :: rest' } })

/-- A NAND command executed with no operation in progress (the model's reading of a table row alone, log 7): one
transaction, and an absent answer aborts the session without a response. -/
def Obligations.NandCommandWithoutAnOperation : Prop :=
  ∀ (s : State) (b : Byte) (i : Instr) (a : Answer) (as : List Answer), i.isOperation = false →
    encode i = .command b → s.seq = none → s.answers = a :: as →
    exec i s = .next (if a = Answer.ok then s.after as [okEvent (.cmd b)]
      else (s.after as [{ transaction := .cmd b, answer := some a }]).aborted false .deviceAbsent)

/-- An address latch, a non-empty `DataOut` or a `Mark` answered ok, and a `Delay`: one transaction is added to the trace, of
the rest only the lines `Mark` drives change, and the sequencer goes on with the rest of the program (R142, R143, R146).
What going on (`settle`) comes to where no computation stands between: at a transaction the sequencer stands there, and at
the end of the program the operation's response is posted (R394). -/
def Obligations.PlainTransactionsGoOn : Prop :=
  ∀ (s : State) (q : Seq) (rest : List Item),
    (s.resetInput = false → s.seq = some q →
      (∀ b as, q.todo = .addr b :: rest → s.answers = .ok :: as →
        step s = .next (settle (s.after as [okEvent (.addr b)]) q rest)) ∧
      (∀ d as, q.todo = .dataOut d :: rest → d ≠ [] → s.answers = .ok :: as →
        step s = .next (settle (s.after as [okEvent (.dataOut d)]) q rest)) ∧
      (∀ m as, q.todo = .mark m :: rest → s.answers = .ok :: as →
        step s = .next (settle
          { s.after as [okEvent (.mark m)] with
            markLines := some (match m with | .atBegin => s.cfg.seqMarkBegin | .atEnd => s.cfg.seqMarkEnd) } q rest)) ∧
      (q.todo = .delay :: rest →
        step s = .next (settle
          (s.after s.answers [{ transaction := .delay s.cfg.featureSettleDelay, answer := none }]) q rest))) ∧
    (∀ it rest', rest = it :: rest' → it.isTransaction = true →
      settle s q rest = { s with seq := some { q with todo := it :: rest' } }) ∧
    (rest = [] → settle s q rest = s.responded (okResponse s q))

/-- An answer that does not complete its transaction (absent, of another kind, or a read of another length) ends the
operation with DEVICE_ABSENT (R147, R345, R395): outside a guard the session aborts (R346) and the response is posted;
inside a guard only the write-protect restore is still to be sent. Which context the response carries, for every operation:
the page, block or feature address in `index` (R340), the buffers written and the blocks skipped for WRITE_PAGES (R238), the
blocks erased before for ERASE_RANGE (R265), nothing for IDENTIFY and SCAN_BAD_BLOCKS. The model's readings: an answer of
another kind counts as absent (log 3), an unanswered `Mark` leaves the lines unknown (log 13), the context (log 15), and
inside a guard the abort waits for the restore (log 16). -/
def Obligations.AbsentAnswerEndsTheOperation : Prop :=
  (∀ (q : Seq) (c : ResultCode) (f : Byte) (a b : Arg) (x : List Byte) (xs : List (List Byte)),
    (∀ i ∈ [Instr.readPage f a, .writePage f a x, .eraseBlock f a, .seqReadBlock f a, .getFeature f a, .setFeature f a x],
      q.op = i → errorResponse q c = { code := c, index := some (field40 a.toNat) }) ∧
    (q.op = .writePages f a xs →
      errorResponse q c = { code := c, count := some (field40 q.cursor), list := some (.blocks q.blocks) }) ∧
    (q.op = .eraseRange f a b → errorResponse q c = { code := c, list := some (.statuses q.statuses) }) ∧
    (∀ i ∈ [Instr.identify f, .scanBadBlocks f], q.op = i → errorResponse q c = { code := c })) ∧
  ∀ (s : State) (q : Seq) (it : Item) (rest : List Item) (t : Transaction) (a : Answer) (as : List Answer),
    s.resetInput = false → s.seq = some q → q.todo = it :: rest → it.commandsKnown = true → it ≠ .guardOpen →
    it.transaction s.cfg = some t → t.acceptedBy a = false → s.answers = a :: as →
    let s' := { s.after as [{ transaction := t, answer := some a }] with
                markLines := markLinesAfter s.cfg s.markLines [{ transaction := t, answer := some a }] }
    step s = .next (match q.saved with
      | none => (s'.aborted (isIdentify q.op) .deviceAbsent).responded (errorResponse q .deviceAbsent)
      | some _ => { s' with seq := some { q with todo := [.guardClose],
                                                 pending := some (errorResponse q .deviceAbsent) } })

/-- `ReadData(n)` whose every transaction is answered with the number of bytes asked for: as many steps as transactions, and
the useful bytes, exactly n, are appended to the read buffer (R149), with which the sequencer goes on. -/
def Obligations.ReadDataReturnsItsBytes : Prop :=
  ∀ (s : State) (q : Seq) (n : Nat) (rest : List Item) (t : Talk) (d : List Byte) (as : List Answer),
    s.resetInput = false → s.seq = some q → q.todo = .readData n :: rest → 0 < n →
    Reads s.cfg n t d → s.answers = t.answers ++ as →
    d.length = n ∧
    Runs t.events.length s (settle (s.after as t.events) { q with buf := q.buf ++ d } rest) ∧
    (∀ it rest', rest = it :: rest' → it.isTransaction = true →
      Runs t.events.length s
        { s.after as t.events with seq := some { q with todo := it :: rest', buf := q.buf ++ d } })

/-- The transactions of `ReadData(n)` (R150). -/
def Obligations.ReadDataChunks : Prop :=
  ∀ (c : Config.Params) (n : Nat) (raws : List (List Byte)) (d : List Byte), Replies c n raws d →
    (c.slowMode = false → raws.map List.length =
      List.replicate (n / 4096) 4096 ++ (if 0 < n % 4096 then [n % 4096] else [])) ∧
    (c.slowMode = true → raws.map List.length =
      List.replicate (n / 2048) 4096 ++ (if 0 < n % 2048 then [2 * (n % 2048)] else []))

/-- Slow mode doubles the read cycles and keeps the byte at each even index (R151); otherwise the reply is kept as it is. -/
def Obligations.SlowModeKeepsTheEvenBytes : Prop :=
  ∀ (c : Config.Params) (n : Nat) (raw : List Byte),
    (c.slowMode = true → chunkCycles c n = 2 * chunkSize c n ∧
      (raw.length = chunkCycles c n → (usefulBytes c raw).length = chunkSize c n ∧
        ∀ k < chunkSize c n, (usefulBytes c raw)[k]? = raw[2 * k]?)) ∧
    (c.slowMode = false → chunkCycles c n = chunkSize c n ∧ usefulBytes c raw = raw)

/-- `WaitReady` (R152, R153): it returns after the first poll that answers true, whatever the program goes on with (a
transaction, a computation, or nothing); when READY_POLL_LIMIT polls have answered false it raises TIMEOUT without a further
poll (R343, R345, R346). The context of the TIMEOUT (`errorResponse`, written out in AbsentAnswerEndsTheOperation) is the
model's reading, log 15, and so is that inside a guard the abort waits for the restore, log 16. -/
def Obligations.WaitReadyIsBounded : Prop :=
  ∀ (s : State) (q : Seq) (rest : List Item) (j : Nat) (as : List Answer), s.resetInput = false →
    s.seq = some q → q.todo = .waitReady :: rest →
    (q.poll + j < s.cfg.readyPollLimit → s.answers = pollAnswers j ++ as →
      Runs (j + 1) s (settle (s.after as (pollEvents (pollAnswers j))) { q with poll := 0 } rest)) ∧
    (∀ it rest', rest = it :: rest' → it.isTransaction = true → q.poll + j < s.cfg.readyPollLimit →
      s.answers = pollAnswers j ++ as →
      Runs (j + 1) s { s.after as (pollEvents (pollAnswers j)) with
        seq := some { q with todo := it :: rest', poll := 0 } }) ∧
    (0 < j → q.poll + j = s.cfg.readyPollLimit → s.answers = List.replicate j (.ready false) ++ as →
      let s' := s.after as (pollEvents (List.replicate j (.ready false)))
      Runs j s (match q.saved with
        | none => (s'.aborted (isIdentify q.op) .timeout).responded (errorResponse q .timeout)
        | some _ => { s' with seq := some { q with todo := [.guardClose], poll := s.cfg.readyPollLimit - 1,
                                                   pending := some (errorResponse q .timeout) } }))

/-- The entry of the write-enable guard (R157): answered ok, the flag is 0 and the line at the level that allows writes;
else the body is not run and the restore is still issued. The model's readings: any answer but ok counts as absent (log 3),
the line's level is then unknown (log 13), the context of the response waiting (log 15), and that the abort waits for the
restore (log 16). -/
def Obligations.GuardOpens : Prop :=
  ∀ (s : State) (q : Seq) (rest : List Item) (a : Answer) (as : List Answer), s.resetInput = false →
    s.seq = some q → q.todo = .guardOpen :: rest → s.answers = a :: as →
    (∀ it rest', rest = it :: rest' → it.isTransaction = true → a = .ok →
      step s = .next { s.after as [okEvent (.setWP false)] with
        wpProtect := false, wpLine := some (!s.cfg.wpProtectLevel)
        seq := some { q with todo := it :: rest', saved := some s.wpProtect } }) ∧
    (a ≠ .ok → step s = .next { s.after as [{ transaction := .setWP false, answer := some a }] with
        wpLine := none
        seq := some { q with todo := [.guardClose], saved := some s.wpProtect,
                             pending := some (errorResponse q .deviceAbsent) } })

/-- The exit of the write-enable guard (R157): the flag takes the saved value whatever the answer; an earlier error is kept
and posted (R345); without one an absent restore raises DEVICE_ABSENT, and an answered one lets the operation go on,
whatever its program goes on with: a transaction, the computation after a page or a block, or nothing. The model's readings:
any answer but ok counts as absent (log 3) and leaves the line unknown (log 13), the flag changes in the restore's step
(log 14), the context of DEVICE_ABSENT (log 15), and that the abort runs in the restore's step (log 16). -/
def Obligations.GuardCloses : Prop :=
  ∀ (s : State) (q : Seq) (rest : List Item) (p : Bool) (a : Answer) (as : List Answer), s.resetInput = false →
    s.seq = some q → q.todo = .guardClose :: rest → q.saved = some p → s.answers = a :: as →
    let s' := { s.after as [{ transaction := .setWP p, answer := some a }] with
                wpProtect := p
                wpLine := if a = Answer.ok then some (if p then s.cfg.wpProtectLevel else !s.cfg.wpProtectLevel) else none }
    (∀ r, q.pending = some r → step s = .next ((match protocolError r.code with
      | some c => s'.aborted (isIdentify q.op) c
      | none => s').responded r)) ∧
    (q.pending = none → a ≠ .ok →
      step s = .next ((s'.aborted (isIdentify q.op) .deviceAbsent).responded (errorResponse q .deviceAbsent))) ∧
    (q.pending = none → a = .ok → step s = .next (settle s' { q with saved := none, pending := none } rest)) ∧
    (∀ it rest', q.pending = none → a = .ok → rest = it :: rest' → it.isTransaction = true →
      step s = .next { s' with seq := some { q with todo := it :: rest', saved := none } })

/-! ## Operations from acceptance to response -/

/-- IDENTIFY on a device that answers with the signature and a valid geometry (R180, R182 to R185, R203): the frame, the
geometry registers, the identification bytes and the response. It runs from Uninitialized and from Ready (R205). -/
def Obligations.IdentifySucceeds : Prop :=
  ∀ (s : State) (ids pp : List Byte) (t₁ t₂ w t₃ : Talk) (rest : List Answer), s.resetInput = false →
    s.seq = none → s.abortCause = none → Reads s.cfg 8 t₁ ids → Reads s.cfg 4 t₂ [0x4F#8, 0x4E#8, 0x46#8, 0x49#8] →
    Waits s.cfg w → Reads s.cfg 256 t₃ pp → pp.take 4 = [0x4F#8, 0x4E#8, 0x46#8, 0x49#8] →
    geometryValid (parseGeometry s.cfg pp) = true →
    let t := Talk.join [.sends [.cmd 0x90#8, .addr 0x00#8], t₁, .sends [.cmd 0x90#8, .addr 0x20#8], t₂,
      .sends [.cmd 0xEC#8, .addr 0x00#8], w, t₃]
    s.answers = t.answers ++ rest →
    Completes (.identify 0x00#8) t.events.length s
      ({ s.after rest t.events with
          idState := .ready, geom := some (parseGeometry s.cfg pp), idBytes := some ids }.responded
        { code := .ok, geometry := some (parseGeometry s.cfg pp), data := some ids })

/-- IDENTIFY on a device without the signature, at READ-ID 0x20 or in the parameter page, or with an invalid geometry: it
fails, and the session aborts (R183, R185, R202, R204). -/
def Obligations.IdentifyFails : Prop :=
  ∀ (s : State) (ids sig : List Byte) (t₁ t₂ : Talk) (rest : List Answer), s.resetInput = false → s.seq = none →
    s.abortCause = none → Reads s.cfg 8 t₁ ids → Reads s.cfg 4 t₂ sig →
    let probes := Talk.join [.sends [.cmd 0x90#8, .addr 0x00#8], t₁, .sends [.cmd 0x90#8, .addr 0x20#8], t₂]
    (sig ≠ [0x4F#8, 0x4E#8, 0x46#8, 0x49#8] → s.answers = probes.answers ++ rest →
      Completes (.identify 0x00#8) probes.events.length s
        (({ s.after rest probes.events with idBytes := some ids }.aborted true .identificationFailed).responded
          { code := .identificationFailed })) ∧
    (∀ (w t₃ : Talk) (pp : List Byte), sig = [0x4F#8, 0x4E#8, 0x46#8, 0x49#8] → Waits s.cfg w →
      Reads s.cfg 256 t₃ pp →
      pp.take 4 ≠ [0x4F#8, 0x4E#8, 0x46#8, 0x49#8] ∨ geometryValid (parseGeometry s.cfg pp) = false →
      let t := Talk.join [probes, .sends [.cmd 0xEC#8, .addr 0x00#8], w, t₃]
      s.answers = t.answers ++ rest →
      Completes (.identify 0x00#8) t.events.length s
        (({ s.after rest t.events with idBytes := some ids }.aborted true .identificationFailed).responded
          { code := .identificationFailed }))

/-- READ_PAGE in both modes, with and without the spare area (R210 to R214): the frame, and a response with the page's bytes,
of the length asked for; nothing else changes. -/
def Obligations.ReadPageReturnsThePage : Prop :=
  ∀ (s : State) (g : Geometry) (f : Byte) (p : Arg) (t : Talk) (d : List Byte) (rest : List Answer), Inv s →
    s.ReadyWith g → f &&& 0xFE#8 = 0x00#8 → p.toNat < g.pageCount →
    ReadsPage s.cfg g p.toNat (f.getLsbD 0) t d → s.answers = t.answers ++ rest →
    d.length = (if f.getLsbD 0 then g.rawPageSize else g.pageSize) ∧
    Completes (.readPage f p) t.events.length s
      ((s.after rest t.events).responded { code := .ok, index := some (field40 p.toNat), data := some d })

/-- WRITE_PAGE in both modes whose every part is programmed within the retry limit (R230 to R236): inside one guard, with
the status byte of the last attempt; afterwards the device is protected again and nothing else has changed. -/
def Obligations.WritePageSucceeds : Prop :=
  ∀ (s : State) (g : Geometry) (p : Arg) (buf : List Byte) (t : Talk) (st : Byte) (rest : List Answer), Inv s →
    s.ReadyWith g → p.toNat < g.pageCount → buf.length = g.rawPageSize → WritesPage s.cfg g p.toNat buf t st →
    s.answers = t.answers ++ rest →
    Completes (.writePage 0x00#8 p buf) t.events.length s
      ({ s.after rest t.events with wpLine := some s.cfg.wpProtectLevel }.responded
        { code := .ok, index := some (field40 p.toNat), status := some st })

/-- WRITE_PAGE one of whose parts fails `1 + PROGRAM_RETRY_LIMIT` times (R235, R236, R344): PROGRAM_FAILURE with the page
and the last status byte, after the write-protect restore; the session goes on. -/
def Obligations.WritePageFailsAfterItsRetries : Prop :=
  ∀ (s : State) (g : Geometry) (p : Arg) (buf : List Byte) (t : Talk) (st : Byte) (rest : List Answer), Inv s →
    s.ReadyWith g → p.toNat < g.pageCount → buf.length = g.rawPageSize → PageWriteFails s.cfg g p.toNat buf t st →
    s.answers = t.answers ++ rest →
    Completes (.writePage 0x00#8 p buf) t.events.length s
      ({ s.after rest t.events with wpLine := some s.cfg.wpProtectLevel }.responded
        { code := .programFailure, index := some (field40 p.toNat), status := some st })

/-- ERASE_BLOCK (R260 to R263): one erase inside one guard, and the status byte decides between OK and ERASE_FAILURE. -/
def Obligations.EraseBlockReportsTheStatus : Prop :=
  ∀ (s : State) (g : Geometry) (b : Arg) (t : Talk) (st : Byte) (rest : List Answer), Inv s → s.ReadyWith g →
    b.toNat < g.blockCount → Erases s.cfg g b.toNat t st → s.answers = t.answers ++ rest →
    Completes (.eraseBlock 0x00#8 b) t.events.length s
      ({ s.after rest t.events with wpLine := some s.cfg.wpProtectLevel }.responded
        { code := if st &&& 0x01#8 = 0x00#8 then ResultCode.ok else .eraseFailure, index := some (field40 b.toNat),
          status := some st })

/-- ERASE_RANGE (R264): every block is erased, each inside its own guard, and reported; the first failing one, if any, makes
the response ERASE_FAILURE. -/
def Obligations.EraseRangeReportsEveryBlock : Prop :=
  ∀ (s : State) (g : Geometry) (b₀ b₁ : Arg) (sts : List Byte) (t : Talk) (rest : List Answer), Inv s →
    s.ReadyWith g → b₀.toNat ≤ b₁.toNat → b₁.toNat < g.blockCount → sts.length = b₁.toNat - b₀.toNat + 1 →
    ErasesFrom s.cfg g b₀.toNat sts t → s.answers = t.answers ++ rest →
    Completes (.eraseRange 0x00#8 b₀ b₁) t.events.length s
      ({ s.after rest t.events with wpLine := some s.cfg.wpProtectLevel }.responded
        (match (erasePairs b₀.toNat sts).find? (fun p : Nat × Byte => p.2 &&& 0x01#8 != 0x00#8) with
          | none => { code := .ok, list := some (.statuses (erasePairs b₀.toNat sts)) }
          | some (b, st) => { code := .eraseFailure, index := some (field40 b), status := some st,
                              list := some (.statuses (erasePairs b₀.toNat sts)) }))

/-- SCAN_BAD_BLOCKS (R280 to R282): the first page of every block is read with its spare area, and the blocks whose marker
is not 0xFF are returned in ascending order; nothing else changes. -/
def Obligations.ScanReturnsTheBadBlocks : Prop :=
  ∀ (s : State) (g : Geometry) (pages : List (List Byte)) (t : Talk) (rest : List Answer), Inv s → s.ReadyWith g →
    1 ≤ g.oobSize → pages.length = g.blockCount → ScansFrom s.cfg g 0 pages t → s.answers = t.answers ++ rest →
    Completes (.scanBadBlocks 0x00#8) t.events.length s
      ((s.after rest t.events).responded
        { code := .ok, list := some (.blocks (badFrom g.pageSize 0 pages)) })

/-- SEQ_READ_BLOCK (R284 to R289): one command and address, every page of the block streamed, BEGIN and END around it; a bad
marker in page 0 or 1 without raw mode gives BAD_BLOCK with no data, else all the pages' bytes are returned. -/
def Obligations.SeqReadIsAllOrNothing : Prop :=
  ∀ (s : State) (g : Geometry) (f : Byte) (b : Arg) (pages : List (List Byte)) (w tp : Talk) (rest : List Answer),
    Inv s → s.ReadyWith g → f &&& 0xFC#8 = 0x00#8 → b.toNat < g.blockCount → 6 ≤ g.oobSize →
    pages.length = g.pagesPerBlock → Waits s.cfg w → ReadsOn s.cfg g pages tp →
    let t := Talk.join [.sends (.mark .atBegin ::
      commandAndAddress 0x00#8 (pageAddressBytes g (b.toNat * g.pagesPerBlock))), w, tp, .sends [.mark .atEnd]]
    s.answers = t.answers ++ rest →
    let bad := (pages.take 2).any (fun d => d[g.pageSize + 5]? != some 0xFF#8)
    let data := pages.flatMap (fun d => if f.getLsbD 0 then d else d.take g.pageSize)
    data.length = g.pagesPerBlock * (if f.getLsbD 0 then g.rawPageSize else g.pageSize) ∧
    Completes (.seqReadBlock f b) t.events.length s
      ({ s.after rest t.events with markLines := some s.cfg.seqMarkEnd }.responded
        (if bad = true ∧ f.getLsbD 1 = false then
          { code := .badBlock, index := some (field40 b.toNat), markerBad := some true, data := some [] }
         else { code := .ok, index := some (field40 b.toNat), markerBad := some bad, data := some data }))

/-- WRITE_PAGES follows the loop of R238 on every device whose transactions are all answered: bad blocks are skipped whole
(R240, R241), good ones erased first where the configuration says so, each buffer goes to the next page, and it ends with
OK, or with the first PROGRAM_FAILURE, ERASE_FAILURE or CAPACITY_EXHAUSTED (R243, R244). -/
def Obligations.WritePagesFollowsTheLoop : Prop :=
  ∀ (s : State) (g : Geometry) (p : Arg) (bufs : List (List Byte)) (t : Talk) (r : Response) (rest : List Answer),
    Inv s → s.ReadyWith g → p.toNat < g.pageCount → p.toNat % g.pagesPerBlock = 0 → 1 ≤ g.oobSize →
    (∀ b ∈ bufs, b.length = g.rawPageSize) → BulkWrites s.cfg g bufs p.toNat 0 [] t r →
    s.answers = t.answers ++ rest →
    Completes (.writePages 0x00#8 p bufs) t.events.length s
      ({ s.after rest t.events with wpLine := wpLineAfter s.cfg s.wpLine t.events }.responded r)

/-- GET_FEATURE (R310): command, address, settle delay, four bytes, returned unchanged; nothing else changes. -/
def Obligations.GetFeatureReturnsTheValue : Prop :=
  ∀ (s : State) (g : Geometry) (a : Arg) (r : Talk) (v : List Byte) (rest : List Answer), s.ReadyWith g →
    a.toNat ≤ 0xFF → Reads s.cfg 4 r v →
    let t := Talk.join [.sends [.cmd 0xEE#8, .addr (BitVec.ofNat 8 a.toNat)], .delay s.cfg, r]
    s.answers = t.answers ++ rest →
    Completes (.getFeature 0x00#8 a) t.events.length s
      ((s.after rest t.events).responded { code := .ok, index := some (field40 a.toNat), data := some v })

/-- SET_FEATURE (R311): command, address, settle delay, the four bytes unchanged; nothing else changes. -/
def Obligations.SetFeatureSendsTheValue : Prop :=
  ∀ (s : State) (g : Geometry) (a : Arg) (v : List Byte) (rest : List Answer), s.ReadyWith g → a.toNat ≤ 0xFF →
    v.length = 4 →
    let t := Talk.join [.sends [.cmd 0xEF#8, .addr (BitVec.ofNat 8 a.toNat)], .delay s.cfg, .sends [.dataOut v]]
    s.answers = t.answers ++ rest →
    Completes (.setFeature 0x00#8 a v) t.events.length s
      ((s.after rest t.events).responded { code := .ok, index := some (field40 a.toNat) })

/-! ## The whole machine -/

/-- The state after reset satisfies the invariant. -/
def Obligations.ResetSatisfiesTheInvariant : Prop := Inv State.reset

/-- Every step keeps the invariant, from every state that has it, whatever the transport answers and the caller asks. -/
def Obligations.EveryStepKeepsTheInvariant : Prop := ∀ s t : State, Inv s → step s = .next t → Inv t

/-- No state with the invariant stops: the engine sends no command byte outside R87 to R93 (R96), and no request, answer or
error stops it (R355). -/
def Obligations.TheEngineNeverStops : Prop := ∀ s : State, Inv s → ∃ t, step s = .next t

/-- A step completes at most one transaction, the oldest waiting answer goes to it (R33, R72), and the lines are driven by
`SetWP` and `Mark` alone (R146); a `Delay` takes no answer. That a `SetWP` or `Mark` not answered ok leaves its line unknown
is the model's reading, log 13. -/
def Obligations.OneTransactionAStep : Prop :=
  ∀ s t : State, s.resetInput = false → step s = .next t →
    ∃ es : List Event, t.trace = s.trace ++ es ∧
      ((es = [] ∧ t.answers = s.answers) ∨
       (∃ tr a, es = [{ transaction := tr, answer := some a }] ∧ s.answers = a :: t.answers) ∨
       (es = [{ transaction := .delay s.cfg.featureSettleDelay, answer := none }] ∧ t.answers = s.answers)) ∧
      t.wpLine = wpLineAfter s.cfg s.wpLine es ∧ t.markLines = markLinesAfter s.cfg s.markLines es

/-- The identification state moves only along the edges of R181. -/
def Obligations.IdentificationStateMachine : Prop :=
  ∀ s t : State, Inv s → s.resetInput = false → step s = .next t → s.idState ≠ t.idState →
    (s.idState, t.idState) ∈ [(IdState.uninitialized, IdState.probeId), (.ready, .probeId), (.probeId, .probeOnfi),
      (.probeOnfi, .parseParameterPage), (.parseParameterPage, .ready), (.probeId, .failed), (.probeOnfi, .failed),
      (.parseParameterPage, .failed)]

/-- Only IDENTIFY, accepted or in progress, writes the geometry registers (R26), the identification state (R22) and the
identification bytes (R29); and it writes the geometry only as a whole: it loses its value, or takes one from nothing
together with the state Ready. That the accepted request is the oldest one waiting is the model's choice, log 4. -/
def Obligations.OnlyIdentifyWritesTheGeometry : Prop :=
  ∀ s t : State, Inv s → s.resetInput = false → step s = .next t →
    (t.geom ≠ s.geom ∨ t.idState ≠ s.idState ∨ t.idBytes ≠ s.idBytes →
      (∃ q, s.seq = some q ∧ isIdentify q.op = true) ∨
      (s.seq = none ∧ ∃ r rs f, s.requests = r :: rs ∧ decodeRequest r = .ok (.identify f))) ∧
    (t.geom = s.geom ∨ t.geom = none ∨ (s.geom = none ∧ t.gValid = true ∧ t.idState = .ready))

/-- The abort cause is written only with the response of a protocol-level error, and only reset clears it (R23, R346). That
it is written in the very step of the response, after the restore of an open guard, is the model's reading of R345's order,
log 16. -/
def Obligations.AbortCauseIsKeptUntilReset : Prop :=
  ∀ s t : State, Inv s → s.resetInput = false → step s = .next t →
    (∀ c, s.abortCause = some c → t.abortCause = some c) ∧
    (∀ c, s.abortCause = none → t.abortCause = some c →
      ∃ r, t.responses = s.responses ++ [r] ∧ r.code = c.result)

/-- The session's parameters, `SLOW_MODE` among them, are written by no step, reset included (R31, R383; that reset keeps
them is log 12). -/
def Obligations.ParametersAreFixed : Prop := ∀ s t : State, step s = .next t → t.cfg = s.cfg

/-- An operation ends with exactly one response, posted in the step in which it ends; an idle engine posts one only when it
takes a request (R32, R355, R394), which is the oldest one waiting (the model's choice, log 4). -/
def Obligations.OneResponseEndsAnOperation : Prop :=
  ∀ s t : State, s.resetInput = false → step s = .next t →
    (s.busy = true → (t.busy = true ∧ t.responses = s.responses) ∨
      (t.busy = false ∧ ∃ r, t.responses = s.responses ++ [r])) ∧
    (s.busy = false → t = s ∨
      ∃ r, s.requests = r :: t.requests ∧
        ((t.busy = true ∧ t.responses = s.responses) ∨ (t.busy = false ∧ ∃ a, t.responses = s.responses ++ [a])))

/-- Every error response has an unfilled `data` field (R362); BAD_BLOCK, which is no error (R348), has empty data (R287). -/
def Obligations.ErrorResponsesCarryNoData : Prop :=
  ∀ (s t : State) (r : Response), Inv s → s.resetInput = false → step s = .next t →
    t.responses = s.responses ++ [r] →
    (r.code ≠ .ok → r.code ≠ .badBlock → r.data = none) ∧ (r.code = .badBlock → r.data = some [])

/-- No program or erase command is sent while the device is protected (R157, R388): SEQIN, PAGEPROG, ERASE-SETUP and
ERASE-CONFIRM leave the engine only while `S.wpProtect` is 0, which it is only inside a guard whose restore is still to
come (R30). -/
def Obligations.NoWriteCommandWhileProtected : Prop :=
  ∀ s t : State, Inv s → step s = .next t →
    (∀ b a, t.trace = s.trace ++ [{ transaction := .cmd b, answer := some a }] →
      b ∈ [0x80#8, 0x10#8, 0x60#8, 0xD0#8] → s.wpProtect = false) ∧
    (s.wpProtect = false → ∃ q, s.seq = some q ∧ q.saved = some true ∧ .guardClose ∈ q.todo)
end

