-- ==== Sys2Proof/Laws/Decode.lean ====
section
/-! SUPPORT. The fields of a packed header, and what the decoders answer (30_encoding.md R80 to R84, R87 to R96). -/

namespace Sys2Proof

variable (op f : Byte) (a b : Arg)

@[simp] theorem opField_packHeader : opField (packHeader op f a b) = op := by
  ext i hi
  simp only [opField, packHeader, BitVec.getElem_extractLsb', BitVec.getLsbD_append, Nat.zero_add]
  simp [hi]

@[simp] theorem flagsField_packHeader : flagsField (packHeader op f a b) = f := by
  ext i hi
  simp only [flagsField, packHeader, BitVec.getElem_extractLsb', BitVec.getLsbD_append]
  simp [hi, show ¬ 8 + i < 8 by omega]

@[simp] theorem arg0Field_packHeader : arg0Field (packHeader op f a b) = a := by
  ext i hi
  simp only [arg0Field, packHeader, BitVec.getElem_extractLsb', BitVec.getLsbD_append]
  simp [hi, show ¬ 16 + i < 8 by omega, show ¬ 16 + i - 8 < 8 by omega, show 16 + i - 8 - 8 = i by omega]

@[simp] theorem arg1Field_packHeader : arg1Field (packHeader op f a b) = b := by
  ext i hi
  simp only [arg1Field, packHeader, BitVec.getElem_extractLsb', BitVec.getLsbD_append]
  simp [hi, show ¬ 48 + i < 8 by omega, show ¬ 48 + i - 8 < 8 by omega, show ¬ 48 + i - 8 - 8 < 32 by omega,
    show 48 + i - 8 - 8 - 32 = i by omega]

/-- A command byte decodes exactly to the instruction whose byte it is (R87 to R93). -/
theorem decodeCommand_eq_ok {b : Byte} {i : Instr} (h : decodeCommand b = .ok i) : (b, i) ∈ commandTable := by
  unfold decodeCommand at h
  split at h
  · rename_i j hj
    obtain rfl : j = i := by simpa using h
    obtain ⟨l₁, l₂, heq, -⟩ := List.lookup_eq_some_iff.mp hj
    rw [heq]
    simp
  · simp at h

end Sys2Proof
end

