-- ==== Sys2Proof/Laws/Operands.lean ====
section
/-! SUPPORT. Small lemmas of the operand forms: address cycles, little-endian values, slices, doubled reads. -/

namespace Sys2Proof.Machine

/-- A value that fits stands in its response field (R85). -/
theorem field40_of_lt {n : Nat} (h : n < 2 ^ 40) : field40 n = BitVec.ofNat 40 n := if_pos h

/-- `EncodeAddress(a, n)` sends n address cycles (R127). -/
@[simp] theorem length_encodeAddress (a n : Nat) : (encodeAddress a n).length = n := by
  induction n generalizing a with
  | zero => rfl
  | succ n ih => simp [encodeAddress, ih]

/-- A little-endian value of n bytes is below 2^(8n) (R10). -/
theorem le_lt (s : List Byte) : le s < 2 ^ (8 * s.length) := by
  induction s with
  | nil => simp [le]
  | cons b bs ih =>
    have hb : b.toNat < 256 := b.isLt
    simp only [le, List.length_cons]
    have : 2 ^ (8 * (bs.length + 1)) = 256 * 2 ^ (8 * bs.length) := by
      rw [Nat.mul_succ, Nat.pow_add]; omega
    omega

/-- A slice inside its sequence has the length of its bounds (R10). -/
theorem length_slice {s : List Byte} {a b : Nat} (h : b ≤ s.length) : (slice s a b).length = b - a := by
  simp only [slice, List.length_take, List.length_drop]; omega

/-- A slice is no longer than its bounds say (R10). -/
theorem length_slice_le (s : List Byte) (a b : Nat) : (slice s a b).length ≤ b - a := by
  simp only [slice, List.length_take]; omega

/-- Every second byte of a doubled reply is kept (R151). -/
theorem length_keepPhase : ∀ s : List Byte, (keepPhase s).length = s.length / 2
  | [] => rfl
  | [_] => by simp [keepPhase]
  | _ :: _ :: rest => by simp [keepPhase, length_keepPhase rest]; omega

/-- A chunk is not empty while bytes are to come (R149). -/
theorem chunkSize_pos (c : Config.Params) {n : Nat} (h : 0 < n) : 0 < chunkSize c n := by
  unfold chunkSize usefulPerRead cyclesPerByte Config.readChunkMax
  split <;> omega

/-- A chunk is at most what is to come (R149). -/
theorem chunkSize_le (c : Config.Params) (n : Nat) : chunkSize c n ≤ n := Nat.min_le_left _ _

/-- No transaction asks for more than `READ_CHUNK_MAX` read cycles (R149, R390). -/
theorem chunkCycles_le (c : Config.Params) (n : Nat) : chunkCycles c n ≤ Config.readChunkMax := by
  unfold chunkCycles chunkSize usefulPerRead cyclesPerByte Config.readChunkMax
  split <;> omega

/-- A reply of the length asked has exactly the useful bytes of its chunk (R149, R151). -/
theorem length_usefulBytes {c : Config.Params} {n : Nat} {raw : List Byte} (h : raw.length = chunkCycles c n) :
    (usefulBytes c raw).length = chunkSize c n := by
  unfold usefulBytes
  unfold chunkCycles cyclesPerByte at h
  split <;> simp_all [length_keepPhase]

end Sys2Proof.Machine
end

