-- ==== Sys2Proof/Laws/State.lean ====
section
/-! SUPPORT. One lemma per field and per update of the state, so that no later proof unfolds a record update. -/

namespace Sys2Proof.Machine

variable (s : State)

/-! ## Posting a response, going on, recording a delay: true by `rfl` -/

@[simp] theorem State.post_idState (r : Response) : (s.post r).idState = s.idState := rfl
@[simp] theorem State.post_abortCause (r : Response) : (s.post r).abortCause = s.abortCause := rfl
@[simp] theorem State.post_geom (r : Response) : (s.post r).geom = s.geom := rfl
@[simp] theorem State.post_idBytes (r : Response) : (s.post r).idBytes = s.idBytes := rfl
@[simp] theorem State.post_wpProtect (r : Response) : (s.post r).wpProtect = s.wpProtect := rfl
@[simp] theorem State.post_seq (r : Response) : (s.post r).seq = none := rfl
@[simp] theorem State.post_cfg (r : Response) : (s.post r).cfg = s.cfg := rfl
@[simp] theorem State.post_wpLine (r : Response) : (s.post r).wpLine = s.wpLine := rfl
@[simp] theorem State.post_markLines (r : Response) : (s.post r).markLines = s.markLines := rfl
@[simp] theorem State.post_resetInput (r : Response) : (s.post r).resetInput = s.resetInput := rfl
@[simp] theorem State.post_requests (r : Response) : (s.post r).requests = s.requests := rfl
@[simp] theorem State.post_answers (r : Response) : (s.post r).answers = s.answers := rfl
@[simp] theorem State.post_trace (r : Response) : (s.post r).trace = s.trace := rfl
@[simp] theorem State.post_responses (r : Response) : (s.post r).responses = s.responses ++ [r] := rfl

@[simp] theorem State.goOn_idState (q : Seq) (todo : List Item) : (s.goOn q todo).idState = s.idState := rfl
@[simp] theorem State.goOn_abortCause (q : Seq) (todo : List Item) : (s.goOn q todo).abortCause = s.abortCause := rfl
@[simp] theorem State.goOn_geom (q : Seq) (todo : List Item) : (s.goOn q todo).geom = s.geom := rfl
@[simp] theorem State.goOn_idBytes (q : Seq) (todo : List Item) : (s.goOn q todo).idBytes = s.idBytes := rfl
@[simp] theorem State.goOn_wpProtect (q : Seq) (todo : List Item) : (s.goOn q todo).wpProtect = s.wpProtect := rfl
@[simp] theorem State.goOn_seq (q : Seq) (todo : List Item) : (s.goOn q todo).seq = some { q with todo := todo } := rfl
@[simp] theorem State.goOn_cfg (q : Seq) (todo : List Item) : (s.goOn q todo).cfg = s.cfg := rfl
@[simp] theorem State.goOn_wpLine (q : Seq) (todo : List Item) : (s.goOn q todo).wpLine = s.wpLine := rfl
@[simp] theorem State.goOn_markLines (q : Seq) (todo : List Item) : (s.goOn q todo).markLines = s.markLines := rfl
@[simp] theorem State.goOn_resetInput (q : Seq) (todo : List Item) : (s.goOn q todo).resetInput = s.resetInput := rfl
@[simp] theorem State.goOn_requests (q : Seq) (todo : List Item) : (s.goOn q todo).requests = s.requests := rfl
@[simp] theorem State.goOn_answers (q : Seq) (todo : List Item) : (s.goOn q todo).answers = s.answers := rfl
@[simp] theorem State.goOn_trace (q : Seq) (todo : List Item) : (s.goOn q todo).trace = s.trace := rfl
@[simp] theorem State.goOn_responses (q : Seq) (todo : List Item) : (s.goOn q todo).responses = s.responses := rfl

@[simp] theorem State.recordDelay_idState : (s.recordDelay).idState = s.idState := rfl
@[simp] theorem State.recordDelay_abortCause : (s.recordDelay).abortCause = s.abortCause := rfl
@[simp] theorem State.recordDelay_geom : (s.recordDelay).geom = s.geom := rfl
@[simp] theorem State.recordDelay_idBytes : (s.recordDelay).idBytes = s.idBytes := rfl
@[simp] theorem State.recordDelay_wpProtect : (s.recordDelay).wpProtect = s.wpProtect := rfl
@[simp] theorem State.recordDelay_seq : (s.recordDelay).seq = s.seq := rfl
@[simp] theorem State.recordDelay_cfg : (s.recordDelay).cfg = s.cfg := rfl
@[simp] theorem State.recordDelay_wpLine : (s.recordDelay).wpLine = s.wpLine := rfl
@[simp] theorem State.recordDelay_markLines : (s.recordDelay).markLines = s.markLines := rfl
@[simp] theorem State.recordDelay_resetInput : (s.recordDelay).resetInput = s.resetInput := rfl
@[simp] theorem State.recordDelay_requests : (s.recordDelay).requests = s.requests := rfl
@[simp] theorem State.recordDelay_answers : (s.recordDelay).answers = s.answers := rfl
@[simp] theorem State.recordDelay_trace : (s.recordDelay).trace = s.trace ++ [{ transaction := .delay s.cfg.featureSettleDelay, answer := none }] := rfl
@[simp] theorem State.recordDelay_responses : (s.recordDelay).responses = s.responses := rfl

@[simp] theorem State.failIdentification_idState : (s.failIdentification).idState = .failed := rfl
@[simp] theorem State.failIdentification_abortCause : (s.failIdentification).abortCause = s.abortCause := rfl
@[simp] theorem State.failIdentification_geom : (s.failIdentification).geom = none := rfl
@[simp] theorem State.failIdentification_idBytes : (s.failIdentification).idBytes = s.idBytes := rfl
@[simp] theorem State.failIdentification_wpProtect : (s.failIdentification).wpProtect = s.wpProtect := rfl
@[simp] theorem State.failIdentification_seq : (s.failIdentification).seq = s.seq := rfl
@[simp] theorem State.failIdentification_cfg : (s.failIdentification).cfg = s.cfg := rfl
@[simp] theorem State.failIdentification_wpLine : (s.failIdentification).wpLine = s.wpLine := rfl
@[simp] theorem State.failIdentification_markLines : (s.failIdentification).markLines = s.markLines := rfl
@[simp] theorem State.failIdentification_resetInput : (s.failIdentification).resetInput = s.resetInput := rfl
@[simp] theorem State.failIdentification_requests : (s.failIdentification).requests = s.requests := rfl
@[simp] theorem State.failIdentification_answers : (s.failIdentification).answers = s.answers := rfl
@[simp] theorem State.failIdentification_trace : (s.failIdentification).trace = s.trace := rfl
@[simp] theorem State.failIdentification_responses : (s.failIdentification).responses = s.responses := rfl

/-! ## Reset (R380): engine state takes its reset value, the rest stays -/

@[simp] theorem State.applyReset_idState : (s.applyReset).idState = .uninitialized := rfl
@[simp] theorem State.applyReset_abortCause : (s.applyReset).abortCause = none := rfl
@[simp] theorem State.applyReset_geom : (s.applyReset).geom = none := rfl
@[simp] theorem State.applyReset_idBytes : (s.applyReset).idBytes = none := rfl
@[simp] theorem State.applyReset_wpProtect : (s.applyReset).wpProtect = true := rfl
@[simp] theorem State.applyReset_seq : (s.applyReset).seq = none := rfl
@[simp] theorem State.applyReset_cfg : (s.applyReset).cfg = s.cfg := rfl
@[simp] theorem State.applyReset_wpLine : (s.applyReset).wpLine = none := rfl
@[simp] theorem State.applyReset_markLines : (s.applyReset).markLines = none := rfl
@[simp] theorem State.applyReset_resetInput : (s.applyReset).resetInput = false := rfl
@[simp] theorem State.applyReset_requests : (s.applyReset).requests = s.requests := rfl
@[simp] theorem State.applyReset_answers : (s.applyReset).answers = s.answers := rfl
@[simp] theorem State.applyReset_trace : (s.applyReset).trace = s.trace := rfl
@[simp] theorem State.applyReset_responses : (s.applyReset).responses = s.responses := rfl

/-! ## Completing a transaction: only the lines, the answers and the trace change -/

variable (t : Transaction) (a : Answer) (as : List Answer)

@[simp] theorem State.driveLines_idState : (s.driveLines t a).idState = s.idState := by cases t <;> rfl
@[simp] theorem State.driveLines_abortCause : (s.driveLines t a).abortCause = s.abortCause := by cases t <;> rfl
@[simp] theorem State.driveLines_geom : (s.driveLines t a).geom = s.geom := by cases t <;> rfl
@[simp] theorem State.driveLines_idBytes : (s.driveLines t a).idBytes = s.idBytes := by cases t <;> rfl
@[simp] theorem State.driveLines_wpProtect : (s.driveLines t a).wpProtect = s.wpProtect := by cases t <;> rfl
@[simp] theorem State.driveLines_seq : (s.driveLines t a).seq = s.seq := by cases t <;> rfl
@[simp] theorem State.driveLines_cfg : (s.driveLines t a).cfg = s.cfg := by cases t <;> rfl
@[simp] theorem State.driveLines_resetInput : (s.driveLines t a).resetInput = s.resetInput := by cases t <;> rfl
@[simp] theorem State.driveLines_requests : (s.driveLines t a).requests = s.requests := by cases t <;> rfl
@[simp] theorem State.driveLines_answers : (s.driveLines t a).answers = s.answers := by cases t <;> rfl
@[simp] theorem State.driveLines_trace : (s.driveLines t a).trace = s.trace := by cases t <;> rfl
@[simp] theorem State.driveLines_responses : (s.driveLines t a).responses = s.responses := by cases t <;> rfl

@[simp] theorem State.complete_idState : (s.complete t a as).idState = s.idState := by cases t <;> rfl
@[simp] theorem State.complete_abortCause : (s.complete t a as).abortCause = s.abortCause := by cases t <;> rfl
@[simp] theorem State.complete_geom : (s.complete t a as).geom = s.geom := by cases t <;> rfl
@[simp] theorem State.complete_idBytes : (s.complete t a as).idBytes = s.idBytes := by cases t <;> rfl
@[simp] theorem State.complete_wpProtect : (s.complete t a as).wpProtect = s.wpProtect := by cases t <;> rfl
@[simp] theorem State.complete_seq : (s.complete t a as).seq = s.seq := by cases t <;> rfl
@[simp] theorem State.complete_cfg : (s.complete t a as).cfg = s.cfg := by cases t <;> rfl
@[simp] theorem State.complete_wpLine : (s.complete t a as).wpLine = (s.driveLines t a).wpLine := rfl
@[simp] theorem State.complete_markLines : (s.complete t a as).markLines = (s.driveLines t a).markLines := rfl
@[simp] theorem State.complete_resetInput : (s.complete t a as).resetInput = s.resetInput := by cases t <;> rfl
@[simp] theorem State.complete_requests : (s.complete t a as).requests = s.requests := by cases t <;> rfl
@[simp] theorem State.complete_answers : (s.complete t a as).answers = as := rfl
@[simp] theorem State.complete_trace :
    (s.complete t a as).trace = s.trace ++ [{ transaction := t, answer := some a }] := rfl
@[simp] theorem State.complete_responses : (s.complete t a as).responses = s.responses := by cases t <;> rfl

/-- Only `SetWP` drives the write-protect line (R146). -/
theorem State.driveLines_wpLine_other (h : ∀ p, t ≠ .setWP p) : (s.driveLines t a).wpLine = s.wpLine := by
  cases t <;> first | rfl | exact absurd rfl (h _)

/-- Only `Mark` drives the sequential-read lines (R146). -/
theorem State.driveLines_markLines_other (h : ∀ m, t ≠ .mark m) : (s.driveLines t a).markLines = s.markLines := by
  cases t <;> first | rfl | exact absurd rfl (h _)

/-- A transaction that drives no line leaves the lines alone. -/
theorem State.driveLines_eq_self (h₁ : ∀ p, t ≠ .setWP p) (h₂ : ∀ m, t ≠ .mark m) : s.driveLines t a = s := by
  cases t <;> first | rfl | exact absurd rfl (h₁ _) | exact absurd rfl (h₂ _)

/-! ## The session abort (R346): only `abortCause` changes -/

variable (c : AbortCause)

@[simp] theorem State.abortSession_idState : (s.abortSession c).idState = s.idState := by
  unfold State.abortSession; split <;> rfl
@[simp] theorem State.abortSession_geom : (s.abortSession c).geom = s.geom := by
  unfold State.abortSession; split <;> rfl
@[simp] theorem State.abortSession_idBytes : (s.abortSession c).idBytes = s.idBytes := by
  unfold State.abortSession; split <;> rfl
@[simp] theorem State.abortSession_wpProtect : (s.abortSession c).wpProtect = s.wpProtect := by
  unfold State.abortSession; split <;> rfl
@[simp] theorem State.abortSession_seq : (s.abortSession c).seq = s.seq := by
  unfold State.abortSession; split <;> rfl
@[simp] theorem State.abortSession_cfg : (s.abortSession c).cfg = s.cfg := by
  unfold State.abortSession; split <;> rfl
@[simp] theorem State.abortSession_wpLine : (s.abortSession c).wpLine = s.wpLine := by
  unfold State.abortSession; split <;> rfl
@[simp] theorem State.abortSession_markLines : (s.abortSession c).markLines = s.markLines := by
  unfold State.abortSession; split <;> rfl
@[simp] theorem State.abortSession_resetInput : (s.abortSession c).resetInput = s.resetInput := by
  unfold State.abortSession; split <;> rfl
@[simp] theorem State.abortSession_requests : (s.abortSession c).requests = s.requests := by
  unfold State.abortSession; split <;> rfl
@[simp] theorem State.abortSession_answers : (s.abortSession c).answers = s.answers := by
  unfold State.abortSession; split <;> rfl
@[simp] theorem State.abortSession_trace : (s.abortSession c).trace = s.trace := by
  unfold State.abortSession; split <;> rfl
@[simp] theorem State.abortSession_responses : (s.abortSession c).responses = s.responses := by
  unfold State.abortSession; split <;> rfl

/-- The first cause is kept (R346). -/
theorem State.abortSession_keeps {c' : AbortCause} (h : s.abortCause = some c') : s.abortSession c = s := by
  simp [State.abortSession, h]

/-- A first cause is recorded (R346). -/
theorem State.abortSession_records (h : s.abortCause = none) : (s.abortSession c).abortCause = some c := by
  simp [State.abortSession, h]

/-- After an abort the session is aborted (R346). -/
@[simp] theorem State.abortSession_isSome : (s.abortSession c).abortCause.isSome = true := by
  unfold State.abortSession; split <;> simp_all

/-! ## Holding a request (R80): only `requests` changes -/

variable (i : Instr)

@[simp] theorem State.hold_idState : (s.hold i).idState = s.idState := by
  unfold State.hold; split <;> rfl
@[simp] theorem State.hold_abortCause : (s.hold i).abortCause = s.abortCause := by
  unfold State.hold; split <;> rfl
@[simp] theorem State.hold_geom : (s.hold i).geom = s.geom := by
  unfold State.hold; split <;> rfl
@[simp] theorem State.hold_idBytes : (s.hold i).idBytes = s.idBytes := by
  unfold State.hold; split <;> rfl
@[simp] theorem State.hold_wpProtect : (s.hold i).wpProtect = s.wpProtect := by
  unfold State.hold; split <;> rfl
@[simp] theorem State.hold_seq : (s.hold i).seq = s.seq := by
  unfold State.hold; split <;> rfl
@[simp] theorem State.hold_cfg : (s.hold i).cfg = s.cfg := by
  unfold State.hold; split <;> rfl
@[simp] theorem State.hold_wpLine : (s.hold i).wpLine = s.wpLine := by
  unfold State.hold; split <;> rfl
@[simp] theorem State.hold_markLines : (s.hold i).markLines = s.markLines := by
  unfold State.hold; split <;> rfl
@[simp] theorem State.hold_resetInput : (s.hold i).resetInput = s.resetInput := by
  unfold State.hold; split <;> rfl
@[simp] theorem State.hold_answers : (s.hold i).answers = s.answers := by
  unfold State.hold; split <;> rfl
@[simp] theorem State.hold_trace : (s.hold i).trace = s.trace := by
  unfold State.hold; split <;> rfl
@[simp] theorem State.hold_responses : (s.hold i).responses = s.responses := by
  unfold State.hold; split <;> rfl

/-! ## The views `busy` and `gValid` -/

/-- `S.busy = 0` exactly when there is no sequencer (R32, R33). -/
theorem State.busy_eq_false : s.busy = false ↔ s.seq = none := by
  cases h : s.seq <;> simp [State.busy, h]

/-- `G.valid = 1` exactly when the geometry registers hold values (R24). -/
theorem State.gValid_eq_true : s.gValid = true ↔ ∃ g, s.geom = some g := by
  cases h : s.geom <;> simp [State.gValid, h]

/-- With an identified geometry the registers read as it. -/
theorem State.geo_of_some {g : Geometry} (h : s.geom = some g) : s.geo = g := by simp [State.geo, h]

end Sys2Proof.Machine
end

