-- ==== Sys2Proof/Laws/Ops.lean ====
section
/-! SUPPORT. The shared operations, each with one lemma that says everything it can do. -/

namespace Sys2Proof.Machine

/-- A transaction answered ok or absent waits, completes with ok, or completes with another answer (R97, R147). -/
theorem transact_cases (t : Transaction) (s : State) (f g : State → State) :
    (s.answers = [] ∧ transact t s f g = s) ∨
    (∃ as, s.answers = .ok :: as ∧ transact t s f g = f (s.complete t .ok as)) ∨
    (∃ a as, s.answers = a :: as ∧ a ≠ .ok ∧ transact t s f g = g (s.complete t a as)) := by
  unfold transact
  rcases h : s.answers with _ | ⟨a, as⟩
  · simp
  · cases a <;> simp

@[simp] theorem transact_ok {t : Transaction} {s : State} {f g : State → State} {as : List Answer}
    (h : s.answers = .ok :: as) : transact t s f g = f (s.complete t .ok as) := by
  simp [transact, h]

/-- Every protocol-level error has its abort cause, and that cause answers with its code (R346). -/
theorem protocolError_result {c : ResultCode} {k : AbortCause} (h : protocolError c = some k) : k.result = c := by
  cases c <;> simp [protocolError] at h <;> subst h <;> rfl

/-- The error exit ends the operation with the error's response, and aborts the session exactly for a protocol-level
error (R345, R346). -/
theorem postError_cases (s : State) (q : Seq) (r : Response) :
    (∃ c, protocolError r.code = some c ∧
      ((isIdentify q.op = true ∧ postError s q r = (s.failIdentification.abortSession c).post r) ∨
       (isIdentify q.op = false ∧ postError s q r = (s.abortSession c).post r))) ∨
    (protocolError r.code = none ∧ postError s q r = s.post r) := by
  unfold postError
  split
  · rename_i c hc
    refine .inl ⟨c, hc, ?_⟩
    cases h : isIdentify q.op <;> simp
  · exact .inr ⟨‹_›, rfl⟩

@[simp] theorem postError_seq (s : State) (q : Seq) (r : Response) : (postError s q r).seq = none := by
  unfold postError; split <;> rfl

@[simp] theorem postError_responses (s : State) (q : Seq) (r : Response) :
    (postError s q r).responses = s.responses ++ [r] := by
  unfold postError; split <;> simp; split <;> simp

/-- Raising an error either leaves the guard's restore as the only item, or is the error exit (R345, R157). -/
theorem raise_cases (s : State) (q : Seq) (r : Response) :
    (∃ b, q.saved = some b ∧
      raise s q r = { s with seq := some { q with todo := [.guardClose], pending := some r } }) ∨
    (q.saved = none ∧ raise s q r = postError s q r) := by
  unfold raise
  split
  · exact .inl ⟨_, ‹_›, rfl⟩
  · exact .inr ⟨‹_›, rfl⟩

/-- Acceptance holds the request, refuses it with a response, or starts the operation (R80, R353). -/
theorem accept_cases (i : Instr) (s : State) (refusal : Option Response) (start : State → State) :
    (s.seq.isSome = true ∧ accept i s refusal start = s.hold i) ∨
    (s.seq = none ∧ ∃ r, refusal = some r ∧ accept i s refusal start = s.post r) ∨
    (s.seq = none ∧ refusal = none ∧ accept i s refusal start = start s) := by
  unfold accept State.busy
  cases h : s.seq with
  | some q => exact .inl ⟨rfl, by simp⟩
  | none =>
    cases refusal with
    | some r => exact .inr (.inl ⟨rfl, r, rfl, by simp⟩)
    | none => exact .inr (.inr ⟨rfl, rfl, by simp⟩)

/-- The state checks pass exactly when the session is not aborted and, where it must be, the device is identified; then
the other checks decide (R353). -/
theorem stateChecks_eq_none (n : Bool) (s : State) (others : Option Response) :
    stateChecks n s others = none ↔
      s.abortCause = none ∧ (n = true → s.idState = .ready) ∧ others = none := by
  unfold stateChecks
  cases s.abortCause with
  | some c => simp
  | none =>
    cases n with
    | false => simp
    | true => by_cases h : s.idState = .ready <;> simp [h]

/-- One entry check passes exactly when its condition and the later checks do. -/
@[simp] theorem checkThen_eq_none (ok : Bool) (r : Response) (others : Option Response) :
    checkThen ok r others = none ↔ ok = true ∧ others = none := by
  cases ok <;> simp [checkThen]

/-- A failing entry check answers with its own response, whatever the later ones say. -/
@[simp] theorem checkThen_false (r : Response) (others : Option Response) : checkThen false r others = some r := rfl

/-- A passing entry check leaves the decision to the later ones. -/
@[simp] theorem checkThen_true (r : Response) (others : Option Response) : checkThen true r others = others := rfl

/-- The context of an error response: its code, and no data (R340, R362). -/
theorem errorResponse_code (q : Seq) (c : ResultCode) : (errorResponse q c).code = c := by
  unfold errorResponse; split <;> rfl

theorem errorResponse_data (q : Seq) (c : ResultCode) : (errorResponse q c).data = none := by
  unfold errorResponse; split <;> rfl

end Sys2Proof.Machine
end

