-- ==== Sys2Proof/Laws/Sequencer.lean ====
section
/-! SUPPORT. The sequencer: what `settle` does at each item, the one induction over it, and what a step is in each
situation of the machine. -/

namespace Sys2Proof.Machine

/-! ## `settle` -/

@[simp] theorem settle_nil (s : State) (q : Seq) : settle s q [] = s.post (okResponse s q) := rfl

/-- The sequencer stands at a transaction. -/
theorem settle_transaction {it : Item} (h : it.isTransaction = true) (s : State) (q : Seq) (rest : List Item) :
    settle s q (it :: rest) = s.goOn q (it :: rest) := by
  unfold settle
  split <;> first | rfl | simp_all [Item.isTransaction]

@[simp] theorem settle_readData_zero (s : State) (q : Seq) (rest : List Item) :
    settle s q (.readData 0 :: rest) = settle s q rest := by rw [settle]

@[simp] theorem settle_dataOut_nil (s : State) (q : Seq) (rest : List Item) :
    settle s q (.dataOut [] :: rest) = settle s q rest := by rw [settle]

theorem settle_act (a : Action) (s : State) (q : Seq) (rest : List Item) :
    settle s q (.act a :: rest) =
      match runAction a s q with
      | .go s' q' => settle s' q' rest
      | .push s' q' items => s'.goOn q' (items ++ rest)
      | .fail s' q' r => raise s' q' r := by
  rw [settle] <;> cases runAction a s q <;> rfl

@[simp] theorem settle_cmd (b : Byte) (s : State) (q : Seq) (rest : List Item) :
    settle s q (.cmd b :: rest) = s.goOn q (.cmd b :: rest) := settle_transaction rfl s q rest
@[simp] theorem settle_addr (b : Byte) (s : State) (q : Seq) (rest : List Item) :
    settle s q (.addr b :: rest) = s.goOn q (.addr b :: rest) := settle_transaction rfl s q rest
@[simp] theorem settle_dataOut_cons (b : Byte) (bs : List Byte) (s : State) (q : Seq) (rest : List Item) :
    settle s q (.dataOut (b :: bs) :: rest) = s.goOn q (.dataOut (b :: bs) :: rest) :=
  settle_transaction rfl s q rest
@[simp] theorem settle_mark (m : MarkPattern) (s : State) (q : Seq) (rest : List Item) :
    settle s q (.mark m :: rest) = s.goOn q (.mark m :: rest) := settle_transaction rfl s q rest
@[simp] theorem settle_delay (s : State) (q : Seq) (rest : List Item) :
    settle s q (.delay :: rest) = s.goOn q (.delay :: rest) := settle_transaction rfl s q rest
@[simp] theorem settle_readData_succ (n : Nat) (s : State) (q : Seq) (rest : List Item) :
    settle s q (.readData (n + 1) :: rest) = s.goOn q (.readData (n + 1) :: rest) := settle_transaction rfl s q rest
@[simp] theorem settle_waitReady (s : State) (q : Seq) (rest : List Item) :
    settle s q (.waitReady :: rest) = s.goOn q (.waitReady :: rest) := settle_transaction rfl s q rest
@[simp] theorem settle_guardOpen (s : State) (q : Seq) (rest : List Item) :
    settle s q (.guardOpen :: rest) = s.goOn q (.guardOpen :: rest) := settle_transaction rfl s q rest
@[simp] theorem settle_guardClose (s : State) (q : Seq) (rest : List Item) :
    settle s q (.guardClose :: rest) = s.goOn q (.guardClose :: rest) := settle_transaction rfl s q rest

/-- The one induction over `settle`: if `J` holds of the program to settle, is kept by every silent item, and gives `P`
where the program ends, stands at a transaction, goes on after pushed items, or raises, then `P` holds of the result. -/
theorem settle_rule {J : State → Seq → List Item → Prop} {P : State → Prop}
    (done : ∀ s q, J s q [] → P (s.post (okResponse s q)))
    (skipRead : ∀ s q rest, J s q (.readData 0 :: rest) → J s q rest)
    (skipOut : ∀ s q rest, J s q (.dataOut [] :: rest) → J s q rest)
    (goes : ∀ a s q rest s' q', J s q (.act a :: rest) → runAction a s q = .go s' q' → J s' q' rest)
    (pushes : ∀ a s q rest s' q' items, J s q (.act a :: rest) → runAction a s q = .push s' q' items →
      P (s'.goOn q' (items ++ rest)))
    (fails : ∀ a s q rest s' q' r, J s q (.act a :: rest) → runAction a s q = .fail s' q' r → P (raise s' q' r))
    (stands : ∀ s q it rest, J s q (it :: rest) → it.isTransaction = true → P (s.goOn q (it :: rest))) :
    ∀ todo s q, J s q todo → P (settle s q todo) := by
  intro todo
  induction todo with
  | nil => intro s q h; exact done s q h
  | cons it rest ih =>
    intro s q h
    cases hit : it.isTransaction with
    | true => rw [settle_transaction hit]; exact stands s q it rest h hit
    | false =>
      cases it with
      | readData n =>
        cases n with
        | zero => rw [settle_readData_zero]; exact ih s q (skipRead s q rest h)
        | succ n => simp [Item.isTransaction] at hit
      | dataOut d =>
        cases d with
        | nil => rw [settle_dataOut_nil]; exact ih s q (skipOut s q rest h)
        | cons b bs => simp [Item.isTransaction] at hit
      | act a =>
        rw [settle_act]
        cases hm : runAction a s q with
        | go s' q' => exact ih s' q' (goes a s q rest s' q' h hm)
        | push s' q' items => exact pushes a s q rest s' q' items h hm
        | fail s' q' r => exact fails a s q rest s' q' r h hm
      | cmd _ => simp [Item.isTransaction] at hit
      | addr _ => simp [Item.isTransaction] at hit
      | mark _ => simp [Item.isTransaction] at hit
      | delay => simp [Item.isTransaction] at hit
      | waitReady => simp [Item.isTransaction] at hit
      | guardOpen => simp [Item.isTransaction] at hit
      | guardClose => simp [Item.isTransaction] at hit

/-! ## What an action writes -/

/-- An action that is not IDENTIFY's changes no engine state at all: it computes on the locals (R26, R34). -/
theorem runAction_state {a : Action} (h : a.ofIdentify = false) (s : State) (q : Seq) :
    (∃ q', runAction a s q = .go s q') ∨ (∃ q' items, runAction a s q = .push s q' items) ∨
    (∃ q' r, runAction a s q = .fail s q' r) := by
  have hw : ∀ q, ∃ q' items, bulkWrite s q = .push s q' items := fun q => ⟨_, _, rfl⟩
  have hg : ∀ q, ∃ q' items, bulkGoodBlock s q = .push s q' items := by
    intro q; unfold bulkGoodBlock; split
    · exact ⟨_, _, rfl⟩
    · exact hw q
  have hl : ∀ q, (∃ q', bulkLoop s q = .go s q') ∨ (∃ q' items, bulkLoop s q = .push s q' items) ∨
      (∃ q' r, bulkLoop s q = .fail s q' r) := by
    intro q; unfold bulkLoop
    split
    · exact .inl ⟨_, rfl⟩
    split
    · exact .inr (.inr ⟨_, _, rfl⟩)
    split
    · split
      · exact .inr (.inl (hg q))
      · exact .inr (.inl ⟨_, _, rfl⟩)
    · exact .inr (.inl (hw q))
  cases a <;> simp only [Action.ofIdentify, Bool.true_eq_false] at h <;> unfold runAction <;> dsimp only
  case takeStatus => exact .inl ⟨_, rfl⟩
  case programVerdict att =>
    unfold programVerdict; split
    · split
      · exact .inr (.inr ⟨_, _, rfl⟩)
      · exact .inr (.inl ⟨_, _, rfl⟩)
    · exact .inl ⟨_, rfl⟩
  case eraseVerdict =>
    unfold eraseVerdict; split
    · exact .inr (.inr ⟨_, _, rfl⟩)
    · exact .inl ⟨_, rfl⟩
  case rangeNext =>
    unfold rangeNext; dsimp only; split
    · split
      · exact .inr (.inl ⟨_, _, rfl⟩)
      · split
        · exact .inr (.inr ⟨_, _, rfl⟩)
        · exact .inl ⟨_, rfl⟩
    · exact .inl ⟨_, rfl⟩
  case scanNext =>
    unfold scanNext; dsimp only; split
    · exact .inr (.inl ⟨_, _, rfl⟩)
    · exact .inl ⟨_, rfl⟩
  case seqPage => exact .inl ⟨_, rfl⟩
  case seqNext =>
    unfold seqNext; dsimp only; split
    · exact .inr (.inl ⟨_, _, rfl⟩)
    · exact .inr (.inl ⟨_, _, rfl⟩)
  case bulkMarker => exact .inl ⟨_, rfl⟩
  case bulkEntered =>
    unfold bulkEntered; split
    · exact hl _
    · exact .inr (.inl (hg q))
  case bulkErased =>
    unfold bulkErased; split
    · exact .inr (.inr ⟨_, _, rfl⟩)
    · exact .inr (.inl (hw q))
  case bulkWritten => exact hl _

/-! ## What a step is -/

/-- A step with the reset input asserted is a reset (R380). -/
theorem step_reset {s : State} (h : s.resetInput = true) : step s = .next s.applyReset := by
  simp [step, fetch, h]

/-- An idle engine without a request waits (R382). -/
theorem step_idle {s : State} (hr : s.resetInput = false) (hq : s.seq = none) (hn : s.requests = []) :
    step s = .next s := by
  simp [step, fetch, hr, hq, hn]

/-- A step at a transaction other than a command latch performs it (R33). -/
theorem step_item {s : State} {q : Seq} {it : Item} {rest : List Item} (hr : s.resetInput = false)
    (hq : s.seq = some q) (ht : q.todo = it :: rest) (hc : ∀ b, it ≠ .cmd b) :
    step s = .next (performItem s q (it :: rest)) := by
  cases it <;> first | exact absurd rfl (hc _) | simp [step, fetch, hr, hq, ht]

/-- A step at a known command byte executes that NAND command (R141). -/
theorem step_command {s : State} {q : Seq} {b : Byte} {rest : List Item} {i : Instr} (hr : s.resetInput = false)
    (hq : s.seq = some q) (ht : q.todo = .cmd b :: rest) (hd : decodeCommand b = .ok i) : step s = exec i s := by
  simp [step, fetch, hr, hq, ht, hd]

/-- A NAND command's meaning is one command-latch transaction with its byte of the table (R87 to R93). -/
theorem exec_command {b : Byte} {i : Instr} (h : (b, i) ∈ commandTable) (s : State) :
    exec i s = .next (latchCommand b s) := by
  simp only [commandTable, List.mem_cons, Prod.mk.injEq, List.not_mem_nil, or_false] at h
  rcases h with h | h | h | h | h | h | h | h | h | h | h | h | h <;> obtain ⟨rfl, rfl⟩ := h <;> rfl

/-- The command at the sequencer's head is latched and the sequencer passes it (R33, R141). -/
theorem latchCommand_at {s : State} {q : Seq} {b : Byte} {rest : List Item} (hq : s.seq = some q)
    (ht : q.todo = .cmd b :: rest) : latchCommand b s = simpleItem (.cmd b) s q rest := by
  simp [latchCommand, hq, ht, afterCommand]

/-- What a step with a sequencer does: it answers the sequencer's current item, or faults at an unknown command. -/
theorem step_busy {s : State} {q : Seq} {it : Item} {rest : List Item} (hr : s.resetInput = false)
    (hq : s.seq = some q) (ht : q.todo = it :: rest) :
    (∃ b, it = .cmd b ∧ commandBytes.contains b = false ∧ step s = .fault .unknownCommandByte) ∨
    (∃ b, it = .cmd b ∧ commandBytes.contains b = true ∧ step s = .next (simpleItem (.cmd b) s q rest)) ∨
    ((∀ b, it ≠ .cmd b) ∧ step s = .next (performItem s q (it :: rest))) := by
  by_cases hc : ∃ b, it = .cmd b
  · obtain ⟨b, rfl⟩ := hc
    cases hd : decodeCommand b with
    | ok i =>
      have hm := decodeCommand_eq_ok hd
      refine .inr (.inl ⟨b, rfl, ?_, ?_⟩)
      · simp only [commandBytes, List.contains_iff_mem, List.mem_map]
        exact ⟨_, hm, rfl⟩
      · rw [step_command hr hq ht hd, exec_command hm, latchCommand_at hq ht]
    | error e =>
      refine .inl ⟨b, rfl, ?_, ?_⟩
      · by_contra hcon
        rw [Bool.not_eq_false, commandBytes, List.contains_iff_mem] at hcon
        simp only [commandTable, List.map_cons, List.map_nil, List.mem_cons, List.not_mem_nil, or_false] at hcon
        rcases hcon with h | h | h | h | h | h | h | h | h | h | h | h | h <;> subst h <;> simp [decodeCommand,
          commandTable, List.lookup, Config.cmdRead, Config.cmdRead1, Config.cmdReadStart, Config.cmdReadOob,
          Config.cmdSeqin, Config.cmdPageprog, Config.cmdGetStatus, Config.cmdEraseSetup, Config.cmdEraseConfirm,
          Config.cmdReadId, Config.cmdReadParamPage, Config.cmdGetFeatures, Config.cmdSetFeatures] at hd
      · simp [step, fetch, hr, hq, ht, hd]
  · exact .inr (.inr ⟨fun b h => hc ⟨b, h⟩, step_item hr hq ht fun b h => hc ⟨b, h⟩⟩)

end Sys2Proof.Machine
end

