-- ==== Sys2Proof/Laws/Frames.lean ====
section
/-! SUPPORT. Facts about the frames of the procedures, once for each frame: how it moves the write-enable guard, that its
command bytes are known, that it holds no step of IDENTIFY, and that it starts at a transaction. -/

namespace Sys2Proof.Machine

/-! ## Fragments of a program -/

/-- A program fragment of a device operation: it moves the guard from `before` to `after` (R157), sends only known command
bytes (R96), and holds no step of IDENTIFY. -/
structure Fragment (before after : Bool) (xs : List Item) : Prop where
  guarded : guardAfter before xs = some after
  commands : ∀ it ∈ xs, it.commandsKnown = true
  device : ∀ it ∈ xs, it.ofIdentify = false

theorem guardAfter_append (o : Bool) (xs ys : List Item) :
    guardAfter o (xs ++ ys) = (guardAfter o xs).bind fun o' => guardAfter o' ys := by
  induction xs generalizing o with
  | nil => rfl
  | cons x xs ih =>
    simp only [List.cons_append, guardAfter]
    cases guardStep o x <;> simp [ih]

theorem Fragment.nil (o : Bool) : Fragment o o [] := ⟨rfl, by simp, by simp⟩

theorem Fragment.append {a b c : Bool} {xs ys : List Item} (h : Fragment a b xs) (k : Fragment b c ys) :
    Fragment a c (xs ++ ys) where
  guarded := by simp [guardAfter_append, h.guarded, k.guarded]
  commands it hm := (List.mem_append.mp hm).elim (h.commands it) (k.commands it)
  device it hm := (List.mem_append.mp hm).elim (h.device it) (k.device it)

theorem Fragment.one {a b : Bool} {it : Item} (h : guardStep a it = some b) (hc : it.commandsKnown = true)
    (hi : it.ofIdentify = false) : Fragment a b [it] :=
  ⟨by simp [guardAfter, h], by simpa using hc, by simpa using hi⟩

theorem Fragment.cons {a b c : Bool} {it : Item} {xs : List Item} (h : guardStep a it = some b)
    (hc : it.commandsKnown = true) (hi : it.ofIdentify = false) (k : Fragment b c xs) : Fragment a c (it :: xs) :=
  (Fragment.one h hc hi).append k

theorem Fragment.tail {a b c : Bool} {it : Item} {xs : List Item} (k : Fragment a c (it :: xs))
    (h : guardStep a it = some b) : Fragment b c xs where
  guarded := by simpa [guardAfter, h] using k.guarded
  commands i m := k.commands i (List.mem_cons_of_mem _ m)
  device i m := k.device i (List.mem_cons_of_mem _ m)

/-! ## The frames -/

theorem fragment_address (o : Bool) (a n : Nat) : Fragment o o (addressItems a n) := by
  unfold addressItems
  induction n generalizing a with
  | zero => exact .nil o
  | succ n ih => exact .cons rfl rfl rfl (ih _)

theorem fragment_encode (o : Bool) {c : Byte} (hg : guardStep o (.cmd c) = some o)
    (hc : commandBytes.contains c = true) (a n : Nat) : Fragment o o (encodeItems c a n) :=
  .cons hg hc rfl (fragment_address o a n)

theorem fragment_status (o : Bool) : Fragment o o readStatusItems :=
  .cons rfl rfl rfl (.cons rfl rfl rfl (.cons rfl rfl rfl (.nil o)))

theorem fragment_readPage (o : Bool) (g : Geometry) (p : Nat) (oob : Bool) :
    Fragment o o (readPageItems g p oob) := by
  have wait : ∀ n, Fragment o o [Item.waitReady, .readData n] := fun n =>
    .cons rfl rfl rfl (.cons rfl rfl rfl (.nil o))
  unfold readPageItems readPageLarge readPageLegacy legacySubRead
  split
  · exact (fragment_encode o rfl rfl _ _).append (.cons rfl rfl rfl (wait _))
  · refine .append (.append (.append (fragment_encode o rfl rfl _ _) (wait _))
      (.append (fragment_encode o rfl rfl _ _) (wait _))) ?_
    split
    · exact .append (fragment_encode o rfl rfl _ _) (wait _)
    · exact .nil o

/-- A pointer command, if any, is a known command byte (R231, R233). -/
def Attempt.known (a : Attempt) : Prop := ∀ b, a.pointer = some b → commandBytes.contains b = true

theorem Attempt.known_iff (a : Attempt) : (Item.act (.programVerdict a)).commandsKnown = true ↔ a.known := by
  unfold Item.commandsKnown Attempt.known
  cases h : a.pointer <;> simp [h]

/-- A program attempt stands inside the guard (R231, R235). -/
theorem fragment_program (g : Geometry) (a : Attempt) (h : a.known) : Fragment true true (programWithRetry g a) := by
  have pointer : Fragment true true (pointerItems a.pointer) := by
    unfold pointerItems
    split
    · rename_i c hc
      exact .one (by simp [guardStep]) (h c hc) rfl
    · exact .nil true
  exact .append (.append (.append (.append pointer (fragment_encode true rfl rfl _ _))
    (.cons rfl rfl rfl (.cons rfl rfl rfl (.one rfl rfl rfl)))) (fragment_status true))
    (.one rfl ((Attempt.known_iff a).mpr h) rfl)

/-- The guard around a body that stands inside it (R157). -/
theorem fragment_guarded {xs : List Item} (h : Fragment true true xs) : Fragment false false (guarded xs) :=
  .cons rfl rfl rfl (h.append (.one rfl rfl rfl))

theorem fragment_eraseOne (g : Geometry) (b : Nat) : Fragment false false (eraseOne g b) :=
  fragment_guarded (.append (.append (fragment_encode true rfl rfl _ _) (.cons rfl rfl rfl (.one rfl rfl rfl)))
    (fragment_status true))

theorem fragment_writeOnePage (g : Geometry) (p : Nat) (buf : List Byte) :
    Fragment false false (writeOnePage g p buf) := by
  unfold writeOnePage writePageLarge writePageLegacy
  refine fragment_guarded ?_
  split
  · exact fragment_program _ _ (by intro b h; simp at h)
  · refine .append (.append (fragment_program _ _ ?_) (fragment_program _ _ ?_)) (fragment_program _ _ ?_) <;>
    · intro b h
      obtain rfl := Option.some.inj h
      rfl

theorem fragment_markerPages (c : Config.Params) (g : Geometry) (p : Nat) :
    Fragment false false (markerPages c g p) := by
  unfold markerPages
  generalize List.range _ = l
  induction l with
  | nil => exact .nil false
  | cons x xs ih => exact .append (.append (fragment_readPage false _ _ _) (.one rfl rfl rfl)) ih

theorem fragment_seqPage (g : Geometry) : Fragment false false (seqPageItems g) :=
  .cons rfl rfl rfl (.cons rfl rfl rfl (.cons rfl rfl rfl (.one rfl rfl rfl)))

theorem fragment_seqRead (g : Geometry) (b : Nat) : Fragment false false (seqReadFrame g b) :=
  .cons rfl rfl rfl ((fragment_encode false rfl rfl _ _).append (.one rfl rfl rfl))

/-! ## Frames start at a transaction -/

/-- The fragment's first item is a transaction, so the sequencer can stand at it (R33). -/
def StartsAt (xs : List Item) : Prop := ∃ it rest, xs = it :: rest ∧ it.isTransaction = true

theorem StartsAt.cons {it : Item} (h : it.isTransaction = true) (rest : List Item) : StartsAt (it :: rest) :=
  ⟨it, rest, rfl, h⟩

theorem StartsAt.append {xs : List Item} (h : StartsAt xs) (ys : List Item) : StartsAt (xs ++ ys) := by
  obtain ⟨it, r, rfl, h⟩ := h
  exact ⟨it, r ++ ys, rfl, h⟩

/-- From a fragment that starts at a transaction the sequencer goes on at it. -/
theorem settle_startsAt {xs : List Item} (h : StartsAt xs) (s : State) (q : Seq) : settle s q xs = s.goOn q xs := by
  obtain ⟨it, r, rfl, h⟩ := h
  exact settle_transaction h s q r

theorem startsAt_readPage (g : Geometry) (p : Nat) (oob : Bool) : StartsAt (readPageItems g p oob) := by
  unfold readPageItems readPageLarge readPageLegacy legacySubRead encodeItems
  split <;> exact .cons rfl _

theorem startsAt_eraseOne (g : Geometry) (b : Nat) : StartsAt (eraseOne g b) := .cons rfl _

theorem startsAt_writeOnePage (g : Geometry) (p : Nat) (buf : List Byte) : StartsAt (writeOnePage g p buf) :=
  .cons rfl _

theorem startsAt_markerPages {c : Config.Params} {g : Geometry} {p : Nat} (h : markerPages c g p ≠ []) :
    StartsAt (markerPages c g p) := by
  unfold markerPages at *
  generalize List.range _ = l at *
  cases l with
  | nil => simp at h
  | cons x xs => exact ((startsAt_readPage _ _ _).append _).append _

theorem startsAt_program (g : Geometry) (a : Attempt) : StartsAt (programWithRetry g a) := by
  unfold programWithRetry programAttempt pointerItems encodeItems
  split <;> exact .cons rfl _

theorem startsAt_seqPage {g : Geometry} (h : 0 < g.rawPageSize) : StartsAt (seqPageItems g) := by
  refine .cons ?_ _
  cases hg : g.rawPageSize with
  | zero => omega
  | succ n => rfl

end Sys2Proof.Machine
end

