-- ==== Sys2Proof/Laws/Moves.lean ====
section
/-! SUPPORT. What the actions outside a guard can do, once for all of them: the engine state is untouched, the locals the
invariant speaks of are kept, pushed items are a fragment that closes its guards, and an error carries no data. -/

namespace Sys2Proof.Machine

/-- The locals that only transactions, the guard and the program retry write. -/
structure SameLocals (q q' : Seq) : Prop where
  op : q'.op = q.op := by rfl
  saved : q'.saved = q.saved := by rfl
  pending : q'.pending = q.pending := by rfl
  poll : q'.poll = q.poll := by rfl
  retry : q'.retry = q.retry := by rfl

/-- An error response: no data, and a code that says so (R362). -/
structure Response.IsError (r : Response) : Prop where
  noData : r.data = none := by rfl
  notOk : r.code ≠ .ok := by simp
  notBadBlock : r.code ≠ .badBlock := by simp

/-- A move of an action outside the guard. -/
inductive OutsideMove (s : State) (q : Seq) : Move → Prop where
  | go (q' : Seq) (same : SameLocals q q') : OutsideMove s q (.go s q')
  | push (q' : Seq) (items : List Item) (same : SameLocals q q') (closed : Fragment false false items)
      (starts : StartsAt items) : OutsideMove s q (.push s q' items)
  | fail (q' : Seq) (r : Response) (same : SameLocals q q') (error : r.IsError) : OutsideMove s q (.fail s q' r)

theorem bulkWrite_outside (s : State) (q q₀ : Seq) (h : SameLocals q₀ q) : OutsideMove s q₀ (bulkWrite s q) :=
  .push _ _ h ((fragment_writeOnePage _ _ _).append (.one rfl rfl rfl)) ((startsAt_writeOnePage _ _ _).append _)

theorem bulkGoodBlock_outside (s : State) (q q₀ : Seq) (h : SameLocals q₀ q) :
    OutsideMove s q₀ (bulkGoodBlock s q) := by
  unfold bulkGoodBlock
  split
  · exact .push _ _ h ((fragment_eraseOne _ _).append (.one rfl rfl rfl)) ((startsAt_eraseOne _ _).append _)
  · exact bulkWrite_outside s q q₀ h

theorem bulkLoop_outside (s : State) (q q₀ : Seq) (h : SameLocals q₀ q) : OutsideMove s q₀ (bulkLoop s q) := by
  unfold bulkLoop
  split
  · exact .go _ h
  split
  · exact .fail _ _ h {}
  split
  · split
    · exact bulkGoodBlock_outside s q q₀ h
    · rename_i hne
      exact .push _ _ ⟨h.op, h.saved, h.pending, h.poll, h.retry⟩
        ((fragment_markerPages _ _ _).append (.one rfl rfl rfl)) ((startsAt_markerPages hne).append _)
  · exact bulkWrite_outside s q q₀ h

/-- Every action that may not stand inside a guard, and is not IDENTIFY's, makes such a move. -/
theorem runAction_outside {a : Action} (hg : guardStep true (.act a) = none) (hi : a.ofIdentify = false) (s : State)
    (q : Seq) (hraw : 0 < s.geo.rawPageSize) : OutsideMove s q (runAction a s q) := by
  cases a <;> simp [guardStep, Action.ofIdentify] at hg hi <;> unfold runAction <;> dsimp only
  case eraseVerdict =>
    unfold eraseVerdict
    split
    · exact .fail _ _ {} {}
    · exact .go _ {}
  case rangeNext =>
    unfold rangeNext
    dsimp only
    split
    · split
      · exact .push _ _ {} ((fragment_eraseOne _ _).append (.one rfl rfl rfl)) ((startsAt_eraseOne _ _).append _)
      · split
        · exact .fail _ _ {} {}
        · exact .go _ {}
    · exact .go _ {}
  case scanNext =>
    unfold scanNext
    dsimp only
    split
    · exact .push _ _ {} ((fragment_readPage false _ _ _).append (.one rfl rfl rfl)) ((startsAt_readPage _ _ _).append _)
    · exact .go _ {}
  case seqPage => exact .go _ {}
  case seqNext =>
    unfold seqNext
    dsimp only
    split
    · exact .push _ _ {} (fragment_seqPage _) (startsAt_seqPage hraw)
    · exact .push _ _ {} (.one rfl rfl rfl) (.cons rfl _)
  case bulkMarker => exact .go _ {}
  case bulkEntered =>
    unfold bulkEntered
    split
    · exact bulkLoop_outside s _ q {}
    · exact bulkGoodBlock_outside s q q {}
  case bulkErased =>
    unfold bulkErased
    split
    · exact .fail _ _ {} {}
    · exact bulkWrite_outside s q q {}
  case bulkWritten => exact bulkLoop_outside s _ q {}

/-! ## The parameter page -/

/-- A field of k bytes is below 2^(8k) (R186). -/
theorem pageField_lt (pp : List Byte) (a b : Nat) : pageField pp a b < 2 ^ (8 * (b - a)) := by
  unfold pageField
  refine lt_of_lt_of_le (le_lt _) (Nat.pow_le_pow_right (by omega) ?_)
  have := length_slice_le pp a b
  omega

/-- A valid candidate geometry is well formed: the derived registers hold and no field exceeds its width (R24, R27). -/
theorem parseGeometry_wf (c : Config.Params) (pp : List Byte) (h : geometryValid (parseGeometry c pp) = true) :
    (parseGeometry c pp).Wf := by
  have h1 : pageField pp 80 84 < 2 ^ 32 := pageField_lt pp 80 84
  have h2 : pageField pp 84 86 < 2 ^ 16 := pageField_lt pp 84 86
  have h3 : pageField pp 92 96 < 2 ^ 32 := pageField_lt pp 92 96
  have h4 : pageField pp 96 100 < 2 ^ 32 := pageField_lt pp 96 100
  have h5 : (byteAt pp 100).toNat < 2 ^ 8 := (byteAt pp 100).isLt
  have hb : pageField pp 96 100 * (byteAt pp 100).toNat < 2 ^ 40 := by nlinarith
  have hp : pageField pp 96 100 * (byteAt pp 100).toNat * pageField pp 92 96 < 2 ^ 72 := by nlinarith
  have hr : pageField pp 80 84 + pageField pp 84 86 < 2 ^ 33 := by omega
  have hs : pageField pp 92 96 * (pageField pp 80 84 + pageField pp 84 86) < 2 ^ 65 := by nlinarith
  have hc : pageField pp 96 100 * (byteAt pp 100).toNat * pageField pp 92 96 *
      (pageField pp 80 84 + pageField pp 84 86) / 2 ^ 20 < 2 ^ 85 := by
    rw [Nat.div_lt_iff_lt_mul (by norm_num)]
    calc _ < 2 ^ 72 * 2 ^ 33 := by nlinarith
      _ = _ := by norm_num
  exact ⟨rfl, rfl, rfl, rfl, rfl, rfl, h, h1, h2, hr, h3, h4, h5, hb, hp, hs, hc⟩

end Sys2Proof.Machine
end

