-- ==== Sys2Proof/Laws/Invariant.lean ====
section
/-! SUPPORT. The lemmas from which it follows that a step keeps the invariant `Inv`: what posting, raising, going on and
settling do to it, for a device operation and for IDENTIFY, and then each kind of item and each acceptance. -/

namespace Sys2Proof.Machine

/-! ## The invariant without the remaining program -/

/-- What `Inv` says of a state with the locals `q`, leaving the remaining program out. -/
structure Base (s : State) (q : Seq) : Prop where
  geometry : ∀ g, s.geom = some g → g.Wf
  validIffReady : s.gValid = true ↔ s.idState = .ready
  notAborted : s.abortCause = none
  notFailed : s.idState ≠ .failed
  traceLegal : ∀ e ∈ s.trace, e.legal = true
  protectedOutside : q.saved = none → s.wpProtect = true
  savedProtected : ∀ b, q.saved = some b → b = true
  pollBound : q.poll < s.cfg.readyPollLimit
  retryBound : q.retry ≤ s.cfg.programRetryLimit

/-- Only these locals matter. -/
theorem Base.locals {s : State} {q q' : Seq} (h : Base s q) (hs : q'.saved = q.saved) (hp : q'.poll = q.poll)
    (hr : q'.retry = q.retry) : Base s q' :=
  { h with
    protectedOutside := by rw [hs]; exact h.protectedOutside
    savedProtected := by rw [hs]; exact h.savedProtected
    pollBound := by rw [hp]; exact h.pollBound
    retryBound := by rw [hr]; exact h.retryBound }

theorem Base.same {s : State} {q q' : Seq} (h : Base s q) (k : SameLocals q q') : Base s q' :=
  h.locals k.saved k.poll k.retry

/-- A legal transaction keeps it. -/
theorem Base.complete {s : State} {q : Seq} (h : Base s q) (t : Transaction) (a : Answer) (as : List Answer)
    (hl : ({ transaction := t, answer := some a } : Event).legal = true) : Base (s.complete t a as) q where
  geometry := by simpa using h.geometry
  validIffReady := by simpa [State.gValid] using h.validIffReady
  notAborted := by simp [h.notAborted]
  notFailed := by simp [h.notFailed]
  traceLegal := by
    intro e he
    simp only [State.complete_trace, List.mem_append, List.mem_singleton] at he
    rcases he with he | rfl
    · exact h.traceLegal e he
    · exact hl
  protectedOutside := by simpa using h.protectedOutside
  savedProtected := h.savedProtected
  pollBound := by simpa using h.pollBound
  retryBound := by simpa using h.retryBound

theorem Base.recordDelay {s : State} {q : Seq} (h : Base s q) : Base s.recordDelay q :=
  { h with
    traceLegal := by
      intro e he
      simp only [State.recordDelay_trace, List.mem_append, List.mem_singleton] at he
      rcases he with he | rfl
      · exact h.traceLegal e he
      · rfl }

/-- The write-protect flag and the guard's saved value set together. -/
theorem Base.guard {s : State} {q : Seq} (h : Base s q) (p : Bool) (sv : Option Bool) (pd : Option Response)
    (h1 : sv = none → p = true) (h2 : ∀ b, sv = some b → b = true) :
    Base { s with wpProtect := p } { q with saved := sv, pending := pd } :=
  { h with protectedOutside := h1, savedProtected := h2 }

theorem Inv.base {s : State} (h : Inv s) {q : Seq} (hq : s.seq = some q) : Base s q := by
  have r := h.running q hq
  have hna : s.abortCause = none := by
    by_contra hx
    have := h.abortedIdle (Option.isSome_iff_ne_none.mpr hx)
    simp [this] at hq
  refine ⟨h.geometry, h.validIffReady, hna, ?_, h.traceLegal, r.protectedOutside, r.savedProtected, r.pollBound,
    r.retryBound⟩
  intro hf
  simpa [hna] using h.failedAborted hf

theorem Inv.idleBase {s : State} (h : Inv s) (hq : s.seq = none) (ha : s.abortCause = none) (q : Seq)
    (h1 : q.saved = none) (h2 : q.poll = 0) (h3 : q.retry = 0) : Base s q where
  geometry := h.geometry
  validIffReady := h.validIffReady
  notAborted := ha
  notFailed hf := by simpa [ha] using h.failedAborted hf
  traceLegal := h.traceLegal
  protectedOutside _ := (h.idle hq).1
  savedProtected := by simp [h1]
  pollBound := by simp [h2, Config.Params.readyPollLimit]
  retryBound := by simp [h3]

/-! ## Posting and raising -/

theorem inv_post {s : State} {q : Seq} (h : Base s q) (hs : q.saved = none) (hi : s.idState = .ready) (r : Response) :
    Inv (s.post r) where
  validIffReady := by simpa [State.gValid] using h.validIffReady
  geometry := by simpa using h.geometry
  abortedIdle := by simp
  failedAborted := by simp [hi]
  idle := by simp [hi, h.protectedOutside hs]
  running := by simp
  traceLegal := by simpa using h.traceLegal

theorem inv_post_idle {s : State} (h : Inv s) (hq : s.seq = none) (r : Response) : Inv (s.post r) where
  validIffReady := by simpa [State.gValid] using h.validIffReady
  geometry := by simpa using h.geometry
  abortedIdle := by simp
  failedAborted := by simpa using h.failedAborted
  idle := by simpa using h.idle hq
  running := by simp
  traceLegal := by simpa using h.traceLegal

theorem inv_postError_device {s : State} {q : Seq} (h : Base s q) (hs : q.saved = none)
    (hd : isIdentify q.op = false) (hi : s.idState = .ready) (r : Response) : Inv (postError s q r) := by
  rcases postError_cases s q r with ⟨c, hc, ⟨h1, _⟩ | ⟨h1, h2⟩⟩ | ⟨_, h2⟩
  · simp [hd] at h1
  · rw [h2]
    exact ⟨by simpa [State.gValid] using h.validIffReady, by simpa using h.geometry, by simp, by simp [hi],
      by simp [hi, h.protectedOutside hs], by simp, by simpa using h.traceLegal⟩
  · rw [h2]
    exact inv_post h hs hi r

theorem inv_postError_identify {s : State} {q : Seq} (h : Base s q) (hs : q.saved = none)
    (hd : isIdentify q.op = true) (r : Response) (hr : protocolError r.code ≠ none) : Inv (postError s q r) := by
  rcases postError_cases s q r with ⟨c, hc, ⟨h1, h2⟩ | ⟨h1, h2⟩⟩ | ⟨h2, _⟩
  · rw [h2]
    exact ⟨by simp [State.gValid], by simp, by simp, by simp, by simp [h.protectedOutside hs], by simp,
      by simpa using h.traceLegal⟩
  · simp [hd] at h1
  · exact absurd h2 hr

theorem inv_raise_device {s : State} {q : Seq} (h : Base s q) (hd : isIdentify q.op = false) (hi : s.idState = .ready)
    {r : Response} (hr : r.IsError) : Inv (raise s q r) := by
  rcases raise_cases s q r with ⟨b, hb, he⟩ | ⟨hn, he⟩
  · rw [he]
    refine ⟨h.validIffReady, h.geometry, by simp [h.notAborted], by simp [hi], by simp, ?_, h.traceLegal⟩
    intro q' hq
    obtain rfl := Option.some.inj hq
    exact
      { atTransaction := ⟨_, _, rfl, rfl⟩
        commands := by simp [Item.commandsKnown]
        guardBalanced := by simp [hb, guardAfter, guardStep]
        protectedOutside := h.protectedOutside
        savedProtected := h.savedProtected
        openUnprotected := by simp
        pendingRestore := fun r' hr' => by
          obtain rfl := Option.some.inj hr'
          exact ⟨rfl, hr.noData, hr.notOk, hr.notBadBlock⟩
        pollBound := h.pollBound
        retryBound := h.retryBound
        phase := by simp [hd, DeviceOpRunning, hi, Item.ofIdentify] }
  · rw [he]
    exact inv_postError_device h hn hd hi r

theorem inv_goOn_device {s : State} {q : Seq} {todo : List Item} (h : Base s q) (hd : isIdentify q.op = false)
    (hi : s.idState = .ready) (hp : q.pending = none) (ho : q.saved.isSome = true → s.wpProtect = false)
    (ha : StartsAt todo) (hf : Fragment q.saved.isSome false todo) : Inv (s.goOn q todo) := by
  refine ⟨by simpa [State.gValid] using h.validIffReady, by simpa using h.geometry, by simp [h.notAborted],
    by simp [hi], by simp, ?_, by simpa using h.traceLegal⟩
  intro q' hq
  obtain rfl := Option.some.inj hq
  exact ⟨ha, hf.commands, hf.guarded, h.protectedOutside, h.savedProtected, fun h1 _ => ho h1, by simp [hp],
    h.pollBound, h.retryBound, by simp only [hd]; exact ⟨hi, hf.device⟩⟩

/-! ## Settling a device operation -/

/-- A device operation about to settle `todo`. -/
structure DeviceSettles (s : State) (q : Seq) (todo : List Item) : Prop where
  base : Base s q
  device : isIdentify q.op = false
  ready : s.idState = .ready
  pending : q.pending = none
  openUnprotected : q.saved.isSome = true → s.wpProtect = false
  fragment : Fragment q.saved.isSome false todo

theorem DeviceSettles.rawPos {s : State} {q : Seq} {todo : List Item} (h : DeviceSettles s q todo) :
    0 < s.geo.rawPageSize := by
  obtain ⟨g, hg⟩ := (State.gValid_eq_true s).mp (h.base.validIffReady.mpr h.ready)
  rw [State.geo_of_some s hg]
  have w := h.base.geometry g hg
  have v := w.valid
  simp [geometryValid] at v
  rw [w.raw]
  omega

/-- A silent item keeps it. -/
theorem DeviceSettles.skip {s : State} {q : Seq} {it : Item} {rest : List Item} (h : DeviceSettles s q (it :: rest))
    (hn : ∀ o, guardStep o it = some o) : DeviceSettles s q rest :=
  { h with fragment := h.fragment.tail (hn _) }

/-- Where an action that may not stand inside a guard comes next, the guard is closed, before and after it. -/
theorem DeviceSettles.outside {s : State} {q : Seq} {a : Action} {rest : List Item}
    (h : DeviceSettles s q (.act a :: rest)) (ho : guardStep true (.act a) = none) :
    q.saved.isSome = false ∧ Fragment false false rest := by
  have hs : q.saved.isSome = false := by
    by_contra hx
    have := h.fragment.guarded
    rw [Bool.not_eq_false] at hx
    simp [guardAfter, hx, ho] at this
  have hf := h.fragment
  rw [hs] at hf
  have : guardStep false (.act a) = some false := by cases a <;> simp [guardStep] at ho ⊢
  exact ⟨hs, hf.tail this⟩

/-- The program verdict stands inside a guard. -/
theorem DeviceSettles.inside {s : State} {q : Seq} {att : Attempt} {rest : List Item}
    (h : DeviceSettles s q (.act (.programVerdict att) :: rest)) :
    q.saved.isSome = true ∧ Fragment true false rest := by
  have hs : q.saved.isSome = true := by
    by_contra hx
    have := h.fragment.guarded
    simp only [Bool.not_eq_true] at hx
    simp [guardAfter, guardStep, hx] at this
  have hf := h.fragment
  rw [hs] at hf
  exact ⟨hs, hf.tail rfl⟩

theorem programFailure_isError (q : Seq) (page : Nat) : (programFailure q page).IsError := by
  constructor <;> unfold programFailure <;> split <;> simp

/-- An action of a device operation keeps it where the procedure goes on. -/
theorem DeviceSettles.go {s s' : State} {q q' : Seq} {a : Action} {rest : List Item}
    (h : DeviceSettles s q (.act a :: rest)) (hm : runAction a s q = .go s' q') : DeviceSettles s' q' rest := by
  have hid : a.ofIdentify = false := h.fragment.device (.act a) (by simp)
  by_cases ho : guardStep true (.act a) = none
  · obtain ⟨hs, hf⟩ := h.outside ho
    have hmv := runAction_outside ho hid s q h.rawPos
    rw [hm] at hmv
    cases hmv with
    | go _ same =>
      exact ⟨h.base.same same, by rw [same.op]; exact h.device, h.ready, by rw [same.pending]; exact h.pending,
        by rw [same.saved]; exact h.openUnprotected, by rw [same.saved, hs]; exact hf⟩
  · cases a <;> simp [guardStep, Action.ofIdentify] at ho hid
    · obtain ⟨rfl, rfl⟩ : s = s' ∧ { q with status := q.buf.head?, buf := [] } = q' := by
        simpa [runAction, takeStatus] using hm
      exact ⟨h.base.locals rfl rfl rfl, h.device, h.ready, h.pending, h.openUnprotected, h.fragment.tail rfl⟩
    · obtain ⟨hs, hf⟩ := h.inside
      simp only [runAction, programVerdict] at hm
      split at hm
      · split at hm <;> simp at hm
      · obtain ⟨rfl, rfl⟩ : s = s' ∧ { q with retry := 0 } = q' := by simpa using hm
        exact ⟨{ h.base with retryBound := Nat.zero_le _ }, h.device, h.ready, h.pending, h.openUnprotected,
          by rw [hs]; exact hf⟩

/-- Where an action of a device operation pushes items, the invariant holds. -/
theorem DeviceSettles.push {s s' : State} {q q' : Seq} {a : Action} {rest items : List Item}
    (h : DeviceSettles s q (.act a :: rest)) (hm : runAction a s q = .push s' q' items) :
    Inv (s'.goOn q' (items ++ rest)) := by
  have hid : a.ofIdentify = false := h.fragment.device (.act a) (by simp)
  by_cases ho : guardStep true (.act a) = none
  · obtain ⟨hs, hf⟩ := h.outside ho
    have hmv := runAction_outside ho hid s q h.rawPos
    rw [hm] at hmv
    cases hmv with
    | push _ _ same closed starts =>
      exact inv_goOn_device (h.base.same same) (by rw [same.op]; exact h.device) h.ready
        (by rw [same.pending]; exact h.pending) (by rw [same.saved]; exact h.openUnprotected) (starts.append _) (by rw [same.saved, hs]; exact closed.append hf)
  · cases a <;> simp [guardStep, Action.ofIdentify] at ho hid
    · simp [runAction, takeStatus] at hm
    · rename_i att
      obtain ⟨hs, hf⟩ := h.inside
      simp only [runAction, programVerdict] at hm
      split at hm
      · split at hm <;> simp at hm
        rename_i hlt
        obtain ⟨rfl, rfl, rfl⟩ := hm
        have hk : att.known :=
          (Attempt.known_iff att).mp (h.fragment.commands (.act (.programVerdict att)) (by simp))
        exact inv_goOn_device { h.base with retryBound := by simp only; omega } h.device h.ready h.pending
          h.openUnprotected ((startsAt_program _ _).append _) (by rw [hs]; exact (fragment_program _ att hk).append hf)
      · simp at hm

/-- Where an action of a device operation raises, the invariant holds. -/
theorem DeviceSettles.fail {s s' : State} {q q' : Seq} {a : Action} {rest : List Item} {r : Response}
    (h : DeviceSettles s q (.act a :: rest)) (hm : runAction a s q = .fail s' q' r) : Inv (raise s' q' r) := by
  have hid : a.ofIdentify = false := h.fragment.device (.act a) (by simp)
  by_cases ho : guardStep true (.act a) = none
  · have hmv := runAction_outside ho hid s q h.rawPos
    rw [hm] at hmv
    cases hmv with
    | fail _ _ same error =>
      exact inv_raise_device (h.base.same same) (by rw [same.op]; exact h.device) h.ready error
  · cases a <;> simp [guardStep, Action.ofIdentify] at ho hid
    · simp [runAction, takeStatus] at hm
    · simp only [runAction, programVerdict] at hm
      split at hm
      · split at hm <;> simp at hm
        obtain ⟨rfl, rfl, rfl⟩ := hm
        exact inv_raise_device h.base h.device h.ready (programFailure_isError _ _)
      · simp at hm

/-- Settling a device operation gives a state with the invariant. -/
theorem settle_device {s : State} {q : Seq} {todo : List Item} (h : DeviceSettles s q todo) :
    Inv (settle s q todo) := by
  refine settle_rule (J := DeviceSettles) (P := Inv) ?_ ?_ ?_ ?_ ?_ ?_ ?_ todo s q h
  · intro s q h
    have := h.fragment.guarded
    simp [guardAfter] at this
    exact inv_post h.base this h.ready _
  · exact fun s q rest h => h.skip fun _ => rfl
  · exact fun s q rest h => h.skip fun _ => rfl
  · exact fun a s q rest s' q' h hm => h.go hm
  · exact fun a s q rest s' q' items h hm => h.push hm
  · exact fun a s q rest s' q' r h hm => h.fail hm
  · exact fun s q it rest h hit => inv_goOn_device h.base h.device h.ready h.pending h.openUnprotected ⟨_, _, rfl, hit⟩
      h.fragment

/-! ## Settling IDENTIFY -/

/-- IDENTIFY about to settle what remains of its frame. -/
structure IdentifySettles (s : State) (q : Seq) (rest : List Item) : Prop where
  base : Base s q
  identify : isIdentify q.op = true
  unguarded : q.saved = none
  pending : q.pending = none
  geom : s.geom = none
  suffix : rest <:+ identifyFrame
  nonempty : rest ≠ []
  state : s.idState = identifyState rest

theorem identifyItem_isTransaction {it : Item} (h : identifyItem it = true) : it.isTransaction = true := by
  unfold identifyItem at h
  split at h <;> simp_all [Item.isTransaction]

theorem inv_goOn_identify {s : State} {q : Seq} {it : Item} {rest : List Item} (h : IdentifySettles s q rest)
    (hit : identifyItem it = true) : Inv (s.goOn q (it :: rest)) := by
  have hb := h.base
  refine ⟨by simpa [State.gValid] using hb.validIffReady, by simpa using hb.geometry, by simp [hb.notAborted],
    by simp [hb.notFailed], by simp, ?_, by simpa using hb.traceLegal⟩
  intro q' hq
  obtain rfl := Option.some.inj hq
  refine ⟨⟨_, _, rfl, identifyItem_isTransaction hit⟩, ?_, ?_, hb.protectedOutside, hb.savedProtected,
    by simp [h.unguarded], by simp [h.pending], hb.pollBound, hb.retryBound, ?_⟩
  · have hall : ∀ j ∈ identifyFrame, j.commandsKnown = true := by decide
    intro i m
    rcases List.mem_cons.mp m with rfl | m
    · unfold identifyItem at hit
      split at hit <;> simp_all [Item.commandsKnown]
    · exact hall i (h.suffix.subset m)
  · have hg : guardStep false it = some false := by
      unfold identifyItem at hit
      split at hit <;> simp_all [guardStep]
    have hall : ∀ l ∈ identifyFrame.tails, guardAfter false l = some false := by decide
    simp only [h.unguarded, Option.isSome_none, guardAfter, hg]
    exact hall rest (List.mem_tails _ _ |>.mpr h.suffix)
  · simp only [h.identify, if_true]
    exact ⟨it, rest, rfl, hit, h.nonempty, h.suffix, h.state, h.geom, h.unguarded⟩

theorem IdentifySettles.fail {s : State} {q : Seq} {rest : List Item} (h : IdentifySettles s q rest) :
    Inv (raise s q identificationFailed) := by
  rcases raise_cases s q identificationFailed with ⟨b, hx, he⟩ | ⟨hn, he⟩
  · simp [h.unguarded] at hx
  · rw [he]
    exact inv_postError_identify h.base hn h.identify _ (by simp [identificationFailed, protocolError])

/-- IDENTIFY goes on in a further state of its state machine. -/
theorem IdentifySettles.next {s : State} {q : Seq} {rest : List Item} (h : IdentifySettles s q rest) (st : IdState)
    (ib : Option (List Byte)) (h1 : st ≠ .ready) (h2 : st ≠ .failed) {rest' : List Item}
    (h3 : rest' <:+ identifyFrame) (h4 : rest' ≠ []) (h5 : identifyState rest' = st) :
    IdentifySettles { s with idBytes := ib, idState := st } { q with buf := [] } rest' where
  base := { h.base.locals (q' := { q with buf := [] }) rfl rfl rfl with
            validIffReady := by simp [State.gValid, h.geom, h1]
            notFailed := h2 }
  identify := h.identify
  unguarded := h.unguarded
  pending := h.pending
  geom := h.geom
  suffix := h3
  nonempty := h4
  state := h5.symm

/-- Settling IDENTIFY gives a state with the invariant. -/
theorem settle_identify {s : State} {q : Seq} {rest : List Item} (h : IdentifySettles s q rest) :
    Inv (settle s q rest) := by
  have hb := h.base
  -- A transaction stands next: IDENTIFY is in the same state of its state machine.
  have stands : ∀ it r, rest = it :: r → identifyItem it = true → r ≠ [] → identifyState r = identifyState rest →
      Inv (settle s q rest) := by
    intro it r e hi hne hst
    rw [e, settle_transaction (identifyItem_isTransaction hi)]
    refine inv_goOn_identify { h with suffix := ?_, nonempty := hne, state := by rw [h.state, hst] } hi
    have := h.suffix
    rw [e] at this
    exact (List.suffix_cons it r).trans this
  have keeps : ∀ r, rest = .act .keepIdBytes :: .cmd Config.cmdReadId :: r → r <:+ identifyFrame → r ≠ [] →
      identifyState r = .probeOnfi → Inv (settle s q rest) := by
    intro r e hs hne hst
    rw [e, settle_act]
    simp only [runAction, keepIdBytes, settle_cmd]
    exact inv_goOn_identify (h.next .probeOnfi (some q.buf) (by simp) (by simp) hs hne hst) rfl
  have checks : ∀ r, rest = .act .checkSignature :: .cmd Config.cmdReadParamPage :: r → r <:+ identifyFrame →
      r ≠ [] → identifyState r = .parseParameterPage → Inv (settle s q rest) := by
    intro r e hs hne hst
    rw [e, settle_act]
    simp only [runAction, checkSignature]
    by_cases hsig : q.buf = Config.onfiSig
    · simp only [hsig, if_true, settle_cmd]
      exact inv_goOn_identify (h.next .parseParameterPage s.idBytes (by simp) (by simp) hs hne hst) rfl
    · simp only [hsig, if_false]
      exact h.fail
  have parses : rest = [.act .parsePage] → Inv (settle s q rest) := by
    intro e
    rw [e, settle_act]
    simp only [runAction, parsePage]
    by_cases hsig : pageSignature q.buf = Config.onfiSig
    · by_cases hv : geometryValid (parseGeometry s.cfg q.buf) = true
      · simp only [hsig, hv, if_true, settle_nil]
        refine inv_post (q := { q with buf := [] }) (s := { s with geom := some _, idState := .ready })
          { hb.locals (q' := { q with buf := [] }) rfl rfl rfl with
            geometry := ?_, validIffReady := by simp [State.gValid], notFailed := by simp } h.unguarded rfl _
        intro g hg
        obtain rfl := Option.some.inj hg
        exact parseGeometry_wf _ _ hv
      · simp only [hsig, hv, if_true]
        exact h.fail
    · simp only [hsig, if_false]
      exact h.fail
  have hm : rest ∈ identifyFrame.tails := List.mem_tails _ _ |>.mpr h.suffix
  simp only [identifyFrame, List.tails, List.mem_cons, List.not_mem_nil, or_false] at hm
  rcases hm with e | e | e | e | e | e | e | e | e | e | e | e | e | e
  · exact stands _ _ e rfl (by simp) (by rw [e]; decide)
  · exact stands _ _ e rfl (by simp) (by rw [e]; decide)
  · exact stands _ _ e rfl (by simp) (by rw [e]; decide)
  · exact keeps _ e (by decide) (by simp) (by decide)
  · exact stands _ _ e rfl (by simp) (by rw [e]; decide)
  · exact stands _ _ e rfl (by simp) (by rw [e]; decide)
  · exact stands _ _ e rfl (by simp) (by rw [e]; decide)
  · exact checks _ e (by decide) (by simp) (by decide)
  · exact stands _ _ e rfl (by simp) (by rw [e]; decide)
  · exact stands _ _ e rfl (by simp) (by rw [e]; decide)
  · exact stands _ _ e rfl (by simp) (by rw [e]; decide)
  · exact stands _ _ e rfl (by simp) (by rw [e]; decide)
  · exact parses e
  · exact absurd e h.nonempty

end Sys2Proof.Machine
end

