-- ==== Sys2Proof/Laws/InvariantItems.lean ====
section
/-! SUPPORT. The invariant across one item of the remaining program, and across the acceptance of a request. -/

namespace Sys2Proof.Machine

/-! ## What the invariant says of the sequencer -/

theorem SeqInv.identify {s : State} {q : Seq} (h : SeqInv s q) (hi : isIdentify q.op = true) : IdentifyRunning s q := by
  have := h.phase
  rwa [if_pos hi] at this

theorem SeqInv.device {s : State} {q : Seq} (h : SeqInv s q) (hi : isIdentify q.op = false) : DeviceOpRunning s q := by
  have := h.phase
  rwa [if_neg (by simp [hi])] at this

/-- IDENTIFY opens no guard (R180). -/
theorem SeqInv.unguarded {s : State} {q : Seq} (h : SeqInv s q) (hi : isIdentify q.op = true) : q.saved = none := by
  obtain ⟨_, _, _, _, _, _, _, _, hs⟩ := h.identify hi
  exact hs

/-- A pending error waits only at the guard's restore (R157). -/
theorem SeqInv.pending_none {s : State} {q : Seq} {it : Item} {rest : List Item} (h : SeqInv s q)
    (ht : q.todo = it :: rest) (hit : it ≠ .guardClose) : q.pending = none := by
  cases hp : q.pending with
  | none => rfl
  | some r =>
    have := (h.pendingRestore r hp).1
    rw [ht] at this
    exact absurd (List.cons.inj this).1 hit

/-- The remaining program of a device operation is a fragment. -/
theorem SeqInv.fragment {s : State} {q : Seq} (h : SeqInv s q) (hi : isIdentify q.op = false) :
    Fragment q.saved.isSome false q.todo :=
  ⟨h.guardBalanced, h.commands, (h.device hi).2⟩

/-- IDENTIFY at the item `it`, about to go on. -/
theorem SeqInv.identifySettles {s s' : State} {q q' : Seq} {it : Item} {rest : List Item} (h : SeqInv s q)
    (ht : q.todo = it :: rest) (hi : isIdentify q.op = true) (hit : it ≠ .guardClose) (hb : Base s' q')
    (h1 : s'.idState = s.idState) (h2 : s'.geom = s.geom) (ho : q'.op = q.op) (hs : q'.saved = q.saved)
    (hp : q'.pending = q.pending) : identifyItem it = true ∧ IdentifySettles s' q' rest := by
  obtain ⟨it', rest', e, hid, hne, hsf, hst, hge, hsn⟩ := h.identify hi
  rw [ht] at e
  obtain ⟨rfl, rfl⟩ := List.cons.inj e
  exact ⟨hid, hb, by rw [ho]; exact hi, by rw [hs]; exact hsn, by rw [hp]; exact h.pending_none ht hit,
    by rw [h2]; exact hge, hsf, hne, by rw [h1]; exact hst⟩

/-- An error of a transaction keeps the invariant. -/
theorem inv_raise_transaction {s s' : State} {q q' : Seq} (h : SeqInv s q) (hb : Base s' q') (ho : q'.op = q.op)
    (hs : isIdentify q.op = true → q'.saved = none) (h1 : s'.idState = s.idState) (c : ResultCode)
    (hc : protocolError c ≠ none) : Inv (raise s' q' (errorResponse q' c)) := by
  have hcode := errorResponse_code q' c
  cases hi : isIdentify q.op with
  | false =>
    refine inv_raise_device hb (by rw [ho]; exact hi) (by rw [h1]; exact (h.device hi).1)
      ⟨errorResponse_data q' c, ?_, ?_⟩ <;> rw [hcode] <;> rintro rfl <;> simp [protocolError] at hc
  | true =>
    rcases raise_cases s' q' (errorResponse q' c) with ⟨b, hx, he⟩ | ⟨hn, he⟩
    · simp [hs hi] at hx
    · rw [he]
      exact inv_postError_identify hb hn (by rw [ho]; exact hi) _ (by rw [hcode]; exact hc)

/-- The item neither opens nor closes the guard. -/
def Item.leavesGuard (it : Item) : Prop := ∀ o o', guardStep o it = some o' → o' = o

theorem leavesGuard_cmd (b : Byte) : (Item.cmd b).leavesGuard := by
  intro o o' h
  unfold guardStep at h
  split at h <;> simp_all

/-- Going on after an item that leaves the guard as it is. -/
theorem inv_settle_after {s s' : State} {q q' : Seq} {it : Item} {rest : List Item} (h : SeqInv s q)
    (ht : q.todo = it :: rest) (hic : it ≠ .guardClose) (hn : it.leavesGuard) (hb : Base s' q')
    (h1 : s'.idState = s.idState) (h2 : s'.geom = s.geom) (hw : s'.wpProtect = s.wpProtect) (ho : q'.op = q.op)
    (hs : q'.saved = q.saved) (hp : q'.pending = q.pending) : Inv (settle s' q' rest) := by
  cases hi : isIdentify q.op with
  | false =>
    have hf := h.fragment hi
    rw [ht] at hf
    have hstep : guardStep q.saved.isSome it = some q.saved.isSome := by
      have hg := hf.guarded
      simp only [guardAfter] at hg
      split at hg
      · rename_i o ho'
        rw [ho', hn _ _ ho']
      · simp at hg
    have hpn := h.pending_none ht hic
    exact settle_device ⟨hb, by rw [ho]; exact hi, by rw [h1]; exact (h.device hi).1, by rw [hp]; exact hpn,
      by rw [hs, hw]; exact fun h' => h.openUnprotected h' hpn, by rw [hs]; exact hf.tail hstep⟩
  | true => exact settle_identify (h.identifySettles ht hi hic hb h1 h2 ho hs hp).2

/-! ## One item -/

theorem inv_simpleItem {s : State} {q : Seq} {it : Item} {rest : List Item} (h : Inv s) (hq : s.seq = some q)
    (ht : q.todo = it :: rest) (t : Transaction)
    (hl : ∀ a, ({ transaction := t, answer := some a } : Event).legal = true) (hic : it ≠ .guardClose)
    (hn : it.leavesGuard) : Inv (simpleItem t s q rest) := by
  have hs := h.running q hq
  have hb := h.base hq
  unfold simpleItem
  rcases transact_cases t s (fun s' => settle s' q rest) (fun s' => raiseAbsent s' q) with
    ⟨_, e⟩ | ⟨as, _, e⟩ | ⟨a, as, _, _, e⟩ <;> rw [e]
  · exact h
  · exact inv_settle_after hs ht hic hn (hb.complete t _ _ (hl _)) (by simp) (by simp) (by simp) rfl rfl rfl
  · exact inv_raise_transaction hs (hb.complete t _ _ (hl _)) rfl hs.unguarded (by simp) _ (by simp [protocolError])

theorem inv_readDataItem {s : State} {q : Seq} {n : Nat} {rest : List Item} (h : Inv s) (hq : s.seq = some q)
    (ht : q.todo = .readData n :: rest) : Inv (readDataItem n s q rest) := by
  have hs := h.running q hq
  have hb := h.base hq
  have hl : ∀ a, ({ transaction := .dataIn (chunkCycles s.cfg n), answer := some a } : Event).legal = true := by
    intro a
    simpa [Event.legal] using chunkCycles_le s.cfg n
  have hr : ∀ a as, Inv (raiseAbsent (s.complete (.dataIn (chunkCycles s.cfg n)) a as) q) := fun a as =>
    inv_raise_transaction hs (hb.complete _ _ _ (hl _)) rfl hs.unguarded (by simp) _ (by simp [protocolError])
  unfold readDataItem
  dsimp only
  split
  · exact h
  · rename_i raw as hans
    split
    · have hb' := (hb.complete (.dataIn (chunkCycles s.cfg n)) (.bytes raw) as (hl _)).locals
        (q' := { q with buf := q.buf ++ usefulBytes s.cfg raw }) rfl rfl rfl
      cases hi : isIdentify q.op with
      | false =>
        have hf := hs.fragment hi
        rw [ht] at hf
        have hpn := hs.pending_none ht (by simp)
        exact settle_device ⟨hb', hi, by simpa using (hs.device hi).1, hpn,
          by simpa using fun h' => hs.openUnprotected h' hpn, .cons rfl rfl rfl (hf.tail rfl)⟩
      | true =>
        have j := (hs.identifySettles ht hi (by simp) hb' (by simp) (by simp) rfl rfl rfl).2
        cases hk : n - chunkSize s.cfg n with
        | zero => rw [settle_readData_zero]; exact settle_identify j
        | succ k => rw [settle_readData_succ]; exact inv_goOn_identify j rfl
    · exact hr _ _
  · exact hr _ _

theorem inv_waitReadyItem {s : State} {q : Seq} {rest : List Item} (h : Inv s) (hq : s.seq = some q)
    (ht : q.todo = .waitReady :: rest) : Inv (waitReadyItem s q rest) := by
  have hs := h.running q hq
  have hb := h.base hq
  have hr : ∀ c a as, protocolError c ≠ none → Inv (raise (s.complete .pollReady a as) q (errorResponse q c)) :=
    fun c a as hc => inv_raise_transaction hs (hb.complete _ _ _ rfl) rfl hs.unguarded (by simp) _ hc
  unfold waitReadyItem
  split
  · exact h
  · refine inv_settle_after (q' := { q with poll := 0 }) hs ht (by simp) (fun _ _ h => (Option.some.inj h).symm) ?_
      (by simp) (by simp) (by simp) rfl rfl rfl
    exact { hb.complete .pollReady (.ready true) ‹_› rfl with
            pollBound := by simp [Config.Params.readyPollLimit] }
  · split
    · exact hr _ _ _ (by simp [protocolError])
    · rename_i hlt
      have hb' : Base (s.complete .pollReady (.ready false) ‹_›) { q with poll := q.poll + 1 } :=
        { hb.complete .pollReady (.ready false) ‹_› rfl with pollBound := by simpa using hlt }
      cases hi : isIdentify q.op with
      | false =>
        have hf := hs.fragment hi
        rw [ht] at hf
        have hpn := hs.pending_none ht (by simp)
        exact inv_goOn_device hb' hi (by simpa using (hs.device hi).1) hpn
          (by simpa using fun h' => hs.openUnprotected h' hpn) (.cons rfl _) hf
      | true =>
        exact inv_goOn_identify (hs.identifySettles ht hi (by simp) hb' (by simp) (by simp) rfl rfl rfl).2 rfl
  · exact hr _ _ _ (by simp [protocolError])

/-- IDENTIFY does not stand at a guard item. -/
theorem SeqInv.device_of_guard {s : State} {q : Seq} {it : Item} {rest : List Item} (h : SeqInv s q)
    (ht : q.todo = it :: rest) (hit : identifyItem it = false) : isIdentify q.op = false := by
  cases hi : isIdentify q.op with
  | false => rfl
  | true =>
    obtain ⟨it', rest', e, hid, _⟩ := h.identify hi
    rw [ht] at e
    obtain ⟨rfl, rfl⟩ := List.cons.inj e
    simp [hit] at hid

theorem inv_guardOpenItem {s : State} {q : Seq} {rest : List Item} (h : Inv s) (hq : s.seq = some q)
    (ht : q.todo = .guardOpen :: rest) : Inv (guardOpenItem s q rest) := by
  have hs := h.running q hq
  have hb := h.base hq
  have hi := hs.device_of_guard ht rfl
  have hf := hs.fragment hi
  rw [ht] at hf
  have hsn : q.saved = none := by
    cases hx : q.saved with
    | none => rfl
    | some b =>
      rw [hx] at hf
      simpa [guardAfter, guardStep] using hf.guarded
  have hw := hs.protectedOutside hsn
  have hd := hs.device hi
  have hp := hs.pending_none ht (by simp)
  rw [hsn] at hf
  unfold guardOpenItem
  dsimp only
  rcases transact_cases (.setWP false) s
      (fun s' => settle { s' with wpProtect := false } { q with saved := some s.wpProtect } rest)
      (fun s' => raiseAbsent s' { q with saved := some s.wpProtect }) with
    ⟨_, e⟩ | ⟨as, _, e⟩ | ⟨a, as, _, _, e⟩ <;> rw [e]
  · exact h
  · have b := (hb.complete (.setWP false) .ok as rfl).guard false (some s.wpProtect) q.pending (by simp) (by simp [hw])
    exact settle_device ⟨b, hi, by simpa using hd.1, hp, fun _ => rfl, hf.tail rfl⟩
  · have b := hb.complete (.setWP false) a as rfl
    have b' : Base (s.complete (.setWP false) a as) { q with saved := some s.wpProtect } :=
      { b with protectedOutside := by simp, savedProtected := by simp [hw] }
    exact inv_raise_transaction hs b' rfl (by simp [hi]) (by simp) .deviceAbsent (by simp [protocolError])

theorem inv_guardCloseItem {s : State} {q : Seq} {rest : List Item} (h : Inv s) (hq : s.seq = some q)
    (ht : q.todo = .guardClose :: rest) : Inv (guardCloseItem s q rest) := by
  have hs := h.running q hq
  have hb := h.base hq
  have hi := hs.device_of_guard ht rfl
  have hf := hs.fragment hi
  rw [ht] at hf
  have hd := hs.device hi
  have hsv : q.saved = some true := by
    cases hx : q.saved with
    | none =>
      rw [hx] at hf
      simpa [guardAfter, guardStep] using hf.guarded
    | some b => rw [hs.savedProtected b hx]
  rw [hsv] at hf
  have key : ∀ ok a as, Inv (afterRestore ok { s.complete (.setWP true) a as with wpProtect := true } q rest) := by
    intro ok a as
    have b := (hb.complete (.setWP true) a as rfl).guard true none none (by simp) (by simp)
    unfold afterRestore
    dsimp only
    split
    · exact inv_postError_device b rfl hi (by simp [hd.1]) _
    · split
      · exact settle_device ⟨b, hi, by simpa using hd.1, rfl, by simp, hf.tail rfl⟩
      · exact inv_raise_transaction hs b rfl (by simp) (by simp) _ (by simp [protocolError])
  unfold guardCloseItem
  simp only [hsv, Option.getD_some]
  rcases transact_cases (.setWP true) s (fun s' => afterRestore true { s' with wpProtect := true } q rest)
      (fun s' => afterRestore false { s' with wpProtect := true } q rest) with
    ⟨_, e⟩ | ⟨as, _, e⟩ | ⟨a, as, _, _, e⟩ <;> rw [e]
  · exact h
  · exact key _ _ _
  · exact key _ _ _

/-- Every item but a command latch keeps the invariant. -/
theorem inv_performItem {s : State} {q : Seq} {it : Item} {rest : List Item} (h : Inv s) (hq : s.seq = some q)
    (ht : q.todo = it :: rest) (hc : ∀ b, it ≠ .cmd b) : Inv (performItem s q (it :: rest)) := by
  have hs := h.running q hq
  obtain ⟨it', rest', e, htr⟩ := hs.atTransaction
  rw [ht] at e
  obtain ⟨rfl, rfl⟩ := List.cons.inj e
  cases it with
  | cmd b => exact absurd rfl (hc b)
  | addr b => exact inv_simpleItem h hq ht _ (fun _ => rfl) (by simp) (fun _ _ h => (Option.some.inj h).symm)
  | mark m => exact inv_simpleItem h hq ht _ (fun _ => rfl) (by simp) (fun _ _ h => (Option.some.inj h).symm)
  | act a => simp [Item.isTransaction] at htr
  | dataOut d =>
    cases d with
    | nil => simp [Item.isTransaction] at htr
    | cons b bs => exact inv_simpleItem h hq ht _ (fun _ => rfl) (by simp) (fun _ _ h => (Option.some.inj h).symm)
  | delay =>
    exact inv_settle_after hs ht (by simp) (fun _ _ h => (Option.some.inj h).symm) (h.base hq).recordDelay
      (by simp) (by simp) (by simp) rfl rfl rfl
  | readData n =>
    cases n with
    | zero => simp [Item.isTransaction] at htr
    | succ n => exact inv_readDataItem h hq ht
  | waitReady => exact inv_waitReadyItem h hq ht
  | guardOpen => exact inv_guardOpenItem h hq ht
  | guardClose => exact inv_guardCloseItem h hq ht

/-! ## Acceptance -/

/-- The requests waiting at the port are no part of the invariant. -/
theorem Inv.withRequests {s : State} (h : Inv s) (rs : List Request) : Inv { s with requests := rs } := by
  refine ⟨h.validIffReady, h.geometry, h.abortedIdle, h.failedAborted, h.idle, ?_, h.traceLegal⟩
  intro q hq
  have r := h.running q hq
  exact ⟨r.atTransaction, r.commands, r.guardBalanced, r.protectedOutside, r.savedProtected, r.openUnprotected,
    r.pendingRestore, r.pollBound, r.retryBound, r.phase⟩

theorem Inv.hold {s : State} (h : Inv s) (i : Instr) : Inv (s.hold i) := by
  unfold State.hold
  split
  · exact h.withRequests _
  · exact h

/-- Acceptance keeps the invariant if the start of the operation does. -/
theorem inv_accept {s : State} (h : Inv s) (i : Instr) (refusal : Option Response) (start : State → State)
    (hst : s.seq = none → refusal = none → Inv (start s)) : Inv (accept i s refusal start) := by
  rcases accept_cases i s refusal start with ⟨_, e⟩ | ⟨hq, r, _, e⟩ | ⟨hq, hr, e⟩ <;> rw [e]
  · exact h.hold i
  · exact inv_post_idle h hq r
  · exact hst hq hr

/-- The start of a device operation keeps it. -/
theorem inv_start {s : State} (h : Inv s) (hq : s.seq = none) (ha : s.abortCause = none) (hr : s.idState = .ready)
    {q : Seq} {todo : List Item} (hf : Fragment false false todo) (h1 : q.saved = none) (h2 : q.poll = 0)
    (h3 : q.retry = 0) (h4 : q.pending = none) (h5 : isIdentify q.op = false) : Inv (settle s q todo) :=
  settle_device ⟨h.idleBase hq ha q h1 h2 h3, h5, hr, h4, by simp [h1], by simpa [h1] using hf⟩

/-- The start of the bulk write keeps it. -/
theorem inv_startMove {s : State} {q : Seq} {m : Move} (hb : Base s q) (hr : s.idState = .ready)
    (h1 : q.saved = none) (h4 : q.pending = none) (h5 : isIdentify q.op = false) (hm : OutsideMove s q m) :
    Inv (startMove m) := by
  cases hm with
  | go _ same => exact inv_post (hb.same same) (by rw [same.saved]; exact h1) hr _
  | push _ _ same closed starts =>
    exact inv_goOn_device (hb.same same) (by rw [same.op]; exact h5) hr (by rw [same.pending]; exact h4)
      (by simp [same.saved, h1]) starts (by rw [same.saved, h1]; exact closed)
  | fail _ _ same error => exact inv_raise_device (hb.same same) (by rw [same.op]; exact h5) hr error

theorem inv_execIdentify {s : State} (h : Inv s) (f : Byte) :
    ∃ t, exec (.identify f) s = .next t ∧ Inv t := by
  refine ⟨_, rfl, inv_accept h _ _ _ fun hq hr => ?_⟩
  simp only [identifyRefusal, stateChecks_eq_none] at hr
  have b := h.idleBase hq hr.1 { op := .identify f, todo := identifyFrame } rfl rfl rfl
  refine settle_identify (rest := identifyFrame)
    ⟨{ b with geometry := by simp [State.startIdentification]
              validIffReady := by simp [State.gValid, State.startIdentification]
              notFailed := by simp [State.startIdentification] }, rfl, rfl, rfl, rfl, List.suffix_refl _,
      by simp [identifyFrame], rfl⟩

theorem inv_execWritePages {s : State} (h : Inv s) (f : Byte) (p : Arg) (bufs : List (List Byte)) :
    ∃ t, exec (.writePages f p bufs) s = .next t ∧ Inv t := by
  refine ⟨_, rfl, inv_accept h _ _ _ fun hq hr => ?_⟩
  simp only [writePagesRefusal, stateChecks_eq_none] at hr
  exact inv_startMove (h.idleBase hq hr.1 _ rfl rfl rfl) (hr.2.1 trivial) rfl rfl rfl (bulkLoop_outside _ _ _ {})

/-- Every operation keeps the invariant. -/
theorem inv_exec_operation {s : State} (h : Inv s) {i : Instr} (hi : i.isOperation = true) :
    ∃ t, exec i s = .next t ∧ Inv t := by
  cases i with
  | identify f => exact inv_execIdentify h f
  | readPage f p =>
    refine ⟨_, rfl, inv_accept h _ _ _ fun hq hr => ?_⟩
    simp only [readPageRefusal, stateChecks_eq_none] at hr
    exact inv_start h hq hr.1 (hr.2.1 trivial) (fragment_readPage false _ _ _) rfl rfl rfl rfl rfl
  | writePage f p buf =>
    refine ⟨_, rfl, inv_accept h _ _ _ fun hq hr => ?_⟩
    simp only [writePageRefusal, stateChecks_eq_none] at hr
    exact inv_start h hq hr.1 (hr.2.1 trivial) (fragment_writeOnePage _ _ _) rfl rfl rfl rfl rfl
  | writePages f p bufs => exact inv_execWritePages h f p bufs
  | eraseBlock f b =>
    refine ⟨_, rfl, inv_accept h _ _ _ fun hq hr => ?_⟩
    simp only [eraseBlockRefusal, stateChecks_eq_none] at hr
    exact inv_start h hq hr.1 (hr.2.1 trivial) ((fragment_eraseOne _ _).append (.one rfl rfl rfl)) rfl rfl rfl rfl rfl
  | eraseRange f b0 b1 =>
    refine ⟨_, rfl, inv_accept h _ _ _ fun hq hr => ?_⟩
    simp only [eraseRangeRefusal, stateChecks_eq_none] at hr
    exact inv_start h hq hr.1 (hr.2.1 trivial) ((fragment_eraseOne _ _).append (.one rfl rfl rfl)) rfl rfl rfl rfl rfl
  | scanBadBlocks f =>
    refine ⟨_, rfl, inv_accept h _ _ _ fun hq hr => ?_⟩
    simp only [scanRefusal, stateChecks_eq_none] at hr
    refine inv_start h hq hr.1 (hr.2.1 trivial) ?_ rfl rfl rfl rfl rfl
    show Fragment false false (scanFrame _)
    unfold scanFrame
    split
    · exact .nil false
    · exact (fragment_readPage false _ _ _).append (.one rfl rfl rfl)
  | seqReadBlock f b =>
    refine ⟨_, rfl, inv_accept h _ _ _ fun hq hr => ?_⟩
    simp only [seqReadRefusal, stateChecks_eq_none] at hr
    refine inv_start h hq hr.1 (hr.2.1 trivial) ?_ rfl rfl rfl rfl rfl
    refine (fragment_seqRead _ _).append ?_
    unfold seqBodyItems
    split
    · exact .one rfl rfl rfl
    · exact fragment_seqPage _
  | getFeature f a =>
    refine ⟨_, rfl, inv_accept h _ _ _ fun hq hr => ?_⟩
    simp only [getFeatureRefusal, stateChecks_eq_none] at hr
    exact inv_start h hq hr.1 (hr.2.1 trivial)
      (.cons rfl rfl rfl (.cons rfl rfl rfl (.cons rfl rfl rfl (.one rfl rfl rfl)))) rfl rfl rfl rfl rfl
  | setFeature f a v =>
    refine ⟨_, rfl, inv_accept h _ _ _ fun hq hr => ?_⟩
    simp only [setFeatureRefusal, stateChecks_eq_none] at hr
    exact inv_start h hq hr.1 (hr.2.1 trivial)
      (.cons rfl rfl rfl (.cons rfl rfl rfl (.cons rfl rfl rfl (.one rfl rfl rfl)))) rfl rfl rfl rfl rfl
  | computeBer f x y => exact ⟨_, rfl, inv_accept h _ _ _ fun hq _ => inv_post_idle h hq _⟩
  | _ => simp [Instr.isOperation] at hi

end Sys2Proof.Machine
end

