-- ==== Sys2Proof/Laws/PerInstr.lean ====
section
/-! SUPPORT. The per-instruction family RoundTrip: decoding an encoded instruction gives it back, one lemma for each
constructor (30_encoding.md R80 to R83, R87 to R93). -/

namespace Sys2Proof.Laws.RoundTrip

/-- Decoding the encoded instruction gives it back, with every operand. -/
def Statement (i : Instr) : Prop := decode (encode i) = .ok i

theorem identify (f : Byte) : Statement (.identify f) := by
  simp [Statement, decode, encode, requestWord, decodeRequest]

theorem readPage (f : Byte) (p : Arg) : Statement (.readPage f p) := by
  simp [Statement, decode, encode, requestWord, decodeRequest]

theorem writePage (f : Byte) (p : Arg) (buf : List Byte) : Statement (.writePage f p buf) := by
  simp [Statement, decode, encode, requestWord, decodeRequest, firstBuffer]

theorem writePages (f : Byte) (p : Arg) (bufs : List (List Byte)) : Statement (.writePages f p bufs) := by
  simp [Statement, decode, encode, requestWord, decodeRequest]

theorem eraseBlock (f : Byte) (b : Arg) : Statement (.eraseBlock f b) := by
  simp [Statement, decode, encode, requestWord, decodeRequest]

theorem eraseRange (f : Byte) (b0 b1 : Arg) : Statement (.eraseRange f b0 b1) := by
  simp [Statement, decode, encode, requestWord, decodeRequest]

theorem scanBadBlocks (f : Byte) : Statement (.scanBadBlocks f) := by
  simp [Statement, decode, encode, requestWord, decodeRequest]

theorem seqReadBlock (f : Byte) (b : Arg) : Statement (.seqReadBlock f b) := by
  simp [Statement, decode, encode, requestWord, decodeRequest]

theorem getFeature (f : Byte) (a : Arg) : Statement (.getFeature f a) := by
  simp [Statement, decode, encode, requestWord, decodeRequest]

theorem setFeature (f : Byte) (a : Arg) (v : List Byte) : Statement (.setFeature f a v) := by
  simp [Statement, decode, encode, requestWord, decodeRequest, firstBuffer]

theorem computeBer (f : Byte) (x y : List Byte) : Statement (.computeBer f x y) := by
  simp [Statement, decode, encode, requestWord, decodeRequest, firstBuffer, secondBuffer]

theorem nandRead : Statement .nandRead := rfl
theorem nandRead1 : Statement .nandRead1 := rfl
theorem nandReadStart : Statement .nandReadStart := rfl
theorem nandReadOob : Statement .nandReadOob := rfl
theorem nandSeqin : Statement .nandSeqin := rfl
theorem nandPageprog : Statement .nandPageprog := rfl
theorem nandGetStatus : Statement .nandGetStatus := rfl
theorem nandEraseSetup : Statement .nandEraseSetup := rfl
theorem nandEraseConfirm : Statement .nandEraseConfirm := rfl
theorem nandReadId : Statement .nandReadId := rfl
theorem nandReadParamPage : Statement .nandReadParamPage := rfl
theorem nandGetFeatures : Statement .nandGetFeatures := rfl
theorem nandSetFeatures : Statement .nandSetFeatures := rfl

end Sys2Proof.Laws.RoundTrip
end

