-- ==== Sys2Proof/Laws/Runs.lean ====
section
/-! SUPPORT. Runs of several steps, and one lemma for each kind of item that says how the sequencer goes past it: with
these a whole operation's run is a chain of `Goes.append`. -/

namespace Sys2Proof.Machine

/-! ## Runs -/

theorem runs_zero (s : State) : Runs 0 s s := rfl

theorem runs_succ {s u t : State} {n : Nat} (h : step s = .next u) : Runs (n + 1) s t ↔ Runs n u t := by
  have hc : Sys2Proof.core.step s = .next u := h
  simp only [Runs, Host.Core.run, hc]

theorem Runs.cons {s u t : State} {n : Nat} (h : Machine.step s = .next u) (k : Runs n u t) : Runs (n + 1) s t :=
  (runs_succ h).mpr k

theorem runs_one {s t : State} (h : step s = .next t) : Runs 1 s t := .cons h (runs_zero t)

theorem Runs.trans {m n : Nat} {s u t : State} (h : Runs m s u) (k : Runs n u t) : Runs (m + n) s t := by
  induction m generalizing s with
  | zero =>
    obtain rfl : s = u := Host.Outcome.next.inj h
    rwa [Nat.zero_add]
  | succ m ih =>
    rw [Nat.add_right_comm]
    cases hs : Machine.step s with
    | next v => exact .cons hs (ih ((runs_succ hs).mp h))
    | fault f =>
      have hc : Sys2Proof.core.step s = .fault f := hs
      simp [Runs, Host.Core.run, hc] at h
    | refused f =>
      have hc : Sys2Proof.core.step s = .refused f := hs
      simp [Runs, Host.Core.run, hc] at h

/-! ## The old position of the sequencer does not matter to `settle` -/

/-- The move with another sequencer in its state and another program in its locals. -/
def Move.stale (z : Option Seq) (t : List Item) : Move → Move
  | .go s q => .go { s with seq := z } { q with todo := t }
  | .push s q items => .push { s with seq := z } { q with todo := t } items
  | .fail s q r => .fail { s with seq := z } { q with todo := t } r

theorem Move.stale_ite (z : Option Seq) (t : List Item) (c : Prop) [Decidable c] (m m' : Move) :
    (if c then m else m').stale z t = if c then m.stale z t else m'.stale z t := by split <;> rfl

theorem bulkGoodBlock_stale (s : State) (q : Seq) (z : Option Seq) (t : List Item) :
    bulkGoodBlock { s with seq := z } { q with todo := t } = (bulkGoodBlock s q).stale z t := by
  unfold bulkGoodBlock
  rw [Move.stale_ite]
  rfl

theorem bulkLoop_stale (s : State) (q : Seq) (z : Option Seq) (t : List Item) :
    bulkLoop { s with seq := z } { q with todo := t } = (bulkLoop s q).stale z t := by
  unfold bulkLoop
  rw [Move.stale_ite, Move.stale_ite, Move.stale_ite]
  congr 1
  congr 1
  congr 1
  show (match markerPages s.cfg s.geo q.page with | [] => _ | _ => _) = _
  cases markerPages s.cfg s.geo q.page with
  | nil => exact bulkGoodBlock_stale s q z t
  | cons x xs => rfl

theorem runAction_stale (a : Action) (s : State) (q : Seq) (z : Option Seq) (t : List Item) :
    runAction a { s with seq := z } { q with todo := t } = (runAction a s q).stale z t := by
  cases a <;> unfold runAction <;> dsimp only
  case keepIdBytes => rfl
  case checkSignature => unfold checkSignature; rw [Move.stale_ite]; rfl
  case parsePage => unfold parsePage; dsimp only; rw [Move.stale_ite, Move.stale_ite]; rfl
  case takeStatus => rfl
  case programVerdict att => unfold programVerdict; rw [Move.stale_ite, Move.stale_ite]; rfl
  case eraseVerdict => unfold eraseVerdict; rw [Move.stale_ite]; rfl
  case rangeNext =>
    unfold rangeNext
    dsimp only
    split
    · rw [Move.stale_ite]
      congr 1
      split <;> rfl
    · rfl
  case scanNext => unfold scanNext; dsimp only; rw [Move.stale_ite]; rfl
  case seqPage => rfl
  case seqNext => unfold seqNext; dsimp only; rw [Move.stale_ite]; rfl
  case bulkMarker => rfl
  case bulkEntered =>
    unfold bulkEntered
    rw [Move.stale_ite, ← bulkGoodBlock_stale, ← bulkLoop_stale]
    rfl
  case bulkErased => unfold bulkErased; rw [Move.stale_ite]; rfl
  case bulkWritten => unfold bulkWritten; rw [← bulkLoop_stale]; rfl

theorem raise_stale (s : State) (q : Seq) (z : Option Seq) (t : List Item) (r : Response) :
    raise { s with seq := z } { q with todo := t } r = raise s q r := by
  unfold raise postError
  dsimp only
  split
  · rfl
  · split
    · cases h : isIdentify q.op <;> cases ha : s.abortCause <;>
        simp [State.post, State.abortSession, State.failIdentification, ha]
    · rfl

/-- `settle` sets the sequencer itself: where it stood before does not matter. -/
theorem settle_congr {s s' : State} {q q' : Seq} {todo : List Item} (hs : s' = { s with seq := s'.seq })
    (hq : q' = { q with todo := q'.todo }) : settle s' q' todo = settle s q todo := by
  induction todo generalizing s s' q q' with
  | nil => rw [hs, hq]; rfl
  | cons it rest ih =>
    cases hit : it.isTransaction with
    | true => rw [settle_transaction hit, settle_transaction hit, hs, hq]; rfl
    | false =>
      cases it with
      | readData n =>
        cases n with
        | zero => rw [settle_readData_zero, settle_readData_zero]; exact ih hs hq
        | succ n => simp [Item.isTransaction] at hit
      | dataOut d =>
        cases d with
        | nil => rw [settle_dataOut_nil, settle_dataOut_nil]; exact ih hs hq
        | cons b bs => simp [Item.isTransaction] at hit
      | act a =>
        rw [settle_act, settle_act, hs, hq, runAction_stale]
        cases runAction a s q with
        | go s' q' => exact ih rfl rfl
        | push s' q' items => rfl
        | fail s' q' r => exact raise_stale s' q' _ _ r
      | _ => simp [Item.isTransaction] at hit

/-! ## Going past items -/

theorem State.after_after (s : State) (as bs : List Answer) (es fs : List Event) :
    (s.after as es).after bs fs = s.after bs (es ++ fs) := by
  simp [State.after]

theorem State.after_self (s : State) : s.after s.answers [] = s := by simp [State.after]

/-- In `n` steps the sequencer goes past `items`: from `s` and `q` to `s'` and `q'`, whatever follows. -/
def Goes (n : Nat) (s : State) (q : Seq) (items : List Item) (s' : State) (q' : Seq) : Prop :=
  ∀ rest, Runs n (settle s q (items ++ rest)) (settle s' q' rest)

theorem Goes.nil (s : State) (q : Seq) : Goes 0 s q [] s q := fun _ => runs_zero _

theorem Goes.append {m n : Nat} {s u t : State} {q p r : Seq} {xs ys : List Item} (h : Goes m s q xs u p)
    (k : Goes n u p ys t r) : Goes (m + n) s q (xs ++ ys) t r := by
  intro rest
  rw [List.append_assoc]
  exact (h _).trans (k rest)

theorem Goes.cons {m n : Nat} {s u t : State} {q p r : Seq} {x : Item} {ys : List Item} (h : Goes m s q [x] u p)
    (k : Goes n u p ys t r) : Goes (m + n) s q (x :: ys) t r := h.append k

/-- At the end of its program the operation responds. -/
theorem Goes.finish {n : Nat} {s t : State} {q r : Seq} {items : List Item} (h : Goes n s q items t r) :
    Runs n (settle s q items) (t.post (okResponse t r)) := by
  have := h []
  rwa [List.append_nil] at this

/-- One step past an item other than a command latch. -/
theorem goes_item {it : Item} {s s' : State} {q q' : Seq} (hr : s.resetInput = false) (ht : it.isTransaction = true)
    (hc : ∀ b, it ≠ .cmd b)
    (h : ∀ rest, performItem (s.goOn q (it :: rest)) { q with todo := it :: rest } (it :: rest) = settle s' q' rest) :
    Goes 1 s q [it] s' q' := by
  intro rest
  rw [List.singleton_append, settle_transaction ht]
  refine runs_one ?_
  rw [step_item (s := s.goOn q (it :: rest)) (q := { q with todo := it :: rest }) (it := it) (rest := rest) hr rfl rfl hc, h rest]

/-- A transaction answered ok. -/
theorem simpleItem_ok {t : Transaction} {s : State} {q : Seq} {as : List Answer} {todo : List Item}
    (ha : s.answers = .ok :: as) (rest : List Item) :
    simpleItem t (s.goOn q todo) { q with todo := todo } rest = settle (s.complete t .ok as) q rest := by
  have hg : (s.goOn q todo).answers = .ok :: as := ha
  unfold simpleItem
  rw [transact_ok hg]
  exact settle_congr (by cases t <;> rfl) rfl

theorem goes_cmd {b : Byte} {i : Instr} {s : State} {q : Seq} {as : List Answer} (hr : s.resetInput = false)
    (hd : decodeCommand b = .ok i) (ha : s.answers = .ok :: as) :
    Goes 1 s q [.cmd b] (s.after as [okEvent (.cmd b)]) q := by
  intro rest
  rw [List.singleton_append, settle_cmd]
  refine runs_one ?_
  rw [step_command (s := s.goOn q (.cmd b :: rest)) (q := { q with todo := .cmd b :: rest }) hr rfl rfl hd, exec_command (decodeCommand_eq_ok hd),
    latchCommand_at (q := { q with todo := .cmd b :: rest }) rfl rfl, simpleItem_ok ha]
  rfl

theorem goes_addr {b : Byte} {s : State} {q : Seq} {as : List Answer} (hr : s.resetInput = false)
    (ha : s.answers = .ok :: as) : Goes 1 s q [.addr b] (s.after as [okEvent (.addr b)]) q :=
  goes_item hr rfl (by simp) fun rest => simpleItem_ok ha rest

theorem goes_dataOut {b : Byte} {bs : List Byte} {s : State} {q : Seq} {as : List Answer} (hr : s.resetInput = false)
    (ha : s.answers = .ok :: as) :
    Goes 1 s q [.dataOut (b :: bs)] (s.after as [okEvent (.dataOut (b :: bs))]) q :=
  goes_item hr rfl (by simp) fun rest => simpleItem_ok ha rest

theorem goes_mark {m : MarkPattern} {s : State} {q : Seq} {as : List Answer} (hr : s.resetInput = false)
    (ha : s.answers = .ok :: as) :
    Goes 1 s q [.mark m] { s.after as [okEvent (.mark m)] with markLines := some (markLevels s.cfg m) } q :=
  goes_item hr rfl (by simp) fun rest => simpleItem_ok ha rest

theorem goes_delay {s : State} {q : Seq} (hr : s.resetInput = false) :
    Goes 1 s q [.delay] (s.after s.answers [{ transaction := .delay s.cfg.featureSettleDelay, answer := none }]) q :=
  goes_item hr rfl (by simp) fun _ => settle_congr rfl rfl

/-- An action that goes on takes no step of its own. -/
theorem goes_act {a : Action} {s s' : State} {q q' : Seq} (h : runAction a s q = .go s' q') :
    Goes 0 s q [.act a] s' q' := by
  intro rest
  rw [List.singleton_append, settle_act, h]
  exact runs_zero _

/-- An action that goes on through further items. -/
theorem goes_push {a : Action} {n : Nat} {s s' t : State} {q q' r : Seq} {items : List Item}
    (h : runAction a s q = .push s' q' items) (hs : StartsAt items) (k : Goes n s' q' items t r) :
    Goes n s q [.act a] t r := by
  intro rest
  rw [List.singleton_append, settle_act, h]
  have := k rest
  rwa [settle_startsAt (hs.append rest)] at this

/-- `ReadData(0)` and `DataOut` of nothing send nothing (R143, R149). -/
theorem goes_readData_zero (s : State) (q : Seq) : Goes 0 s q [.readData 0] s q := by
  intro rest
  rw [List.singleton_append, settle_readData_zero]
  exact runs_zero _

theorem goes_dataOut_nil (s : State) (q : Seq) : Goes 0 s q [.dataOut []] s q := by
  intro rest
  rw [List.singleton_append, settle_dataOut_nil]
  exact runs_zero _

/-- The address cycles of `EncodeAddress` (R127). -/
theorem goes_address (a n : Nat) {s : State} {q : Seq} {as : List Answer} (hr : s.resetInput = false)
    (ha : s.answers = List.replicate n .ok ++ as) :
    Goes n s q (addressItems a n) (s.after as ((encodeAddress a n).map fun b => okEvent (.addr b))) q := by
  induction n generalizing a s with
  | zero =>
    have : s.after as [] = s := by
      rw [← State.after_self s]
      simp only [List.replicate_zero, List.nil_append] at ha
      rw [ha]
      simp [State.after]
    simpa [addressItems, encodeAddress, this] using Goes.nil s q
  | succ n ih =>
    have h1 := goes_addr (b := BitVec.ofNat 8 a) (q := q) hr (as := List.replicate n .ok ++ as)
      (by rw [ha, List.replicate_succ]; rfl)
    have h2 := ih (a >>> 8) (s := s.after (List.replicate n .ok ++ as) [okEvent (.addr (BitVec.ofNat 8 a))]) hr rfl
    rw [State.after_after] at h2
    have := h1.append h2
    rw [Nat.add_comm 1 n] at this
    exact this

/-- A readiness wait that ends after `j` polls answered false (R152). -/
theorem goes_waitReady {j : Nat} {s : State} {q : Seq} {as : List Answer} (hr : s.resetInput = false)
    (hj : q.poll + j < s.cfg.readyPollLimit) (ha : s.answers = pollAnswers j ++ as) :
    Goes (j + 1) s q [.waitReady] (s.after as (pollEvents (pollAnswers j))) { q with poll := 0 } := by
  induction j generalizing s q with
  | zero =>
    refine goes_item hr rfl (by simp) fun rest => ?_
    have hg : (s.goOn q (.waitReady :: rest)).answers = .ready true :: as := by simpa [pollAnswers] using ha
    simp only [performItem, waitReadyItem, hg]
    exact settle_congr rfl rfl
  | succ j ih =>
    have ha' : s.answers = .ready false :: (pollAnswers j ++ as) := by
      rw [ha]
      simp [pollAnswers, List.replicate_succ]
    intro rest
    have k := ih (s := s.after (pollAnswers j ++ as) [{ transaction := .pollReady, answer := some (.ready false) }])
      (q := { q with poll := q.poll + 1 }) hr (by simp only [State.after]; omega) rfl rest
    rw [State.after_after] at k
    have e : [{ transaction := .pollReady, answer := some (Answer.ready false) }] ++ pollEvents (pollAnswers j) =
        pollEvents (pollAnswers (j + 1)) := by
      simp [pollEvents, pollAnswers, List.replicate_succ]
    rw [e] at k
    refine .cons ?_ k
    rw [List.singleton_append, settle_waitReady, settle_waitReady,
      step_item (s := s.goOn q (.waitReady :: rest)) (q := { q with todo := .waitReady :: rest }) hr rfl rfl (by simp)]
    have hg : (s.goOn q (.waitReady :: rest)).answers = .ready false :: (pollAnswers j ++ as) := ha'
    have hlt : ¬ (s.goOn q (.waitReady :: rest)).cfg.readyPollLimit ≤ q.poll + 1 := by
      simp only [State.goOn_cfg]
      omega
    simp only [performItem, waitReadyItem, hg, hlt, if_false]
    rfl

/-- `ReadData` (R149 to R151). -/
theorem goes_readData {c : Config.Params} {n : Nat} {raws : List (List Byte)} {data : List Byte} {s : State} {q : Seq}
    {as : List Answer} (hr : s.resetInput = false) (hc : s.cfg = c) (h : Replies c n raws data)
    (ha : s.answers = raws.map .bytes ++ as) :
    Goes raws.length s q [.readData n] (s.after as (readEvents raws)) { q with buf := q.buf ++ data } := by
  induction raws generalizing n data s q with
  | nil =>
    obtain ⟨rfl, rfl⟩ := h
    have : s.after as (readEvents []) = s := by
      obtain rfl : s.answers = as := by simpa using ha
      exact State.after_self s
    rw [this]
    simpa using goes_readData_zero s q
  | cons raw raws ih =>
    obtain ⟨hn, hlen, more, rfl, hmore⟩ := h
    obtain ⟨n, rfl⟩ : ∃ k, n = k + 1 := ⟨n - 1, by omega⟩
    intro rest
    have k := ih (s := s.after (raws.map .bytes ++ as) [{ transaction := .dataIn raw.length, answer := some (.bytes raw) }])
      (q := { q with buf := q.buf ++ usefulBytes c raw }) hr hc hmore rfl rest
    rw [State.after_after] at k
    have e : ({ q with buf := q.buf ++ usefulBytes c raw ++ more } : Seq) =
        { q with buf := q.buf ++ (usefulBytes c raw ++ more) } := by rw [List.append_assoc]
    rw [← e]
    refine .cons ?_ k
    rw [List.singleton_append, settle_readData_succ,
      step_item (s := s.goOn q (.readData (n + 1) :: rest)) (q := { q with todo := .readData (n + 1) :: rest }) hr rfl rfl (by simp)]
    have hg : (s.goOn q (.readData (n + 1) :: rest)).answers = .bytes raw :: (raws.map .bytes ++ as) := ha
    simp only [performItem, readDataItem, hg, State.goOn_cfg, hc, hlen, if_true]
    congr 1
    exact settle_congr rfl rfl

/-- The entry of the write-enable guard (R157). -/
theorem goes_guardOpen {s : State} {q : Seq} {as : List Answer} (hr : s.resetInput = false)
    (ha : s.answers = .ok :: as) :
    Goes 1 s q [.guardOpen]
      { s.after as [okEvent (.setWP false)] with wpProtect := false, wpLine := some (!s.cfg.wpProtectLevel) }
      { q with saved := some s.wpProtect } := by
  refine goes_item hr rfl (by simp) fun rest => ?_
  have hg : (s.goOn q (.guardOpen :: rest)).answers = .ok :: as := ha
  simp only [performItem, guardOpenItem]
  rw [transact_ok hg]
  exact settle_congr rfl rfl

/-- The exit of the write-enable guard (R157). -/
theorem goes_guardClose {s : State} {q : Seq} {as : List Answer} {p : Bool} (hr : s.resetInput = false)
    (ha : s.answers = .ok :: as) (hs : q.saved = some p) (hp : q.pending = none) :
    Goes 1 s q [.guardClose]
      { s.after as [okEvent (.setWP p)] with wpProtect := p, wpLine := some (wpLevel s.cfg p) }
      { q with saved := none, pending := none } := by
  refine goes_item hr rfl (by simp) fun rest => ?_
  have hg : (s.goOn q (.guardClose :: rest)).answers = .ok :: as := ha
  simp only [performItem, guardCloseItem, hs, Option.getD_some]
  rw [transact_ok hg]
  simp only [afterRestore, hp, if_true]
  exact settle_congr rfl rfl

end Sys2Proof.Machine
end

