-- ==== Sys2Proof/Laws/Procedures.lean ====
section
/-! SUPPORT. What each procedure does when every transaction is answered: `Plays` says that the sequencer goes past some
items while a conversation takes place, `Fails` that it raises an error at its end; one lemma for each procedure. -/

namespace Sys2Proof.Machine

/-! ## Conversations -/

/-- One conversation after another. -/
def Talk.and (t u : Talk) : Talk := { answers := t.answers ++ u.answers, events := t.events ++ u.events }

theorem Talk.join_nil : Talk.join [] = { answers := [], events := [] } := rfl
theorem Talk.join_cons (t : Talk) (ts : List Talk) : Talk.join (t :: ts) = t.and (Talk.join ts) := by
  simp [Talk.join, Talk.and]
theorem Talk.and_nil (t : Talk) : t.and (Talk.join []) = t := by simp [Talk.join, Talk.and]
theorem Talk.nil_and (t : Talk) : (Talk.join []).and t = t := by simp [Talk.join, Talk.and]
theorem Talk.and_assoc (t u v : Talk) : (t.and u).and v = t.and (u.and v) := by simp [Talk.and]
theorem Talk.sends_nil : Talk.sends [] = Talk.join [] := rfl
theorem Talk.sends_append (xs ys : List Transaction) : Talk.sends (xs ++ ys) = (Talk.sends xs).and (Talk.sends ys) := by
  simp [Talk.sends, Talk.and]
theorem Talk.sends_cons (x : Transaction) (xs : List Transaction) :
    Talk.sends (x :: xs) = (Talk.sends [x]).and (Talk.sends xs) := Talk.sends_append [x] xs
theorem Talk.join_two (t u : Talk) : Talk.join [t, u] = t.and u := by simp [Talk.join, Talk.and]
theorem Talk.join_three (t u v : Talk) : Talk.join [t, u, v] = t.and (u.and v) := by simp [Talk.join, Talk.and]
theorem Talk.guarded_eq (t : Talk) : t.guarded = (Talk.sends [.setWP false]).and (t.and (Talk.sends [.setWP true])) := by
  simp [Talk.guarded, Talk.join, Talk.and]

/-! ## The lines -/

theorem wpLineAfter_append (c : Config.Params) (l : Option Bool) (es fs : List Event) :
    wpLineAfter c l (es ++ fs) = wpLineAfter c (wpLineAfter c l es) fs := by
  induction es generalizing l with
  | nil => rfl
  | cons e es ih => exact ih _

theorem markLinesAfter_append (c : Config.Params) (l : Option (BitVec 2)) (es fs : List Event) :
    markLinesAfter c l (es ++ fs) = markLinesAfter c (markLinesAfter c l es) fs := by
  induction es generalizing l with
  | nil => rfl
  | cons e es ih => exact ih _

/-- The engine after `events`, the lines with it. -/
def State.heard (s : State) (as : List Answer) (events : List Event) : State :=
  { s.after as events with
    wpLine := wpLineAfter s.cfg s.wpLine events, markLines := markLinesAfter s.cfg s.markLines events }

theorem State.heard_heard (s : State) (as bs : List Answer) (es fs : List Event) :
    (s.heard as es).heard bs fs = s.heard bs (es ++ fs) := by
  simp [State.heard, State.after, wpLineAfter_append, markLinesAfter_append]

theorem State.heard_self (s : State) : s.heard s.answers [] = s := by simp [State.heard, State.after, wpLineAfter, markLinesAfter]

/-- The event drives no line. -/
def Event.quiet (e : Event) : Bool :=
  match e.transaction with
  | .setWP _ => false
  | .mark _ => false
  | _ => true

/-- No event of the conversation drives a line. -/
def Talk.Quiet (t : Talk) : Prop := ∀ e ∈ t.events, e.quiet = true

theorem Talk.Quiet.and {t u : Talk} (h : t.Quiet) (k : u.Quiet) : (t.and u).Quiet := fun e m =>
  (List.mem_append.mp m).elim (h e) (k e)

theorem quiet_join_nil : (Talk.join []).Quiet := by simp [Talk.Quiet, Talk.join]

theorem wpLineAfter_quiet (c : Config.Params) (l : Option Bool) {es : List Event} (h : ∀ e ∈ es, e.quiet = true) :
    wpLineAfter c l es = l := by
  induction es generalizing l with
  | nil => rfl
  | cons e es ih =>
    have he := h e (by simp)
    have := ih l (fun e m => h e (by simp [m]))
    unfold Event.quiet at he
    cases ht : e.transaction <;> simp only [ht, Bool.false_eq_true] at he <;> simp [wpLineAfter, ht, this]

theorem markLinesAfter_quiet (c : Config.Params) (l : Option (BitVec 2)) {es : List Event}
    (h : ∀ e ∈ es, e.quiet = true) : markLinesAfter c l es = l := by
  induction es generalizing l with
  | nil => rfl
  | cons e es ih =>
    have he := h e (by simp)
    have := ih l (fun e m => h e (by simp [m]))
    unfold Event.quiet at he
    cases ht : e.transaction <;> simp only [ht, Bool.false_eq_true] at he <;> simp [markLinesAfter, ht, this]

theorem State.heard_quiet (s : State) (as : List Answer) {t : Talk} (h : t.Quiet) :
    s.heard as t.events = s.after as t.events := by
  unfold State.heard
  rw [wpLineAfter_quiet _ _ h, markLinesAfter_quiet _ _ h]
  rfl

theorem quiet_sends {ts : List Transaction} (h : ∀ t ∈ ts, (okEvent t).quiet = true) : (Talk.sends ts).Quiet := by
  intro e m
  simp only [Talk.sends, List.mem_map] at m
  obtain ⟨t, ht, rfl⟩ := m
  exact h t ht

theorem quiet_reads {c : Config.Params} {n : Nat} {t : Talk} {d : List Byte} (h : Reads c n t d) : t.Quiet := by
  obtain ⟨raws, -, rfl⟩ := h
  intro e m
  simp only [readEvents, List.mem_map] at m
  obtain ⟨r, -, rfl⟩ := m
  rfl

theorem quiet_waits {c : Config.Params} {t : Talk} (h : Waits c t) : t.Quiet := by
  obtain ⟨j, -, rfl⟩ := h
  intro e m
  simp only [pollEvents, List.mem_map] at m
  obtain ⟨r, -, rfl⟩ := m
  rfl

theorem quiet_commandAndAddress (b : Byte) (as : List Byte) : (Talk.sends (commandAndAddress b as)).Quiet := by
  refine quiet_sends ?_
  intro t m
  simp only [commandAndAddress, List.mem_cons, List.mem_map] at m
  rcases m with rfl | ⟨a, -, rfl⟩ <;> rfl

/-! ## What is played -/

/-- The sequencer goes past `items` while the conversation takes place, in every state with these parameters, this geometry
and this write-protect flag; only the lines, the answers and the trace change. -/
def Plays (c : Config.Params) (g : Geometry) (w : Bool) (q : Seq) (items : List Item) (t : Talk) (q' : Seq) : Prop :=
  ∀ (s : State) (as : List Answer), s.resetInput = false → s.cfg = c → s.geo = g → s.wpProtect = w →
    s.answers = t.answers ++ as → Goes t.events.length s q items (s.heard as t.events) q'

/-- The sequencer raises the error `r` in `items`, at the end of the conversation. -/
def Fails (c : Config.Params) (g : Geometry) (w : Bool) (q : Seq) (items : List Item) (t : Talk) (r : Response) : Prop :=
  ∃ q' : Seq, q'.op = q.op ∧ q'.saved = q.saved ∧
    ∀ (s : State) (as : List Answer), s.resetInput = false → s.cfg = c → s.geo = g → s.wpProtect = w →
      s.answers = t.answers ++ as →
      ∀ rest, Runs t.events.length (settle s q (items ++ rest)) (raise (s.heard as t.events) q' r)

variable {c : Config.Params} {g : Geometry} {w : Bool} {q p r : Seq} {xs ys items : List Item} {t u : Talk}

theorem Plays.nil : Plays c g w q [] (.join []) q := by
  intro s as _ _ _ _ ha
  obtain rfl : s.answers = as := ha
  show Goes 0 s q [] (s.heard s.answers []) q
  rw [State.heard_self]
  exact .nil s q

theorem Plays.append (h : Plays c g w q xs t p) (k : Plays c g w p ys u r) : Plays c g w q (xs ++ ys) (t.and u) r := by
  intro s as hr hc hg hw ha
  have h1 := h s (u.answers ++ as) hr hc hg hw (by rw [ha, Talk.and, List.append_assoc])
  have h2 := k (s.heard (u.answers ++ as) t.events) as hr hc hg hw rfl
  rw [State.heard_heard] at h2
  have := h1.append h2
  rwa [← List.length_append] at this

theorem Plays.cons {x : Item} (h : Plays c g w q [x] t p) (k : Plays c g w p ys u r) :
    Plays c g w q (x :: ys) (t.and u) r := h.append k

theorem Plays.thenFails {e : Response} (h : Plays c g w q xs t p) (k : Fails c g w p ys u e) (ho : p.op = q.op)
    (hs : p.saved = q.saved) : Fails c g w q (xs ++ ys) (t.and u) e := by
  obtain ⟨q', h1, h2, k⟩ := k
  refine ⟨q', h1.trans ho, h2.trans hs, ?_⟩
  intro s as hr hc hg hw ha rest
  have a1 := h s (u.answers ++ as) hr hc hg hw (by rw [ha, Talk.and, List.append_assoc])
  have a2 := k (s.heard (u.answers ++ as) t.events) as hr hc hg hw rfl rest
  rw [State.heard_heard] at a2
  rw [List.append_assoc]
  have := (a1 _).trans a2
  rwa [← List.length_append] at this

theorem Fails.before {e : Response} (h : Fails c g w q xs t e) : Fails c g w q (xs ++ ys) t e := by
  obtain ⟨q', h1, h2, h⟩ := h
  refine ⟨q', h1, h2, fun s as hr hc hg hw ha rest => ?_⟩
  rw [List.append_assoc]
  exact h s as hr hc hg hw ha _

/-- A transaction answered ok that drives no line. -/
theorem plays_of_goes {it : Item} {tr : Transaction} (hq : (okEvent tr).quiet = true)
    (h : ∀ (s : State) (as : List Answer), s.resetInput = false → s.answers = .ok :: as →
      Goes 1 s q [it] (s.after as [okEvent tr]) q) : Plays c g w q [it] (.sends [tr]) q := by
  intro s as hr _ _ _ ha
  rw [State.heard_quiet s as (quiet_sends (by simpa using hq))]
  exact h s as hr ha

theorem plays_cmd {b : Byte} {i : Instr} (hd : decodeCommand b = .ok i) :
    Plays c g w q [.cmd b] (.sends [.cmd b]) q := plays_of_goes rfl fun _ _ hr ha => goes_cmd hr hd ha

theorem plays_addr (b : Byte) : Plays c g w q [.addr b] (.sends [.addr b]) q :=
  plays_of_goes rfl fun _ _ hr ha => goes_addr hr ha

theorem plays_mark (m : MarkPattern) : Plays c g w q [.mark m] (.sends [.mark m]) q := by
  intro s as hr _ _ _ ha
  exact goes_mark hr ha

theorem plays_dataOut (d : List Byte) :
    Plays c g w q [.dataOut d] (.sends (if d = [] then [] else [.dataOut d])) q := by
  cases d with
  | nil =>
    intro s as _ _ _ _ ha
    obtain rfl : s.answers = as := ha
    show Goes 0 s q [.dataOut []] (s.heard s.answers []) q
    rw [State.heard_self]
    exact goes_dataOut_nil s q
  | cons b bs => exact plays_of_goes rfl fun _ _ hr ha => goes_dataOut hr ha

theorem plays_delay : Plays c g w q [.delay] (.delay c) q := by
  intro s as hr hc _ _ ha
  obtain rfl : s.answers = as := ha
  rw [State.heard_quiet _ _ (by intro e m; simp only [Talk.delay, List.mem_singleton] at m; subst m; rfl)]
  have := goes_delay (q := q) hr
  rwa [hc] at this

theorem plays_addresses (a n : Nat) :
    Plays c g w q (addressItems a n) (.sends ((encodeAddress a n).map .addr)) q := by
  unfold addressItems
  generalize encodeAddress a n = bs
  induction bs with
  | nil => exact .nil
  | cons b bs ih =>
    rw [List.map_cons, List.map_cons, Talk.sends_cons]
    exact (plays_addr b).cons ih

theorem plays_encode {b : Byte} {i : Instr} (hd : decodeCommand b = .ok i) (a n : Nat) :
    Plays c g w q (encodeItems b a n) (.sends (commandAndAddress b (encodeAddress a n))) q := by
  unfold encodeItems commandAndAddress
  rw [Talk.sends_cons]
  exact (plays_cmd hd).cons (plays_addresses a n)

theorem plays_wait (h : Waits c t) (hp : q.poll = 0) : Plays c g w q [.waitReady] t q := by
  intro s as hr hc _ _ ha
  rw [State.heard_quiet _ _ (quiet_waits h)]
  obtain ⟨j, hj, rfl⟩ := h
  have := goes_waitReady (q := q) hr (by rw [hc, hp, Nat.zero_add]; exact hj) ha
  have e : ({ q with poll := 0 } : Seq) = q := by rw [← hp]
  rw [e] at this
  have hl : (pollEvents (pollAnswers j)).length = j + 1 := by simp [pollEvents, pollAnswers]
  rwa [hl]

theorem plays_read {n : Nat} {d : List Byte} (h : Reads c n t d) :
    Plays c g w q [.readData n] t { q with buf := q.buf ++ d } := by
  intro s as hr hc _ _ ha
  rw [State.heard_quiet _ _ (quiet_reads h)]
  obtain ⟨raws, hraws, rfl⟩ := h
  have := goes_readData (q := q) hr hc hraws ha
  simpa [readEvents] using this

/-- An action that goes on, whatever the state. -/
theorem plays_act {a : Action}
    (h : ∀ s : State, s.cfg = c → s.geo = g → s.wpProtect = w → runAction a s q = .go s p) :
    Plays c g w q [.act a] (.join []) p := by
  intro s as _ hc hg hw ha
  obtain rfl : s.answers = as := ha
  show Goes 0 s q [.act a] (s.heard s.answers []) p
  rw [State.heard_self]
  exact goes_act (h s hc hg hw)

/-- An action that goes on through further items. -/
theorem plays_push {a : Action}
    (h : ∀ s : State, s.cfg = c → s.geo = g → s.wpProtect = w → runAction a s q = .push s p items)
    (hs : StartsAt items) (k : Plays c g w p items t r) : Plays c g w q [.act a] t r := by
  intro s as hr hc hg hw ha
  exact goes_push (h s hc hg hw) hs (k s as hr hc hg hw ha)

theorem fails_push {a : Action} {e : Response}
    (h : ∀ s : State, s.cfg = c → s.geo = g → s.wpProtect = w → runAction a s q = .push s p items)
    (hs : StartsAt items) (k : Fails c g w p items t e) (ho : p.op = q.op) (hv : p.saved = q.saved) :
    Fails c g w q [.act a] t e := by
  obtain ⟨q', h1, h2, k⟩ := k
  refine ⟨q', h1.trans ho, h2.trans hv, fun s as hr hc hg hw ha rest => ?_⟩
  rw [List.singleton_append, settle_act, h s hc hg hw]
  have := k s as hr hc hg hw ha rest
  rwa [settle_startsAt (hs.append rest)] at this

/-- An action that raises an error. -/
theorem fails_act {a : Action} {e : Response}
    (h : ∀ s : State, s.cfg = c → s.geo = g → s.wpProtect = w → runAction a s q = .fail s p e)
    (ho : p.op = q.op) (hv : p.saved = q.saved) : Fails c g w q [.act a] (.join []) e := by
  refine ⟨p, ho, hv, fun s as _ hc hg hw ha rest => ?_⟩
  obtain rfl : s.answers = as := ha
  rw [List.singleton_append, settle_act, h s hc hg hw]
  have : (s.heard s.answers (Talk.join []).events) = s := State.heard_self s
  rw [this]
  exact runs_zero _

/-! ## The procedures -/

theorem plays_status {st : Byte} (h : ReadsStatus c t st) (hb : q.buf = []) :
    Plays c g w q readStatusItems t { q with status := some st } := by
  obtain ⟨r, hr, rfl⟩ := h
  rw [Talk.join_cons, Talk.join_cons]
  refine (plays_cmd (i := .nandGetStatus) rfl).cons ((plays_read hr).cons (plays_act ?_))
  intro s _ _ _
  simp [runAction, takeStatus, hb]

theorem encodeAddress_five (a : Nat) : encodeAddress a 5 = rowBytes a 5 := by
  simp [encodeAddress, rowBytes, List.range, List.range.loop, Nat.shiftRight_eq_div_pow, Nat.div_div_eq_div_mul]

theorem encodeAddress_page (hg : g.addressCycleCount = 5) (n : Nat) :
    encodeAddress (pageAddressWord g n) g.addressCycleCount = pageAddressBytes g n := by
  have z8 : ∀ m : Nat, BitVec.ofNat 8 (m * 2 ^ 8) = 0x00#8 := by
    intro m
    apply BitVec.eq_of_toNat_eq
    simp
  have d8 : ∀ m : Nat, (m * 2 ^ 8) >>> 8 = m := by
    intro m
    rw [Nat.shiftRight_eq_div_pow]
    omega
  have sh : ∀ m k : Nat, (m / k) >>> 8 = m / (k * 256) := by
    intro m k
    rw [Nat.shiftRight_eq_div_pow, Nat.div_div_eq_div_mul]
  have s0 : ∀ m : Nat, m >>> 8 = m / 256 := fun m => Nat.shiftRight_eq_div_pow m 8
  rw [hg]
  unfold pageAddressWord colShift pageAddressBytes
  cases g.largePage with
  | true =>
    simp only [if_true, Config.columnShiftLarge, Nat.shiftLeft_eq]
    rw [show n * 2 ^ 16 = n * 2 ^ 8 * 2 ^ 8 by ring]
    simp only [encodeAddress, z8, d8]
    simp [rowBytes, List.range, List.range.loop, s0, Nat.div_div_eq_div_mul]
  | false =>
    simp only [Bool.false_eq_true, if_false, Config.columnShiftLegacy, Nat.shiftLeft_eq]
    simp only [encodeAddress, z8, d8]
    simp [rowBytes, List.range, List.range.loop, s0, Nat.div_div_eq_div_mul]

theorem encodeAddress_erase (hg : g.addressCycleCount = 5) (b : Nat) :
    encodeAddress (eraseAddressWord g b) (rowCycles g) = eraseAddressBytes g b := by
  have s0 : ∀ m : Nat, m >>> 8 = m / 256 := fun m => Nat.shiftRight_eq_div_pow m 8
  unfold eraseAddressWord rowCycles colCycles colShift eraseAddressBytes
  rw [hg]
  cases g.largePage <;>
    simp [Config.columnShiftLarge, Config.columnShiftLegacy, encodeAddress, rowBytes, List.range, List.range.loop, s0,
      Nat.div_div_eq_div_mul]

/-- `ReadPage` (R211 to R213). -/
theorem plays_subRead {b : Byte} {i : Instr} {n m : Nat} {d : List Byte} (hd : decodeCommand b = .ok i)
    (hg : g.addressCycleCount = 5) (hp : q.poll = 0) (h : SubReads c g b n m t d) :
    Plays c g w q (legacySubRead g b n m) t { q with buf := q.buf ++ d } := by
  obtain ⟨tw, tr, hw, hr, rfl⟩ := h
  rw [Talk.join_three]
  have e := plays_encode (c := c) (g := g) (w := w) (q := q) hd (pageAddressWord g n) g.addressCycleCount
  rw [encodeAddress_page hg] at e
  exact e.append ((plays_wait hw hp).cons (plays_read hr))

theorem plays_readPage {n : Nat} {oob : Bool} {d : List Byte} (hg : g.addressCycleCount = 5) (hp : q.poll = 0)
    (h : ReadsPage c g n oob t d) : Plays c g w q (readPageItems g n oob) t { q with buf := q.buf ++ d } := by
  unfold ReadsPage at h
  unfold readPageItems
  cases hl : g.largePage with
  | true =>
    simp only [hl, if_true] at h ⊢
    obtain ⟨tw, tr, hw, hr, rfl⟩ := h
    rw [Talk.join_three, Talk.sends_append, Talk.and_assoc]
    have e := plays_encode (c := c) (g := g) (w := w) (q := q) (b := Config.cmdRead) (i := .nandRead) rfl
      (pageAddressWord g n) g.addressCycleCount
    rw [encodeAddress_page hg] at e
    exact e.append ((plays_cmd (i := .nandReadStart) rfl).cons ((plays_wait hw hp).cons (plays_read hr)))
  | false =>
    simp only [hl, Bool.false_eq_true, if_false] at h ⊢
    obtain ⟨t₁, t₂, d₁, d₂, h₁, h₂, h⟩ := h
    have p₁ := plays_subRead (w := w) (b := Config.cmdRead) (i := .nandRead) rfl hg hp h₁
    have p₂ := plays_subRead (w := w) (q := { q with buf := q.buf ++ d₁ }) (b := Config.cmdRead1) (i := .nandRead1) rfl
      hg hp h₂
    unfold readPageLegacy
    cases oob with
    | true =>
      simp only [if_true] at h ⊢
      obtain ⟨t₃, d₃, h₃, rfl, rfl⟩ := h
      have p₃ := plays_subRead (w := w) (q := { q with buf := q.buf ++ d₁ ++ d₂ }) (b := Config.cmdReadOob)
        (i := .nandReadOob) rfl hg hp h₃
      have := (p₁.append p₂).append p₃
      rw [Talk.and_assoc, ← Talk.join_three] at this
      simpa using this
    | false =>
      simp only [Bool.false_eq_true, if_false] at h ⊢
      obtain ⟨rfl, rfl⟩ := h
      have := p₁.append p₂
      rw [← Talk.join_two] at this
      simpa using this

theorem length_replies {n : Nat} {raws : List (List Byte)} {d : List Byte} (h : Replies c n raws d) : d.length = n := by
  induction raws generalizing n d with
  | nil => obtain ⟨rfl, rfl⟩ := h; rfl
  | cons raw raws ih =>
    obtain ⟨hn, hl, more, rfl, hm⟩ := h
    rw [List.length_append, ih hm, length_usefulBytes hl]
    have := chunkSize_le c n
    omega

theorem length_reads {n : Nat} {d : List Byte} (h : Reads c n t d) : d.length = n := by
  obtain ⟨raws, h, -⟩ := h
  exact length_replies h

theorem length_readsPage {n : Nat} {oob : Bool} {d : List Byte} (hg : g.Wf) (h : ReadsPage c g n oob t d) :
    d.length = if oob then g.rawPageSize else g.pageSize := by
  unfold ReadsPage at h
  cases hl : g.largePage with
  | true =>
    simp only [hl, if_true] at h
    obtain ⟨_, _, _, hr, _⟩ := h
    exact length_reads hr
  | false =>
    have hv := hg.valid
    have hraw := hg.raw
    simp [geometryValid, hl] at hv
    simp only [hl, Bool.false_eq_true, if_false] at h
    obtain ⟨t₁, t₂, d₁, d₂, ⟨_, _, _, h₁, _⟩, ⟨_, _, _, h₂, _⟩, h⟩ := h
    have l₁ := length_reads h₁
    have l₂ := length_reads h₂
    cases oob with
    | true =>
      simp only [if_true] at h ⊢
      obtain ⟨t₃, d₃, ⟨_, _, _, h₃, _⟩, -, rfl⟩ := h
      have l₃ := length_reads h₃
      simp only [List.length_append]
      omega
    | false =>
      simp only [Bool.false_eq_true, if_false] at h ⊢
      obtain ⟨-, rfl⟩ := h
      simp only [List.length_append]
      omega

theorem quiet_subReads {b : Byte} {n m : Nat} {d : List Byte} (h : SubReads c g b n m t d) : t.Quiet := by
  obtain ⟨_, _, hw, hr, rfl⟩ := h
  rw [Talk.join_three]
  exact (quiet_commandAndAddress _ _).and ((quiet_waits hw).and (quiet_reads hr))

theorem quiet_readsPage {n : Nat} {oob : Bool} {d : List Byte} (h : ReadsPage c g n oob t d) : t.Quiet := by
  unfold ReadsPage at h
  split at h
  · obtain ⟨_, _, hw, hr, rfl⟩ := h
    rw [Talk.join_three, Talk.sends_append]
    exact ((quiet_commandAndAddress _ _).and (quiet_sends (by simp; rfl))).and ((quiet_waits hw).and (quiet_reads hr))
  · obtain ⟨_, _, _, _, h₁, h₂, h⟩ := h
    split at h
    · obtain ⟨_, _, h₃, rfl, -⟩ := h
      rw [Talk.join_three]
      exact (quiet_subReads h₁).and ((quiet_subReads h₂).and (quiet_subReads h₃))
    · obtain ⟨rfl, -⟩ := h
      rw [Talk.join_two]
      exact (quiet_subReads h₁).and (quiet_subReads h₂)

/-! ## Program -/

theorem plays_attempt {a : Attempt} {ptr : List Byte} {st : Byte} (hg : g.addressCycleCount = 5) (hp : q.poll = 0)
    (hb : q.buf = []) (ha : a.address = pageAddressWord g a.page) (hk : a.known)
    (hptr : pointerItems a.pointer = ptr.map .cmd) (h : Attempts c g ptr a.page a.data t st) :
    Plays c g w q (programAttempt g a) t { q with status := some st } := by
  obtain ⟨tw, tr, hw, hr, rfl⟩ := h
  rw [Talk.join_three, Talk.sends_append, Talk.sends_append, Talk.sends_append]
  unfold programAttempt
  have e : Plays c g w q (encodeItems Config.cmdSeqin a.address g.addressCycleCount)
      (.sends (commandAndAddress 0x80#8 (pageAddressBytes g a.page))) q := by
    rw [ha, ← encodeAddress_page hg]
    exact plays_encode (i := .nandSeqin) rfl _ _
  have hptrs : Plays c g w q (pointerItems a.pointer) (.sends (ptr.map .cmd)) q := by
    cases hpt : a.pointer with
    | none =>
      rw [hpt] at hptr
      have : ptr = [] := by simpa [pointerItems] using hptr.symm
      subst this
      exact .nil
    | some b =>
      rw [hpt] at hptr
      have : ptr = [b] := by
        cases ptr with
        | nil => simp [pointerItems] at hptr
        | cons x xs =>
          simp [pointerItems] at hptr
          obtain ⟨rfl, h⟩ := hptr
          simp [h]
      subst this
      have hm := hk b hpt
      rw [commandBytes, List.contains_iff_mem, List.mem_map] at hm
      obtain ⟨⟨b', i⟩, hm, rfl⟩ := hm
      refine plays_cmd (i := i) ?_
      simp only [commandTable, List.mem_cons, Prod.mk.injEq, List.not_mem_nil, or_false] at hm
      rcases hm with h | h | h | h | h | h | h | h | h | h | h | h | h <;> obtain ⟨rfl, rfl⟩ := h <;> rfl
  have tail : Plays c g w q [.dataOut a.data, .cmd Config.cmdPageprog, .waitReady]
      ((Talk.sends (if a.data = [] then [] else [.dataOut a.data])).and ((Talk.sends [.cmd 0x10#8]).and tw)) q :=
    (plays_dataOut _).cons ((plays_cmd (i := .nandPageprog) rfl).cons (plays_wait hw hp))
  have := ((hptrs.append e).append tail).append (plays_status hr hb)
  simpa only [Talk.and_assoc] using this

theorem attempts_retry {a : Attempt} {ptr : List Byte} {st : Byte} {n : Nat} (hg : g.addressCycleCount = 5)
    (ha : a.address = pageAddressWord g a.page) (hk : a.known) (hptr : pointerItems a.pointer = ptr.map .cmd) :
    ∀ {q : Seq} {t : Talk}, q.poll = 0 → q.buf = [] → q.retry + n ≤ c.programRetryLimit →
      AttemptsFail c g ptr a.page a.data n t st →
      (∀ {u : Talk} {r : Seq},
        Plays c g w { q with retry := q.retry + n, status := some st } (programWithRetry g a) u r →
        Plays c g w q (programWithRetry g a) (t.and u) r) ∧
      (∀ {u : Talk} {e : Response},
        Fails c g w { q with retry := q.retry + n, status := some st } (programWithRetry g a) u e →
        Fails c g w q (programWithRetry g a) (t.and u) e) := by
  have one : ∀ {q : Seq} {t : Talk} {st : Byte}, q.poll = 0 → q.buf = [] → q.retry < c.programRetryLimit →
      Attempts c g ptr a.page a.data t st → statusFailed st = true →
      (∀ {u : Talk} {r : Seq},
        Plays c g w { q with retry := q.retry + 1, status := some st } (programWithRetry g a) u r →
        Plays c g w q (programWithRetry g a) (t.and u) r) ∧
      (∀ {u : Talk} {e : Response},
        Fails c g w { q with retry := q.retry + 1, status := some st } (programWithRetry g a) u e →
        Fails c g w q (programWithRetry g a) (t.and u) e) := by
    intro q t st hp hb hl h hf
    have h1 := plays_attempt (w := w) hg hp hb ha hk hptr h
    have push : ∀ s : State, s.cfg = c → s.geo = g → s.wpProtect = w →
        runAction (.programVerdict a) s { q with status := some st } =
          .push s { q with retry := q.retry + 1, status := some st } (programWithRetry g a) := by
      intro s hc hgeo _
      simp [runAction, programVerdict, lastStatusFailed, hf, hc, hgeo, show ¬ c.programRetryLimit ≤ q.retry by omega]
    constructor
    · intro u r k
      exact h1.append (plays_push push (startsAt_program g a) k)
    · intro u e k
      exact h1.thenFails (fails_push push (startsAt_program g a) k rfl rfl) rfl rfl
  induction n with
  | zero => intro q t _ _ _ h; exact h.elim
  | succ n ih =>
    intro q t hp hb hl h
    cases n with
    | zero => exact one hp hb (by omega) h.1 h.2
    | succ n =>
      obtain ⟨t₁, t₂, st₁, h1, hf, h2, rfl⟩ := h
      have o := one (q := q) hp hb (by omega) h1 hf
      have i := ih (q := { q with retry := q.retry + 1, status := some st₁ }) hp hb (by simp only; omega) h2
      rw [Talk.join_two]
      have e : q.retry + 1 + (n + 1) = q.retry + (n + 1 + 1) := by omega
      constructor
      · intro u r k
        rw [Talk.and_assoc]
        refine o.1 (i.1 ?_)
        simpa only [e] using k
      · intro u x k
        rw [Talk.and_assoc]
        refine o.2 (i.2 ?_)
        simpa only [e] using k

/-- `ProgramWithRetry` that succeeds (R235). -/
theorem plays_program {a : Attempt} {ptr : List Byte} {st : Byte} (hg : g.addressCycleCount = 5) (hp : q.poll = 0)
    (hb : q.buf = []) (hr : q.retry = 0) (ha : a.address = pageAddressWord g a.page) (hk : a.known)
    (hptr : pointerItems a.pointer = ptr.map .cmd) (h : Programs c g ptr a.page a.data t st) :
    Plays c g w q (programWithRetry g a) t { q with status := some st } := by
  obtain ⟨hf, h⟩ := h
  have last : ∀ {q : Seq} {t : Talk}, q.poll = 0 → q.buf = [] → Attempts c g ptr a.page a.data t st →
      Plays c g w q (programWithRetry g a) t { q with status := some st, retry := 0 } := by
    intro q t hp hb h
    have := (plays_attempt (w := w) hg hp hb ha hk hptr h).append (plays_act (a := .programVerdict a)
      (p := { q with status := some st, retry := 0 }) (fun s _ _ _ => by
        simp [runAction, programVerdict, lastStatusFailed, hf]))
    rwa [Talk.and_nil] at this
  rcases h with h | ⟨n, t₁, t₂, st₁, hn, h1, h2, rfl⟩
  · have := last hp hb h
    rwa [← hr] at this
  · rw [Talk.join_two]
    have := (attempts_retry hg ha hk hptr hp hb (by omega) h1).1 (last (by exact hp) (by exact hb) h2)
    simpa only [← hr] using this

/-- `ProgramWithRetry` that raises PROGRAM_FAILURE (R235). -/
theorem fails_program {a : Attempt} {ptr : List Byte} {st : Byte} (hg : g.addressCycleCount = 5) (hp : q.poll = 0)
    (hb : q.buf = []) (hr : q.retry = 0) (ha : a.address = pageAddressWord g a.page) (hk : a.known)
    (hptr : pointerItems a.pointer = ptr.map .cmd) (h : ProgramFails c g ptr a.page a.data t st) :
    Fails c g w q (programWithRetry g a) t (programFailure { q with status := some st } a.page) := by
  have last : ∀ {q : Seq} {t : Talk} {st : Byte}, q.poll = 0 → q.buf = [] → q.retry = c.programRetryLimit →
      Attempts c g ptr a.page a.data t st → statusFailed st = true →
      Fails c g w q (programWithRetry g a) t (programFailure { q with status := some st } a.page) := by
    intro q t st hp hb hq h hf
    have := (plays_attempt (w := w) hg hp hb ha hk hptr h).thenFails (fails_act (a := .programVerdict a)
      (p := { q with status := some st }) (e := programFailure { q with status := some st } a.page)
      (fun s hc _ _ => by simp [runAction, programVerdict, lastStatusFailed, hf, hc, hq]) rfl rfl) rfl rfl
    rwa [Talk.and_nil] at this
  have split : ∀ {n : Nat} {t : Talk}, AttemptsFail c g ptr a.page a.data (n + 2) t st →
      ∃ t₁ t₂ st₁, AttemptsFail c g ptr a.page a.data (n + 1) t₁ st₁ ∧ Attempts c g ptr a.page a.data t₂ st ∧
        statusFailed st = true ∧ t = t₁.and t₂ := by
    intro n
    induction n with
    | zero =>
      rintro t ⟨t₁, t₂, st₁, h1, hf, h2, rfl⟩
      exact ⟨t₁, t₂, st₁, ⟨h1, hf⟩, h2.1, h2.2, Talk.join_two _ _⟩
    | succ n ih =>
      rintro t ⟨t₁, t₂, st₁, h1, hf, h2, rfl⟩
      obtain ⟨u₁, u₂, st₂, k1, k2, k3, rfl⟩ := ih h2
      exact ⟨t₁.and u₁, u₂, st₂, ⟨t₁, u₁, st₁, h1, hf, k1, (Talk.join_two _ _).symm⟩, k2, k3,
        by rw [Talk.join_two, Talk.and_assoc]⟩
  unfold ProgramFails at h
  cases hl : c.programRetryLimit with
  | zero =>
    rw [hl] at h
    exact last hp hb (by rw [hr, hl]) h.1 h.2
  | succ n =>
    rw [hl, Nat.add_comm] at h
    obtain ⟨t₁, t₂, st₁, k1, k2, k3, rfl⟩ := split h
    have := (attempts_retry (w := w) hg ha hk hptr hp hb (by omega) k1).2
      (last (st := st) (by exact hp) (by exact hb) (by simp only; omega) k2 k3)
    convert this using 1
    unfold programFailure
    dsimp only

/-! ## The guard -/

theorem plays_guarded (h : Plays c g false { q with saved := some true } xs t { p with saved := some true }) (hps : p.saved = none)
    (hpp : p.pending = none) : Plays c g true q (guarded xs) t.guarded p := by
  intro s as hr hc hg hw ha
  rw [Talk.guarded_eq] at ha ⊢
  have h1 := goes_guardOpen (q := q) (as := t.answers ++ (.ok :: as)) hr (by rw [ha]; simp [Talk.sends, Talk.and])
  rw [hw] at h1
  have h2 := h { s.heard (t.answers ++ (.ok :: as)) [okEvent (.setWP false)] with wpProtect := false } (.ok :: as) hr hc
    hg rfl rfl
  have h3 := goes_guardClose (s := { s.heard (.ok :: as) ([okEvent (.setWP false)] ++ t.events) with wpProtect := false })
    (q := { p with saved := some true }) (as := as) (p := true) hr rfl rfl hpp
  have e1 : { s.after (t.answers ++ (.ok :: as)) [okEvent (.setWP false)] with
      wpProtect := false, wpLine := some (!s.cfg.wpProtectLevel) } =
      { s.heard (t.answers ++ (.ok :: as)) [okEvent (.setWP false)] with wpProtect := false } := rfl
  have e2 : State.heard { s.heard (t.answers ++ (.ok :: as)) [okEvent (.setWP false)] with wpProtect := false }
      (.ok :: as) t.events =
      { s.heard (.ok :: as) ([okEvent (.setWP false)] ++ t.events) with wpProtect := false } := by
    have := State.heard_heard s (t.answers ++ (.ok :: as)) (.ok :: as) [okEvent (.setWP false)] t.events
    rw [← this]
    rfl
  rw [e1] at h1
  rw [e2] at h2
  have := h1.cons (h2.append h3)
  have e3 : ({ ({ s.heard (.ok :: as) ([okEvent (.setWP false)] ++ t.events) with wpProtect := false } : State).after as
      [okEvent (.setWP true)] with wpProtect := true, wpLine := some (wpLevel s.cfg true) } : State) =
      s.heard as ([okEvent (.setWP false)] ++ (t.events ++ [okEvent (.setWP true)])) := by
    have := State.heard_heard s (.ok :: as) as ([okEvent (.setWP false)] ++ t.events) [okEvent (.setWP true)]
    rw [← List.append_assoc, ← this]
    conv_rhs => rw [State.heard]
    rw [← hw]
    rfl
  have e4 : ({ p with saved := none, pending := none } : Seq) = p := by rw [← hps, ← hpp]
  have e3' : ({ ({ s.heard (.ok :: as) ([okEvent (.setWP false)] ++ t.events) with wpProtect := false } : State).after as
      [okEvent (.setWP true)] with wpProtect := true, wpLine := some (wpLevel ({ s.heard (.ok :: as) ([okEvent (.setWP false)] ++ t.events) with wpProtect := false } : State).cfg true) } : State) =
      s.heard as ([okEvent (.setWP false)] ++ (t.events ++ [okEvent (.setWP true)])) := e3
  rw [e3'] at this
  have e5 : ({ ({ p with saved := some true } : Seq) with saved := none, pending := none } : Seq) = p := e4
  rw [e5] at this
  have hl : ((Talk.sends [.setWP false]).and (t.and (Talk.sends [.setWP true]))).events.length =
      1 + (t.events.length + 1) := by
    simp [Talk.sends, Talk.and]
    omega
  rw [hl]
  exact this


/-- The operation ends with the response `e`, which is no protocol-level error, at the end of the conversation. -/
def Ends (c : Config.Params) (g : Geometry) (q : Seq) (items : List Item) (t : Talk) (e : Response) : Prop :=
  ∀ (s : State) (as : List Answer), s.resetInput = false → s.cfg = c → s.geo = g → s.wpProtect = true →
    s.answers = t.answers ++ as →
    Runs t.events.length (settle s q items) ((s.heard as t.events).responded e)

theorem raise_plain {s : State} {q : Seq} {e : Response} (hs : q.saved = none) (h : protocolError e.code = none) :
    raise s q e = s.responded e := by
  unfold raise postError
  rw [hs]
  dsimp only
  rw [h]
  rfl

theorem Fails.ends {e : Response} (h : Fails c g true q xs t e) (hs : q.saved = none)
    (he : protocolError e.code = none) (ys : List Item) : Ends c g q (xs ++ ys) t e := by
  obtain ⟨q', _, hsv, h⟩ := h
  intro s as hr hc hg hw ha
  have := h s as hr hc hg hw ha ys
  rwa [raise_plain (hsv.trans hs) he] at this

theorem Plays.thenEnds {e : Response} (h : Plays c g true q xs t p) (k : Ends c g p ys u e) :
    Ends c g q (xs ++ ys) (t.and u) e := by
  intro s as hr hc hg hw ha
  have h1 := h s (u.answers ++ as) hr hc hg hw (by rw [ha, Talk.and, List.append_assoc])
  have h2 := k (s.heard (u.answers ++ as) t.events) as hr hc hg hw rfl
  rw [State.heard_heard] at h2
  have := (h1 ys).trans h2
  rwa [← List.length_append] at this

theorem ends_nil {e : Response} (h : ∀ s : State, s.cfg = c → s.geo = g → okResponse s q = e) : Ends c g q [] (.join []) e := by
  intro s as hr hc hg hw ha
  obtain rfl : s.answers = as := ha
  show Runs 0 (settle s q []) ((s.heard s.answers []).responded e)
  rw [State.heard_self, settle_nil, h s hc hg]
  exact runs_zero _

theorem Plays.ends {e : Response} (h : Plays c g true q xs t p)
    (he : ∀ s : State, s.cfg = c → s.geo = g → okResponse s p = e) : Ends c g q xs t e := by
  have := h.thenEnds (ends_nil he)
  rwa [List.append_nil, Talk.and_nil] at this

/-- The restore after an error that is no protocol-level error (R157, R345). -/
theorem step_restore {z : State} {q : Seq} {v : Bool} {e : Response} {as : List Answer} (hr : z.resetInput = false)
    (hq : z.seq = some q) (ht : q.todo = [.guardClose]) (hv : q.saved = some v) (hp : q.pending = some e)
    (he : protocolError e.code = none) (ha : z.answers = .ok :: as) :
    step z = .next ({ z.after as [okEvent (.setWP v)] with
      wpProtect := v, wpLine := some (wpLevel z.cfg v) }.responded e) := by
  rw [step_item hr hq ht (by simp)]
  simp only [performItem, guardCloseItem, hv, Option.getD_some]
  rw [transact_ok ha]
  simp only [afterRestore, hp, postError, he]
  rfl

theorem fails_guarded {e : Response} (he : protocolError e.code = none)
    (h : Fails c g false { q with saved := some true } xs t e) (ys : List Item) :
    Ends c g q (guarded xs ++ ys) t.guarded e := by
  obtain ⟨q', hop, hsv, h⟩ := h
  intro s as hr hc hg hw ha
  rw [Talk.guarded_eq] at ha ⊢
  have h1 := goes_guardOpen (q := q) (as := t.answers ++ (.ok :: as)) hr (by rw [ha]; simp [Talk.sends, Talk.and])
    (xs ++ ([.guardClose] ++ ys))
  rw [hw] at h1
  have h2 := h { s.heard (t.answers ++ (.ok :: as)) [okEvent (.setWP false)] with wpProtect := false } (.ok :: as) hr hc
    hg rfl rfl ([.guardClose] ++ ys)
  have e2 : State.heard { s.heard (t.answers ++ (.ok :: as)) [okEvent (.setWP false)] with wpProtect := false }
      (.ok :: as) t.events =
      { s.heard (.ok :: as) ([okEvent (.setWP false)] ++ t.events) with wpProtect := false } := by
    have := State.heard_heard s (t.answers ++ (.ok :: as)) (.ok :: as) [okEvent (.setWP false)] t.events
    rw [← this]
    rfl
  rw [e2] at h2
  have hraise : ∀ z : State, raise z q' e = { z with seq := some { q' with todo := [.guardClose], pending := some e } } := by
    intro z
    unfold raise
    rw [hsv]
  rw [hraise] at h2
  have h3 : step { s.heard (.ok :: as) ([okEvent (.setWP false)] ++ t.events) with
      wpProtect := false, seq := some { q' with todo := [.guardClose], pending := some e } } =
      .next ((s.heard as ([okEvent (.setWP false)] ++ (t.events ++ [okEvent (.setWP true)]))).responded e) := by
    rw [step_restore (q := { q' with todo := [.guardClose], pending := some e }) (as := as) (by exact hr) rfl rfl
      hsv rfl he rfl]
    have := State.heard_heard s (.ok :: as) as ([okEvent (.setWP false)] ++ t.events) [okEvent (.setWP true)]
    rw [← List.append_assoc, ← this]
    conv_rhs => rw [State.heard]
    unfold State.responded
    rw [← hw]
    rfl
  have := (h1.trans h2).trans (runs_one h3)
  have hl : ((Talk.sends [.setWP false]).and (t.and (Talk.sends [.setWP true]))).events.length =
      1 + t.events.length + 1 := by
    simp [Talk.sends, Talk.and]
    omega
  rw [hl]
  unfold guarded
  rw [show Item.guardOpen :: xs ++ [.guardClose] ++ ys = [.guardOpen] ++ (xs ++ ([.guardClose] ++ ys)) by simp]
  exact this

/-! ## Page writes and erases -/

/-- The items of the sub-writes (R232, R233). -/
def partItems (g : Geometry) (n : Nat) (parts : List (List Byte × List Byte)) : List Item :=
  parts.flatMap fun x => programWithRetry g
    { pointer := x.1.head?, address := pageAddressWord g n, data := x.2, page := n }

/-- The pointer of a sub-write is one known command or none. -/
def PartsKnown (parts : List (List Byte × List Byte)) : Prop :=
  ∀ x ∈ parts, x.1 = [] ∨ ∃ b, x.1 = [b] ∧ commandBytes.contains b = true

theorem writeParts_items (hg : g.Wf) (n : Nat) {buf : List Byte} (hb : buf.length = g.rawPageSize) :
    (if g.largePage then writePageLarge g n buf else writePageLegacy g n buf) = partItems g n (writeParts g buf) ∧
      PartsKnown (writeParts g buf) := by
  unfold writeParts partItems PartsKnown
  cases hl : g.largePage with
  | true => exact ⟨by simp [writePageLarge], by simp⟩
  | false =>
    have hv := hg.valid
    have hraw := hg.raw
    simp [geometryValid, hl] at hv
    constructor
    · have e1 : 2 * (g.pageSize / 2) - g.pageSize / 2 = g.pageSize / 2 := by omega
      have e2 : (buf.drop (2 * (g.pageSize / 2))).take (g.rawPageSize - 2 * (g.pageSize / 2)) =
          buf.drop (2 * (g.pageSize / 2)) := by
        apply List.take_of_length_le
        rw [List.length_drop, hb]
      simp [writePageLegacy, slice, e1, e2, Config.pointerFirst, Config.pointerSecond, Config.pointerSpare,
        Config.cmdRead, Config.cmdRead1, Config.cmdReadOob]
    · simp [commandBytes, commandTable, Config.cmdRead, Config.cmdRead1, Config.cmdReadOob]

theorem plays_parts {n : Nat} {parts : List (List Byte × List Byte)} (hg : g.addressCycleCount = 5)
    (hk : PartsKnown parts) : ∀ {q : Seq} {t : Talk} {st : Option Byte}, q.poll = 0 → q.buf = [] → q.retry = 0 →
      WritesParts c g n q.status parts t st → Plays c g w q (partItems g n parts) t { q with status := st } := by
  induction parts with
  | nil =>
    rintro q t st _ _ _ ⟨rfl, rfl⟩
    exact .nil
  | cons x parts ih =>
    rintro q t st hp hb hr ⟨t₁, t₂, st₁, h1, h2, rfl⟩
    rw [Talk.join_two]
    have k := hk x (by simp)
    have a := plays_program (c := c) (g := g) (w := w) (q := q) (t := t₁) (st := st₁) (ptr := x.1)
      (a := { pointer := x.1.head?, address := pageAddressWord g n, data := x.2, page := n }) hg hp hb hr rfl
      (by
        intro b h
        rcases k with k | ⟨b', k, kb⟩ <;> simp [k] at h
        subst h
        exact kb)
      (by rcases k with k | ⟨b', k, kb⟩ <;> simp [k, pointerItems]) h1
    have b := ih (fun y hy => hk y (by simp [hy])) (q := { q with status := some st₁ }) hp hb hr h2
    exact a.append b

theorem fails_parts {n : Nat} {parts : List (List Byte × List Byte)} (hg : g.addressCycleCount = 5)
    (hk : PartsKnown parts) : ∀ {q : Seq} {t : Talk} {st : Byte}, q.poll = 0 → q.buf = [] → q.retry = 0 →
      WritePartsFail c g n parts t st →
      Fails c g w q (partItems g n parts) t (programFailure { q with status := some st } n) := by
  induction parts with
  | nil => intro q t st _ _ _ h; exact h.elim
  | cons x parts ih =>
    intro q t st hp hb hr h
    have k := hk x (by simp)
    have k1 : ∀ b, x.1.head? = some b → commandBytes.contains b = true := by
      intro b h
      rcases k with k | ⟨b', k, kb⟩ <;> simp [k] at h
      subst h
      exact kb
    have k2 : pointerItems x.1.head? = x.1.map .cmd := by
      rcases k with k | ⟨b', k, kb⟩ <;> simp [k, pointerItems]
    rcases h with h | ⟨t₁, t₂, st₁, h1, h2, rfl⟩
    · exact (fails_program (a := { pointer := x.1.head?, address := pageAddressWord g n, data := x.2, page := n })
        hg hp hb hr rfl k1 k2 h).before
    · rw [Talk.join_two]
      have a := plays_program (c := c) (g := g) (w := w) (q := q) (t := t₁) (st := st₁) (ptr := x.1)
        (a := { pointer := x.1.head?, address := pageAddressWord g n, data := x.2, page := n }) hg hp hb hr rfl k1 k2 h1
      exact a.thenFails (ih (fun y hy => hk y (by simp [hy])) (q := { q with status := some st₁ }) hp hb hr h2) rfl rfl

/-- The locals are at rest: no wait, no retry, no guard, no error, and an empty buffer. -/
structure Seq.AtRest (q : Seq) : Prop where
  poll : q.poll = 0
  retry : q.retry = 0
  buf : q.buf = []
  saved : q.saved = none
  pending : q.pending = none

theorem plays_writeOnePage {n : Nat} {buf : List Byte} {st : Byte} (hg : g.Wf) (hq : q.AtRest)
    (hb : buf.length = g.rawPageSize) (h : WritesPage c g n buf t st) :
    Plays c g true q (writeOnePage g n buf) t { q with status := some st } := by
  obtain ⟨body, h, rfl⟩ := h
  obtain ⟨e, hk⟩ := writeParts_items hg n hb
  unfold writeOnePage
  rw [e]
  refine plays_guarded ?_ hq.saved hq.pending
  have hne : ∃ x xs, writeParts g buf = x :: xs := by
    unfold writeParts
    split <;> exact ⟨_, _, rfl⟩
  have h' : WritesParts c g n q.status (writeParts g buf) body (some st) := by
    obtain ⟨x, xs, hx⟩ := hne
    rw [hx] at h ⊢
    exact h
  have := plays_parts (w := false) hg.cycles hk (q := { q with saved := some true }) hq.poll hq.buf hq.retry h'
  exact this

theorem fails_writeOnePage {n : Nat} {buf : List Byte} {st : Byte} (hg : g.Wf) (hq : q.AtRest)
    (hb : buf.length = g.rawPageSize) (h : PageWriteFails c g n buf t st) (ys : List Item) :
    Ends c g q (writeOnePage g n buf ++ ys) t (programFailure { q with status := some st } n) := by
  obtain ⟨body, h, rfl⟩ := h
  obtain ⟨e, hk⟩ := writeParts_items hg n hb
  unfold writeOnePage
  rw [e]
  refine fails_guarded ?_ (fails_parts (w := false) hg.cycles hk (q := { q with saved := some true }) hq.poll
    hq.buf hq.retry h) ys
  unfold programFailure
  dsimp only
  split <;> rfl

theorem plays_eraseOne {b : Nat} {st : Byte} (hg : g.Wf) (hq : q.AtRest) (h : Erases c g b t st) :
    Plays c g true q (eraseOne g b) t { q with status := some st } := by
  obtain ⟨tw, tr, hw, hr, rfl⟩ := h
  unfold eraseOne
  refine plays_guarded ?_ hq.saved hq.pending
  rw [Talk.join_three, Talk.sends_append]
  have e : Plays c g false { q with saved := some true }
      (encodeItems Config.cmdEraseSetup (eraseAddressWord g b) (rowCycles g))
      (.sends (commandAndAddress 0x60#8 (eraseAddressBytes g b))) { q with saved := some true } := by
    rw [← encodeAddress_erase hg.cycles]
    exact plays_encode (i := .nandEraseSetup) rfl _ _
  have tail : Plays c g false { q with saved := some true } [.cmd Config.cmdEraseConfirm, .waitReady]
      ((Talk.sends [.cmd 0xD0#8]).and tw) { q with saved := some true } :=
    (plays_cmd (i := .nandEraseConfirm) rfl).cons (plays_wait hw hq.poll)
  have := (e.append tail).append (plays_status hr hq.buf)
  simpa only [Talk.and_assoc] using this

/-! ## Which lines a conversation drives -/

/-- No transaction of the conversation drives the sequential-read lines. -/
def Talk.NoMark (t : Talk) : Prop := ∀ e ∈ t.events, ∀ m, e.transaction ≠ .mark m

/-- A quiet conversation drives no line. -/
theorem Talk.Quiet.noMark {t : Talk} (h : t.Quiet) : Talk.NoMark t := by
  intro e m x hx
  have := h e m
  simp [Event.quiet, hx] at this

theorem Talk.NoMark.and {t u : Talk} (h : Talk.NoMark t) (k : Talk.NoMark u) : Talk.NoMark (t.and u) :=
  fun e m => (List.mem_append.mp m).elim (h e) (k e)

/-- Without a `Mark` the sequential-read lines stay (R146). -/
theorem markLinesAfter_of_noMark {c l} {es : List Event} (h : ∀ e ∈ es, ∀ m, e.transaction ≠ .mark m) :
    markLinesAfter c l es = l := by
  induction es generalizing l with
  | nil => rfl
  | cons e es ih =>
    have he := h e (by simp)
    have := ih (l := l) (fun e m => h e (by simp [m]))
    cases ht : e.transaction <;> simp [ht] at he <;> simp [markLinesAfter, ht, this]

theorem Talk.NoMark.guarded {t : Talk} (h : Talk.NoMark t) : Talk.NoMark t.guarded := by
  rw [Talk.guarded_eq]
  refine Talk.NoMark.and ?_ (Talk.NoMark.and h ?_) <;> (intro e m; simp [Talk.sends] at m; subst m; simp [okEvent])

/-- After a guard the write-protect line stands at its protecting level (R157). -/
theorem wpLineAfter_guarded {t : Talk} {c l} : wpLineAfter c l t.guarded.events = some c.wpProtectLevel := by
  rw [Talk.guarded_eq]
  simp only [Talk.and]
  rw [← List.append_assoc, wpLineAfter_append]
  rfl

/-- What a guarded conversation leaves: only the write-protect line has changed. -/
theorem heard_guarded {s : State} {as} {t : Talk} (h : Talk.NoMark t) : s.heard as t.guarded.events =
      { s.after as t.guarded.events with wpLine := some s.cfg.wpProtectLevel } := by
  unfold State.heard
  rw [wpLineAfter_guarded, markLinesAfter_of_noMark (Talk.NoMark.guarded h)]
  rfl

/-- The bodies of the guards drive no line (R155, R231, R235). -/
theorem quiet_status {c t st} (h : ReadsStatus c t st) : t.Quiet := by
  obtain ⟨r, h, rfl⟩ := h
  rw [Talk.join_two]
  exact (quiet_sends (by simp; rfl)).and (quiet_reads h)

theorem quiet_attempt {c g ptr p part t st} (h : Attempts c g ptr p part t st) : t.Quiet := by
  obtain ⟨w, r, hw, hr, rfl⟩ := h
  rw [Talk.join_three, Talk.sends_append, Talk.sends_append, Talk.sends_append]
  refine Talk.Quiet.and (((Talk.Quiet.and (quiet_sends ?_) (quiet_commandAndAddress _ _)).and
    (quiet_sends ?_)).and (quiet_sends (by simp; rfl))) ((quiet_waits hw).and (quiet_status hr))
  · simp; intro a _; rfl
  · intro t ht; split at ht <;> simp at ht; subst ht; rfl

theorem quiet_attempts {c g ptr p part n t st} (h : AttemptsFail c g ptr p part n t st) : t.Quiet := by
  induction n generalizing t st with
  | zero => exact h.elim
  | succ n ih =>
    cases n with
    | zero => exact quiet_attempt h.1
    | succ n =>
      obtain ⟨t1, t2, st1, h1, _, h2, rfl⟩ := h
      rw [Talk.join_two]
      exact (quiet_attempt h1).and (ih h2)

theorem quiet_programs {c g ptr p part t st} (h : Programs c g ptr p part t st) : t.Quiet := by
  obtain ⟨_, h | ⟨n, t1, t2, st1, _, h1, h2, rfl⟩⟩ := h
  · exact quiet_attempt h
  · rw [Talk.join_two]; exact (quiet_attempts h1).and (quiet_attempt h2)

theorem quiet_parts {c g p parts} : ∀ {b t st}, WritesParts c g p b parts t st → t.Quiet := by
  induction parts with
  | nil => rintro b t st ⟨rfl, _⟩; exact quiet_join_nil
  | cons x xs ih =>
    rintro b t st ⟨t1, t2, st1, h1, h2, rfl⟩
    rw [Talk.join_two]; exact (quiet_programs h1).and (ih h2)

theorem quiet_partsFail {c g p parts} : ∀ {t st}, WritePartsFail c g p parts t st → t.Quiet := by
  induction parts with
  | nil => intro t st h; exact h.elim
  | cons x xs ih =>
    rintro t st (h | ⟨t1, t2, st1, h1, h2, rfl⟩)
    · exact quiet_attempts h
    · rw [Talk.join_two]; exact (quiet_programs h1).and (ih h2)

/-- What a page write leaves (R230, R236). -/
theorem heard_write {s : State} {c g p buf t st as} (h : WritesPage c g p buf t st) :
    s.heard as t.events = { s.after as t.events with wpLine := some s.cfg.wpProtectLevel } := by
  obtain ⟨b, h, rfl⟩ := h
  exact heard_guarded (Talk.Quiet.noMark (quiet_parts h))

/-- What a failed page write leaves (R236). -/
theorem heard_writeFail {s : State} {c g p buf t st as} (h : PageWriteFails c g p buf t st) :
    s.heard as t.events = { s.after as t.events with wpLine := some s.cfg.wpProtectLevel } := by
  obtain ⟨b, h, rfl⟩ := h
  exact heard_guarded (Talk.Quiet.noMark (quiet_partsFail h))

theorem quiet_eraseBody {c g b w r st} (hw : Waits c w) (hr : ReadsStatus c r st) :
    (Talk.join [.sends (commandAndAddress 0x60#8 (eraseAddressBytes g b) ++ [.cmd 0xD0#8]), w, r]).Quiet := by
  rw [Talk.join_three, Talk.sends_append]
  exact ((quiet_commandAndAddress _ _).and (quiet_sends (by simp; rfl))).and ((quiet_waits hw).and (quiet_status hr))

/-- What an erase leaves (R261). -/
theorem heard_erase {s : State} {c g b t st as} (h : Erases c g b t st) :
    s.heard as t.events = { s.after as t.events with wpLine := some s.cfg.wpProtectLevel } := by
  obtain ⟨w, r, hw, hr, rfl⟩ := h
  exact heard_guarded (Talk.Quiet.noMark (quiet_eraseBody hw hr))

end Sys2Proof.Machine
end

