-- ==== Sys2Proof/Tests/Slice0.lean ====
section
/-! SUPPORT. Tests. Expected values are those of spec/95_test_vectors.md (the vector's id stands in the comment) or written
out from the rule a docstring names; and one witness for the hypotheses of each statement of Obligations.lean. -/

namespace Sys2Proof.Tests

open Sys2Proof.Machine

/-! ## WellFormed: for each check an ill-formed term it refuses -/

theorem test_flagsOk_refuses : (Instr.identify 0x01#8).flagsOk = false := by decide
theorem test_flagsOk_refuses_readPage : (Instr.readPage 0x02#8 1#32).flagsOk = false := by decide
theorem test_flagsOk_refuses_seqRead : (Instr.seqReadBlock 0x04#8 1#32).flagsOk = false := by decide
theorem test_featureAddressOk_refuses : (Instr.getFeature 0x00#8 0x100#32).featureAddressOk = false := by decide
theorem test_featureValueOk_refuses : (Instr.setFeature 0x00#8 1#32 [5#8, 0#8, 0#8]).featureValueOk = false := by decide
theorem test_rangeOk_refuses : (Instr.eraseRange 0x00#8 4#32 2#32).rangeOk = false := by decide
theorem test_berLengthsOk_refuses : (Instr.computeBer 0x00#8 [0#8] [0#8, 0#8]).berLengthsOk = false := by decide
theorem test_berNonempty_refuses : (Instr.computeBer 0x00#8 [] []).berNonempty = false := by decide
theorem test_wellFormed_accepts : (Instr.seqReadBlock 0x03#8 1#32).wellFormed = true := by decide

/-! ## Decoding: words written out from R80, R81 and R87 to R93 -/

/-- A request with a header and no payload. -/
def bare (h : Header) : PortWord := .request { header := h, payload := [] }

theorem test_decode_identify : decode (bare 0x00000000000000000001#80) = .ok (.identify 0x00#8) := rfl
/-- RD-2. -/
theorem test_decode_readPage : decode (bare 0x00000000000123450102#80) = .ok (.readPage 0x01#8 0x00012345#32) := rfl
/-- WR-1. -/
theorem test_decode_writePage : decode (.request { header := 0x00000000000000010003#80, payload := [[0x5A#8]] }) =
    .ok (.writePage 0x00#8 1#32 [0x5A#8]) := rfl
/-- P2. -/
theorem test_decode_writePages : decode (.request { header := 0x00000000000000000004#80, payload := [[1#8], [2#8]] }) =
    .ok (.writePages 0x00#8 0#32 [[1#8], [2#8]]) := rfl
/-- ER-1. -/
theorem test_decode_eraseBlock : decode (bare 0x00000000000000050005#80) = .ok (.eraseBlock 0x00#8 5#32) := rfl
/-- ER-4. -/
theorem test_decode_eraseRange : decode (bare 0x00000004000000020006#80) = .ok (.eraseRange 0x00#8 2#32 4#32) := rfl
/-- SC-1. -/
theorem test_decode_scan : decode (bare 0x00000000000000000007#80) = .ok (.scanBadBlocks 0x00#8) := rfl
/-- SQ-2. -/
theorem test_decode_seqRead : decode (bare 0x00000000000000010308#80) = .ok (.seqReadBlock 0x03#8 1#32) := rfl
/-- FT-1. -/
theorem test_decode_getFeature : decode (bare 0x00000000000000010009#80) = .ok (.getFeature 0x00#8 1#32) := rfl
/-- FT-2. -/
theorem test_decode_setFeature :
    decode (.request { header := 0x0000000000000001000A#80, payload := [[5#8, 0#8, 0#8, 0#8]] }) =
      .ok (.setFeature 0x00#8 1#32 [5#8, 0#8, 0#8, 0#8]) := rfl
/-- P1. -/
theorem test_decode_computeBer :
    decode (.request { header := 0x0000000000000000000B#80, payload := [[1#8], [2#8]] }) =
      .ok (.computeBer 0x00#8 [1#8] [2#8]) := rfl
/-- EX-3, EX-4. -/
theorem test_decode_rejects_operations :
    decode (bare 0x0000000000000000000C#80) = .error (.undefinedOperation 0x0C#8) ∧
    decode (bare 0x00000000000000000000#80) = .error (.undefinedOperation 0x00#8) := ⟨rfl, rfl⟩
/-- R87 to R93. -/
theorem test_decode_commands :
    [0x00#8, 0x01#8, 0x30#8, 0x50#8, 0x80#8, 0x10#8, 0x70#8, 0x60#8, 0xD0#8, 0x90#8, 0xEC#8, 0xEE#8, 0xEF#8].map
      (fun b => (decodeCommand b).toOption) =
    [some .nandRead, some .nandRead1, some .nandReadStart, some .nandReadOob, some .nandSeqin, some .nandPageprog,
      some .nandGetStatus, some .nandEraseSetup, some .nandEraseConfirm, some .nandReadId, some .nandReadParamPage,
      some .nandGetFeatures, some .nandSetFeatures] := by decide
/-- R96. -/
theorem test_decode_rejects_command : decode (.command 0xFF#8) = .error (.undefinedCommand 0xFF#8) := rfl
theorem test_tableWord_commands : decodeTableWord 8 0xD0 = some .nandEraseConfirm ∧
    decodeTableWord 8 0x06 = some (.eraseRange 0x00#8 0#32 0#32) ∧ decodeTableWord 8 0xFF = none := by decide
/-- The word of two rows is read as the request (log 8). -/
theorem test_tableWord_shared : decodeTableWord 8 0x01 = some (.identify 0x00#8) := by decide

/-! ## The start states of the vectors (section 0) -/

/-- The vectors' configuration; the line levels are arbitrary. -/
def cfg0 : Config.Params where
  readyPollLimitPred := 2
  programRetryLimit := 2
  featureSettleDelay := 7
  slowMode := false
  forceLegacy := false
  writeMarkerPages := 1
  bulkEraseBeforeProgram := true
  wpProtectLevel := false
  seqMarkBegin := 1#2
  seqMarkEnd := 2#2

/-- Geometry A. -/
def geoA : Geometry where
  pageSize := 4096
  oobSize := 224
  rawPageSize := 4320
  pagesPerBlock := 256
  blocksPerLun := 2048
  lunCount := 1
  blockCount := 2048
  pageCount := 524288
  blockSize := 1105920
  chipSizeMB := 2160
  addressCycleCount := 5
  bitsPerCell := 1#8
  manufacturerId := 0x2C#8
  idString := [0x54#8, 0x45#8, 0x53#8, 0x54#8, 0x43#8, 0x48#8, 0x49#8, 0x50#8] ++ List.replicate 12 0x20#8
  largePage := true

/-- Geometry S. -/
def geoS : Geometry :=
  { geoA with pageSize := 8, oobSize := 8, rawPageSize := 16, pagesPerBlock := 4, blocksPerLun := 4, blockCount := 4,
              pageCount := 16, blockSize := 64, chipSizeMB := 0 }

/-- Geometry L. -/
def geoL : Geometry := { geoS with largePage := false }

/-- Geometry S without a spare area, and with a spare area too small for the sequential read. -/
def geoBare : Geometry := { geoS with oobSize := 0, rawPageSize := 8, blockSize := 32 }
def geoSmall : Geometry := { geoS with oobSize := 4, rawPageSize := 12, blockSize := 48 }

/-- Ready(G), with answers and requests waiting. -/
def ready (g : Geometry) (as : List Answer) (rs : List Request) : State :=
  { State.reset with cfg := cfg0, idState := .ready, geom := some g, answers := as, requests := rs }

/-- Reset, configured. -/
def fresh (as : List Answer) (rs : List Request) : State :=
  { State.reset with cfg := cfg0, answers := as, requests := rs }

/-- An aborted session. -/
def abortedBy (c : AbortCause) : State := { ready geoS [] [] with abortCause := some c }

/-- An operation in progress at `todo`. -/
def busyAt (i : Instr) (todo : List Item) (as : List Answer) : State :=
  { ready geoS as [] with seq := some { op := i, todo := todo } }

/-- What remains of the program after a step, and the last response. -/
def todoOf : Host.Outcome State Fault Refusal → List Item
  | .next t => (t.seq.map (·.todo)).getD []
  | _ => []
def answerOf : Host.Outcome State Fault Refusal → Option Response
  | .next t => t.responses.getLast?
  | _ => none
def seqOf : Host.Outcome State Fault Refusal → Option Seq
  | .next t => t.seq
  | _ => none
def wpOf : Host.Outcome State Fault Refusal → Option Bool
  | .next t => some t.wpProtect
  | _ => none
def idStateOf : Host.Outcome State Fault Refusal → Option IdState
  | .next t => some t.idState
  | _ => none

/-! ## Address translation (section 2) -/

/-- AT-1 to AT-6. -/
theorem test_translation : decomposeAddress geoA 1000 = (3, 232) ∧ composeAddress geoA 3 232 = 1000 ∧
    decomposeAddress geoA 524287 = (2047, 255) ∧ decomposeAddress geoS 13 = (3, 1) := by decide
/-- AT-7, AT-11. -/
theorem test_encodeAddress : encodeAddress 0xA1B2C3 3 = [0xC3#8, 0xB2#8, 0xA1#8] ∧
    encodeAddress 0x10000000000 5 = [0#8, 0#8, 0#8, 0#8, 0#8] := by decide
/-- AT-8, AT-9, AT-13. -/
theorem test_pageAddressWord : encodeAddress (pageAddressWord geoA 0x12345) 5 = [0#8, 0#8, 0x45#8, 0x23#8, 0x01#8] ∧
    pageAddressWord geoA 524287 = 0x7FFFF0000 ∧
    encodeAddress (pageAddressWord geoL 5) 5 = [0#8, 5#8, 0#8, 0#8, 0#8] := by decide
/-- AT-10, AT-13 to AT-15. -/
theorem test_erase_and_offsets : encodeAddress (eraseAddressWord geoA 2047) (rowCycles geoA) = [0x00#8, 0xFF#8, 0x07#8] ∧
    rowCycles geoL = 4 ∧ firstPage geoA 3 = 768 ∧ markerOffset geoA = 4096 ∧ seqMarkerOffset geoA = 4101 := by decide

/-! ## Acceptance: the program an operation starts with, or its refusal -/

theorem test_identify_starts : idStateOf (exec (.identify 0x00#8) (fresh [] [])) = some .probeId ∧
    (todoOf (exec (.identify 0x00#8) (fresh [] []))).take 3 = [.cmd 0x90#8, .addr 0x00#8, .readData 8] := by decide
/-- EX-6. -/
theorem test_identify_refused : answerOf (exec (.identify 0x00#8) (abortedBy .deviceAbsent)) =
    some { code := .deviceAbsent } := by decide
/-- RD-2, with its two chunks to come. -/
theorem test_readPage : todoOf (exec (.readPage 0x01#8 0x12345#32) (ready geoA [] [])) =
    [.cmd 0x00#8, .addr 0x00#8, .addr 0x00#8, .addr 0x45#8, .addr 0x23#8, .addr 0x01#8, .cmd 0x30#8, .waitReady,
      .readData 4320] := by decide
/-- RD-7. -/
theorem test_readPage_legacy : (todoOf (exec (.readPage 0x01#8 5#32) (ready geoL [] []))).drop 8 =
    [.cmd 0x01#8, .addr 0x00#8, .addr 0x05#8, .addr 0x00#8, .addr 0x00#8, .addr 0x00#8, .waitReady, .readData 4,
      .cmd 0x50#8, .addr 0x00#8, .addr 0x05#8, .addr 0x00#8, .addr 0x00#8, .addr 0x00#8, .waitReady, .readData 8] := by
  decide
/-- WR-1, on Geometry S. -/
theorem test_writePage : (todoOf (exec (.writePage 0x00#8 4#32 (List.replicate 16 0x5A#8)) (ready geoS [] []))).take 10 =
    [.guardOpen, .cmd 0x80#8, .addr 0x00#8, .addr 0x00#8, .addr 0x04#8, .addr 0x00#8, .addr 0x00#8,
      .dataOut (List.replicate 16 0x5A#8), .cmd 0x10#8, .waitReady] := by decide
/-- WR-5, on Geometry S. -/
theorem test_writePage_refused : answerOf (exec (.writePage 0x00#8 1#32 (List.replicate 8 0#8)) (ready geoS [] [])) =
    some { code := .invalidArgument, count := some 8 } := by decide
/-- WB-2. -/
theorem test_writePages_empty : answerOf (exec (.writePages 0x00#8 0#32 []) (ready geoS [] [])) =
    some { code := .ok, count := some 0, list := some (.blocks []) } := by decide
/-- WB-7. -/
theorem test_writePages_refused :
    answerOf (exec (.writePages 0x00#8 0#32 [List.replicate 16 0#8, List.replicate 15 0#8]) (ready geoS [] [])) =
      some { code := .invalidArgument, index := some 1 } := by decide
/-- ER-1. -/
theorem test_eraseBlock : (todoOf (exec (.eraseBlock 0x00#8 5#32) (ready geoA [] []))).take 7 =
    [.guardOpen, .cmd 0x60#8, .addr 0x00#8, .addr 0x05#8, .addr 0x00#8, .cmd 0xD0#8, .waitReady] := by decide
/-- ER-3. -/
theorem test_eraseBlock_refused : answerOf (exec (.eraseBlock 0x00#8 2048#32) (ready geoA [] [])) =
    some { code := .invalidArgument, index := some 2048 } := by decide
/-- ER-4. -/
theorem test_eraseRange : (todoOf (exec (.eraseRange 0x00#8 2#32 4#32) (ready geoA [] []))).take 6 =
    [.guardOpen, .cmd 0x60#8, .addr 0x00#8, .addr 0x02#8, .addr 0x00#8, .cmd 0xD0#8] := by decide
/-- ER-5. -/
theorem test_eraseRange_refused : answerOf (exec (.eraseRange 0x00#8 4#32 2#32) (ready geoA [] [])) =
    some { code := .invalidArgument, index := some 4 } := by decide
/-- SC-3. -/
theorem test_scan_refused : answerOf (exec (.scanBadBlocks 0x00#8) (ready geoBare [] [])) =
    some { code := .invalidArgument } := by decide
/-- SQ-1: no `Cmd 30`. -/
theorem test_seqRead : (todoOf (exec (.seqReadBlock 0x00#8 1#32) (ready geoS [] []))).take 9 =
    [.mark .atBegin, .cmd 0x00#8, .addr 0x00#8, .addr 0x00#8, .addr 0x04#8, .addr 0x00#8, .addr 0x00#8, .waitReady,
      .readData 16] := by decide
/-- SQ-6. -/
theorem test_seqRead_refused : answerOf (exec (.seqReadBlock 0x00#8 1#32) (ready geoSmall [] [])) =
    some { code := .invalidArgument } := by decide
/-- FT-1. -/
theorem test_getFeature : todoOf (exec (.getFeature 0x00#8 1#32) (ready geoA [] [])) =
    [.cmd 0xEE#8, .addr 0x01#8, .delay, .readData 4] := by decide
/-- FT-4. -/
theorem test_getFeature_refused : answerOf (exec (.getFeature 0x00#8 0x100#32) (ready geoA [] [])) =
    some { code := .invalidArgument, index := some 256 } := by decide
/-- FT-6. -/
theorem test_setFeature : todoOf (exec (.setFeature 0x00#8 0x90#32 [1#8, 2#8, 3#8, 4#8]) (ready geoA [] [])) =
    [.cmd 0xEF#8, .addr 0x90#8, .delay, .dataOut [1#8, 2#8, 3#8, 4#8]] := by decide
/-- FT-3. -/
theorem test_setFeature_refused : answerOf (exec (.setFeature 0x00#8 1#32 [5#8, 0#8, 0#8]) (ready geoA [] [])) =
    some { code := .invalidArgument, count := some 3 } := by decide
/-- BE-3, BE-8. -/
theorem test_computeBer :
    answerOf (exec (.computeBer 0x00#8 [0x00#8, 0x11#8, 0x22#8, 0x33#8] [0x00#8, 0x10#8, 0x22#8, 0x00#8]) (fresh [] [])) =
      some { code := .ok, ber := some (2, 4) } := by decide
/-- BE-6. -/
theorem test_computeBer_refused : answerOf (exec (.computeBer 0x00#8 [0#8, 0#8, 0#8] [0#8, 0#8, 0#8, 0#8]) (fresh [] [])) =
    some { code := .invalidArgument, count := some 3 } := by decide
/-- R85: the last value that fits a 40-bit field. -/
theorem test_field40 : (field40 (2 ^ 40 - 1)).toNat = 2 ^ 40 - 1 := by decide
/-- R238, R265: the context of an error inside WRITE_PAGES and ERASE_RANGE. -/
theorem test_errorResponse :
    errorResponse { op := .writePages 0x00#8 0#32 [], todo := [], cursor := 2, blocks := [0] } .timeout =
      { code := .timeout, count := some 2, list := some (.blocks [0]) } ∧
    errorResponse { op := .eraseRange 0x00#8 2#32 4#32, todo := [], statuses := [(2, 0xE0#8)] } .deviceAbsent =
      { code := .deviceAbsent, list := some (.statuses [(2, 0xE0#8)]) } := by decide
/-- EX-2: the state check comes before the argument check. -/
theorem test_priority : answerOf (exec (.readPage 0x80#8 0#32) (fresh [] [])) = some { code := .notIdentified } ∧
    answerOf (exec (.readPage 0x00#8 999999999#32) (abortedBy .timeout)) = some { code := .timeout } := by decide

/-! ## Single transactions -/

/-- RD-5, RD-6, R141: a command latch goes on when answered ok, and ends the operation when absent. -/
theorem test_nand_command_ok :
    todoOf (step (busyAt (.readPage 0x00#8 1#32) [.cmd 0x30#8, .waitReady] [.ok])) = [.waitReady] := by decide
theorem test_nand_command_absent :
    answerOf (step (busyAt (.readPage 0x00#8 1#32) [.cmd 0x30#8, .waitReady] [.absent])) =
      some { code := .deviceAbsent, index := some 1 } := by decide
/-- EN-7: a slow-mode read keeps the even bytes. -/
theorem test_slow_read :
    (seqOf (step { busyAt (.getFeature 0x00#8 1#32) [.readData 1, .delay] [.bytes [0xAA#8, 0xBB#8]] with
      cfg := { cfg0 with slowMode := true } })).map (·.buf) = some [0xAA#8] := by decide
/-- EN-8: a reply of another length counts as absent. -/
theorem test_short_reply :
    answerOf (step (busyAt (.readPage 0x00#8 1#32) [.readData 8] [.bytes (List.replicate 7 0#8)])) =
      some { code := .deviceAbsent, index := some 1 } := by decide
/-- EN-13: the bound is checked at the first poll. -/
theorem test_poll_bound :
    answerOf (step { busyAt (.readPage 0x00#8 1#32) [.waitReady] [.ready false] with
      cfg := { cfg0 with readyPollLimitPred := 0 } }) = some { code := .timeout, index := some 1 } := by decide
/-- EN-15. -/
theorem test_statusFailed : [0xE0#8, 0xE1#8, 0x01#8, 0xFE#8, 0xFF#8].map statusFailed = [false, true, true, false, true] := by
  decide
/-- EN-16: the body is skipped, the restore is not. -/
theorem test_guard_absent :
    todoOf (step (busyAt (.eraseBlock 0x00#8 1#32) [.guardOpen, .cmd 0x60#8, .guardClose] [.absent])) = [.guardClose] := by
  decide
/-- EN-17: an absent restore raises DEVICE_ABSENT and the device is protected. -/
theorem test_guard_restore_absent :
    let s := { ready geoS [.absent] [] with
      wpProtect := false
      seq := some { op := .eraseBlock 0x00#8 1#32, todo := [.guardClose], saved := some true } }
    answerOf (step s) = some { code := .deviceAbsent, index := some 1 } ∧ wpOf (step s) = some true := by decide

/-! ## Helpers for the witnesses -/

theorem wf_geoS : geoS.Wf := by constructor <;> decide
theorem wf_geoL : geoL.Wf := by constructor <;> decide
theorem wf_geoA : geoA.Wf := by constructor <;> decide

theorem ready_readyWith (g : Geometry) (as : List Answer) (rs : List Request) : (ready g as rs).ReadyWith g :=
  ⟨rfl, rfl, rfl, rfl, rfl⟩

theorem inv_ready {g : Geometry} (h : g.Wf) (as : List Answer) (rs : List Request) : Inv (ready g as rs) where
  validIffReady := ⟨fun _ => rfl, fun _ => rfl⟩
  geometry g' hg := by obtain rfl := Option.some.inj hg; exact h
  abortedIdle h := by simp [ready, State.reset] at h
  failedAborted h := by simp [ready] at h
  idle _ := ⟨rfl, .inr (.inl rfl)⟩
  running q h := by simp [ready, State.reset] at h
  traceLegal e h := by simp [ready, State.reset] at h

theorem inv_fresh (as : List Answer) (rs : List Request) : Inv (fresh as rs) where
  validIffReady := by simp [fresh, State.reset, State.gValid]
  geometry g h := by simp [fresh, State.reset] at h
  abortedIdle h := by simp [fresh, State.reset] at h
  failedAborted h := by simp [fresh, State.reset] at h
  idle _ := ⟨rfl, .inl rfl⟩
  running q h := by simp [fresh, State.reset] at h
  traceLegal e h := by simp [fresh, State.reset] at h

/-- A device operation in progress satisfies the invariant if its sequencer is in order. -/
theorem inv_busy {s : State} {q : Seq} (hs : s = { ready geoS s.answers [] with seq := some q, wpProtect := s.wpProtect })
    (h : SeqInv s q) : Inv s := by
  rw [hs] at h ⊢
  exact { validIffReady := ⟨fun _ => rfl, fun _ => rfl⟩
          geometry := fun g' hg => by obtain rfl := Option.some.inj hg; exact wf_geoS
          abortedIdle := fun h => by simp [ready, State.reset] at h
          failedAborted := fun h => by simp [ready] at h
          idle := fun h => by simp at h
          running := fun q' hq => by obtain rfl := Option.some.inj hq; exact h
          traceLegal := fun e h => by simp [ready, State.reset] at h }

/-- One poll answered true. -/
def polled : Talk := { answers := pollAnswers 0, events := pollEvents (pollAnswers 0) }

theorem waits_polled : Waits cfg0 polled := ⟨0, by decide, rfl⟩

/-- One read reply. -/
def replied (d : List Byte) : Talk := { answers := [.bytes d], events := readEvents [d] }

theorem reads_replied {n : Nat} {d : List Byte} (h : 0 < n) (hn : n ≤ 4096) (hl : d.length = n) :
    Reads cfg0 n (replied d) d := by
  have hc : chunkSize cfg0 n = n := Nat.min_eq_left hn
  refine ⟨[d], ⟨h, ?_, [], (List.append_nil d).symm, ?_, rfl⟩, rfl⟩
  · rw [hl, chunkCycles, hc]
    exact (Nat.mul_one n).symm
  · rw [hc, Nat.sub_self]

/-- A page read with one poll, the whole raw page in one reply. -/
def pageRead (g : Geometry) (p : Nat) (d : List Byte) : Talk :=
  .join [.sends (commandAndAddress 0x00#8 (pageAddressBytes g p) ++ [.cmd 0x30#8]), polled, replied d]

theorem readsPage_S {p : Nat} {d : List Byte} (h : d.length = 16) : ReadsPage cfg0 geoS p true (pageRead geoS p d) d :=
  ⟨polled, replied d, waits_polled, reads_replied (by decide) (by decide) h, rfl⟩

/-- A status read. -/
def statusRead (st : Byte) : Talk := .join [.sends [.cmd 0x70#8], replied [st]]

theorem readsStatus (st : Byte) : ReadsStatus cfg0 (statusRead st) st :=
  ⟨replied [st], reads_replied (by decide) (by decide) rfl, rfl⟩

/-- One program attempt. -/
def attempt (g : Geometry) (ptr : List Byte) (p : Nat) (d : List Byte) (st : Byte) : Talk :=
  .join [.sends (ptr.map .cmd ++ commandAndAddress 0x80#8 (pageAddressBytes g p) ++
    (if d = [] then [] else [.dataOut d]) ++ [.cmd 0x10#8]), polled, statusRead st]

theorem attempts (g : Geometry) (ptr : List Byte) (p : Nat) (d : List Byte) (st : Byte) :
    Attempts cfg0 g ptr p d (attempt g ptr p d st) st := ⟨polled, statusRead st, waits_polled, readsStatus st, rfl⟩

theorem programs (g : Geometry) (ptr : List Byte) (p : Nat) (d : List Byte) :
    Programs cfg0 g ptr p d (attempt g ptr p d 0xE0#8) 0xE0#8 := ⟨by decide, .inl (attempts g ptr p d 0xE0#8)⟩

/-- WR-1 on Geometry S. -/
def pageWrite (p : Nat) (d : List Byte) : Talk := (Talk.join [attempt geoS [] p d 0xE0#8, .join []]).guarded

theorem writesPage (p : Nat) (d : List Byte) : WritesPage cfg0 geoS p d (pageWrite p d) 0xE0#8 :=
  ⟨_, ⟨_, _, _, programs geoS [] p d, ⟨rfl, rfl⟩, rfl⟩, rfl⟩

/-- An erase. -/
def erased (b : Nat) (st : Byte) : Talk :=
  (Talk.join [.sends (commandAndAddress 0x60#8 (eraseAddressBytes geoS b) ++ [.cmd 0xD0#8]), polled,
    statusRead st]).guarded

theorem erases (b : Nat) (st : Byte) : Erases cfg0 geoS b (erased b st) st :=
  ⟨polled, statusRead st, waits_polled, readsStatus st, rfl⟩

/-- A raw page of Geometry S, all bytes alike. -/
def raw16 (b : Byte) : List Byte := List.replicate 16 b

/-- The parameter page `PP_S`. -/
def ppS : List Byte :=
  [0x4F#8, 0x4E#8, 0x46#8, 0x49#8] ++ List.replicate 40 0#8 ++ geoA.idString ++ [0x2C#8] ++ List.replicate 15 0#8 ++
    [8#8, 0#8, 0#8, 0#8] ++ [8#8, 0#8] ++ List.replicate 6 0#8 ++ [4#8, 0#8, 0#8, 0#8] ++ [4#8, 0#8, 0#8, 0#8] ++
    [1#8, 0#8, 1#8] ++ List.replicate 153 0#8

/-- ID-12, ID-14. -/
theorem test_parse : parseGeometry cfg0 ppS = geoS ∧ parseGeometry { cfg0 with forceLegacy := true } ppS = geoL := by decide

/-! ## Witnesses: states and operands that meet the hypotheses of each statement, each clause at a boundary of its range -/

/-- READ_PAGE 5, OOB (R80's example). -/
def readRequest : Request := { header := 0x00000000000000050102#80, payload := [] }
/-- IDENTIFY. -/
def identifyRequest : Request := { header := 0x00000000000000000001#80, payload := [] }

theorem witness_StepExecutesTheDecodedRequest : (fresh [] [readRequest]).resetInput = false ∧
    (fresh [] [readRequest]).seq = none ∧ (fresh [] [readRequest]).requests = [readRequest] ∧
    decodeRequest readRequest = .ok (.readPage 0x01#8 5#32) := ⟨rfl, rfl, rfl, rfl⟩

theorem witness_StepExecutesTheDecodedCommand :
    ∃ s q, s.resetInput = false ∧ State.seq s = some q ∧ q.todo = .cmd 0x30#8 :: [.waitReady] ∧
      decodeCommand 0x30#8 = .ok .nandReadStart :=
  ⟨busyAt (.readPage 0x00#8 1#32) [.cmd 0x30#8, .waitReady] [.ok], _, rfl, rfl, rfl, rfl⟩

/-- The undefined operation codes next to the defined ones. -/
theorem witness_UndefinedOperationGetsIllegalRequest : (opField 0x00#80).toNat = 0 ∧
    0x0C ≤ (opField 0x0C#80).toNat ∧ 0x0C ≤ (opField 0xFF#80).toNat :=
  ⟨rfl, Nat.le_of_eq rfl, by simp [opField]⟩

theorem witness_RequestsDecodeByTheirOperationCode :
    [opField 0x00#80, opField 0x01#80, opField 0x0B#80, opField 0x0C#80] = [0x00#8, 0x01#8, 0x0B#8, 0x0C#8] := by decide

/-- In the middle of an operation, with the levels of the lines known. -/
theorem witness_ResetWorksAtAnyTime : ∃ s, State.resetInput s = true ∧ s.seq.isSome = true ∧ s.wpLine.isSome = true ∧
    s.markLines.isSome = true :=
  ⟨{ busyAt (.readPage 0x00#8 1#32) [.cmd 0x30#8] [] with
      resetInput := true, wpLine := some true, markLines := some 1#2 }, rfl, rfl, rfl, rfl⟩

theorem witness_PortIsHeldWhileBusy : ∃ s t q, State.resetInput s = false ∧ s.seq = some q ∧ step s = .next t :=
  ⟨busyAt (.readPage 0x00#8 1#32) [.addr 0x30#8, .waitReady] [.ok], _, _, rfl, rfl, rfl⟩

theorem witness_OperationIsHeldByABusyEngine :
    ∃ s q i, State.seq s = some q ∧ Instr.isOperation i = true :=
  ⟨busyAt (.readPage 0x00#8 1#32) [.addr 0x30#8] [], _, .identify 0x00#8, rfl, rfl⟩

/-- The last page and the last block of Geometry A (AT-5). -/
theorem witness_AddressTranslationsAreInverse : geoA.Wf ∧ 524287 < geoA.pageCount ∧ 2047 < geoA.blockCount ∧
    255 < geoA.pagesPerBlock := ⟨wf_geoA, by decide, by decide, by decide⟩

/-- AT-7. -/
theorem witness_AddressCyclesReadBackAsTheAddress : 0xA1B2C3 < 2 ^ (8 * 3) := by decide

theorem witness_AddressWordsOfBothModes : geoS.addressCycleCount = 5 ∧ geoS.largePage = true ∧
    geoL.addressCycleCount = 5 ∧ geoL.largePage = false := ⟨rfl, rfl, rfl, rfl⟩

theorem witness_AddressCycleBytes : geoA.addressCycleCount = 5 ∧ geoL.addressCycleCount = 5 := ⟨rfl, rfl⟩

theorem witness_ParsedFieldsComeFromTheirBytes : ppS.length = 256 := by
  simp only [ppS, geoA, List.length_append, List.length_replicate, List.length_cons, List.length_nil]

theorem witness_AbortedSessionAnswersItsCause : (abortedBy .timeout).seq = none ∧
    (abortedBy .timeout).abortCause = some .timeout ∧ (Instr.identify 0x00#8).isOperation = true ∧
    ∀ f x y, Instr.identify 0x00#8 ≠ .computeBer f x y := ⟨rfl, rfl, rfl, by simp⟩

theorem witness_UnidentifiedEngineRefuses : (fresh [] []).seq = none ∧ (fresh [] []).abortCause = none ∧
    (fresh [] []).idState ≠ .ready ∧ (Instr.readPage 0x00#8 0#32).isOperation = true ∧
    (∀ f, Instr.readPage 0x00#8 0#32 ≠ .identify f) ∧ ∀ f x y, Instr.readPage 0x00#8 0#32 ≠ .computeBer f x y :=
  ⟨rfl, rfl, by decide, rfl, by simp, by simp⟩

/-- The lowest undefined bit of each clause; IDENTIFY before identification, COMPUTE_BER in an aborted session. -/
theorem witness_UndefinedFlagBitsAreRefused : (ready geoS [] []).ReadyWith geoS ∧ 0x01#8 ≠ 0x00#8 ∧
    0x02#8 &&& 0xFE#8 ≠ 0x00#8 ∧ 0x04#8 &&& 0xFC#8 ≠ 0x00#8 ∧
    ((fresh [] []).seq = none ∧ (fresh [] []).abortCause = none ∧ (fresh [] []).idState = .uninitialized) ∧
    (abortedBy .timeout).seq = none :=
  ⟨ready_readyWith _ _ _, by decide, by decide, by decide, ⟨rfl, rfl, rfl⟩, rfl⟩

/-- The first index outside the device. -/
theorem witness_OutOfRangeIndexIsRefused : (ready geoS [] []).ReadyWith geoS ∧ geoS.pageCount ≤ (16#32).toNat ∧
    geoS.blockCount ≤ (4#32).toNat ∧ 0x01#8 &&& 0xFE#8 = 0x00#8 ∧ (4#32).toNat ≤ (4#32).toNat ∧
    0x03#8 &&& 0xFC#8 = 0x00#8 := ⟨ready_readyWith _ _ _, by decide, by decide, by decide, by decide, by decide⟩

theorem witness_BadArgumentsAreRefused : (ready geoS [] []).ReadyWith geoS ∧
    ((15#32).toNat < geoS.pageCount ∧ (List.replicate 15 0#8 : List Byte).length ≠ geoS.rawPageSize) ∧
    (1#32).toNat % geoS.pagesPerBlock ≠ 0 ∧
    ((12#32).toNat % geoS.pagesPerBlock = 0 ∧ 0 < geoS.oobSize ∧
      (([raw16 1#8, []] : List (List Byte)).getD 1 []).length ≠ geoS.rawPageSize ∧
      ∀ j < 1, (([raw16 1#8, []] : List (List Byte)).getD j []).length = geoS.rawPageSize) ∧
    (3#32).toNat < (4#32).toNat ∧ (3#32).toNat < geoS.blockCount :=
  ⟨ready_readyWith _ _ _, by decide, by decide, by decide, by decide, by decide⟩

theorem witness_BadArgumentsAreRefused_spare : (ready geoBare [] []).ReadyWith geoBare ∧ geoBare.oobSize = 0 ∧
    (0#32).toNat < geoBare.pageCount ∧ (0#32).toNat % geoBare.pagesPerBlock = 0 ∧
    (ready geoSmall [] []).ReadyWith geoSmall ∧ geoSmall.oobSize < 6 ∧ (3#32).toNat < geoSmall.blockCount :=
  ⟨ready_readyWith _ _ _, rfl, by decide, by decide, ready_readyWith _ _ _, by decide, by decide⟩

theorem witness_FeatureEntryChecks : (abortedBy .timeout).seq = none ∧
    (fresh [] []).seq = none ∧ (fresh [] []).abortCause = none ∧ (fresh [] []).idState ≠ .ready ∧
    (ready geoS [] []).abortCause = none ∧ (ready geoS [] []).idState = .ready ∧ 0xFF < (0x100#32).toNat ∧
    (0xFF#32).toNat ≤ 0xFF ∧ ([5#8, 0#8, 0#8] : List Byte).length ≠ 4 :=
  ⟨rfl, rfl, rfl, by decide, rfl, rfl, by decide, by decide, by decide⟩

theorem witness_ComputeBer : (fresh [] []).seq = none ∧ (abortedBy .timeout).seq = none ∧
    0 < ([0x12#8, 0x34#8] : List Byte).length := ⟨rfl, rfl, by decide⟩

theorem witness_NandCommandIsOneCommandLatch : ∃ s q, Instr.nandReadStart.isOperation = false ∧
    encode .nandReadStart = .command 0x30#8 ∧ State.seq s = some q ∧ q.todo = .cmd 0x30#8 :: .waitReady :: [] ∧
    Item.waitReady.isTransaction = true ∧ s.answers = .ok :: [] :=
  ⟨busyAt (.readPage 0x00#8 1#32) [.cmd 0x30#8, .waitReady] [.ok], _, rfl, rfl, rfl, rfl, rfl, rfl⟩

theorem witness_NandCommandWithoutAnOperation : Instr.nandRead.isOperation = false ∧
    encode .nandRead = .command 0x00#8 ∧ (ready geoS [.absent] []).seq = none ∧
    (ready geoS [.absent] []).answers = .absent :: [] := ⟨rfl, rfl, rfl, rfl⟩

/-- One state for each clause, followed by a transaction and at the end of the program. -/
theorem witness_PlainTransactionsGoOn : ∀ it ∈ [Item.addr 0x00#8, .dataOut [1#8], .mark .atBegin, .mark .atEnd, .delay],
    ∀ rest ∈ [[Item.waitReady], []],
    let s := busyAt (.seqReadBlock 0x00#8 1#32) (it :: rest) [.ok]
    s.resetInput = false ∧ s.seq.map (·.todo) = some (it :: rest) ∧ Item.waitReady.isTransaction = true ∧
      s.answers = .ok :: [] := by decide

/-- Absent, another kind, and a read of another length; outside a guard and inside one. -/
theorem witness_AbsentAnswerEndsTheOperation :
    ∀ x ∈ [(Item.addr 0x00#8, Answer.absent), (.waitReady, .ok), (.readData 2, .bytes [1#8]), (.dataOut [1#8], .ready true)],
    ∀ v ∈ [none, some true],
    let q : Seq := { op := .readPage 0x00#8 1#32, todo := [x.1], saved := v }
    let s := { ready geoS [x.2] [] with seq := some q }
    s.resetInput = false ∧ q.todo = x.1 :: [] ∧ x.1.commandsKnown = true ∧ x.1 ≠ .guardOpen ∧
      (x.1.transaction s.cfg).map (fun t => t.acceptedBy x.2) = some false ∧ s.answers = x.2 :: [] := by decide

theorem witness_ReadDataReturnsItsBytes :
    let s := busyAt (.readPage 0x00#8 1#32) [.readData 16, .waitReady] (replied (raw16 1#8)).answers
    s.resetInput = false ∧ s.seq.map (·.todo) = some (.readData 16 :: .waitReady :: []) ∧ 0 < 16 ∧
      Item.waitReady.isTransaction = true ∧ Reads s.cfg 16 (replied (raw16 1#8)) (raw16 1#8) ∧
      s.answers = (replied (raw16 1#8)).answers ++ [] :=
  ⟨rfl, rfl, by decide, rfl, reads_replied (by decide) (by decide) rfl, rfl⟩

/-- A read followed by a computation: one page of the sequential read. -/
theorem witness_ReadDataReturnsItsBytes_act :
    let s := busyAt (.seqReadBlock 0x00#8 1#32) [.readData 16, .act .seqPage, .waitReady] (replied (raw16 1#8)).answers
    s.resetInput = false ∧ s.seq.map (·.todo) = some (.readData 16 :: [.act .seqPage, .waitReady]) ∧
      Reads s.cfg 16 (replied (raw16 1#8)) (raw16 1#8) ∧ s.answers = (replied (raw16 1#8)).answers ++ [] :=
  ⟨rfl, rfl, reads_replied (by decide) (by decide) rfl, rfl⟩

/-- A slow-mode read of one byte, and an ordinary one of 16. -/
theorem witness_ReadDataChunks : Replies { cfg0 with slowMode := true } 1 [[0xAA#8, 0xBB#8]] [0xAA#8] ∧
    Replies cfg0 16 [raw16 1#8] (raw16 1#8) :=
  ⟨⟨by decide, by decide, [], rfl, by decide, rfl⟩, ⟨by decide, by decide, [], rfl, by decide, rfl⟩⟩

theorem witness_SlowModeKeepsTheEvenBytes : ({ cfg0 with slowMode := true } : Config.Params).slowMode = true ∧
    ([0xAA#8, 0xBB#8] : List Byte).length = chunkCycles { cfg0 with slowMode := true } 1 ∧ cfg0.slowMode = false := by decide

/-- The last poll allowed, and the bound itself. -/
theorem witness_WaitReadyIsBounded :
    let s := busyAt (.readPage 0x00#8 1#32) [.waitReady, .readData 8] (pollAnswers 2)
    let z := busyAt (.readPage 0x00#8 1#32) [.waitReady, .readData 8] (List.replicate 3 (.ready false))
    s.resetInput = false ∧ 0 + 2 < s.cfg.readyPollLimit ∧ s.answers = pollAnswers 2 ++ [] ∧
      (Item.readData 8).isTransaction = true ∧ 0 < 3 ∧ 0 + 3 = z.cfg.readyPollLimit ∧
      z.answers = List.replicate 3 (.ready false) ++ [] := by decide

/-- A wait followed by a computation: the one after a page of the sequential read. -/
theorem witness_WaitReadyIsBounded_act :
    let s := busyAt (.seqReadBlock 0x00#8 1#32) [.waitReady, .act .seqNext] (pollAnswers 2)
    s.resetInput = false ∧ s.seq.map (·.todo) = some (.waitReady :: [.act .seqNext]) ∧ 0 + 2 < s.cfg.readyPollLimit ∧
      s.answers = pollAnswers 2 ++ [] := by decide

theorem witness_GuardOpens : ∀ a ∈ [Answer.ok, .absent],
    let s := busyAt (.eraseBlock 0x00#8 1#32) [.guardOpen, .cmd 0x60#8, .guardClose] [a]
    s.resetInput = false ∧ s.seq.map (·.todo) = some (.guardOpen :: .cmd 0x60#8 :: [.guardClose]) ∧
      (Item.cmd 0x60#8).isTransaction = true ∧ s.answers = a :: [] := by decide

theorem witness_GuardCloses : ∀ a ∈ [Answer.ok, .absent],
    ∀ e ∈ [none, some { code := ResultCode.programFailure, index := some 1 }],
    ∀ rest ∈ [[], [Item.act .eraseVerdict], [.cmd 0x00#8]],
    let q : Seq := { op := .writePage 0x00#8 1#32 [], todo := .guardClose :: rest, saved := some true, pending := e }
    let s := { ready geoS [a] [] with wpProtect := false, seq := some q }
    s.resetInput = false ∧ q.todo = .guardClose :: rest ∧ q.saved = some true ∧ s.answers = a :: [] := by decide

/-- ID-12: the READ-ID bytes of P1, the signature, one poll, `PP_S`. -/
theorem witness_IdentifySucceeds : ∃ s ids t₁ t₂ w t₃, State.resetInput s = false ∧ s.seq = none ∧ s.abortCause = none ∧
    Reads s.cfg 8 t₁ ids ∧ Reads s.cfg 4 t₂ [0x4F#8, 0x4E#8, 0x46#8, 0x49#8] ∧ Waits s.cfg w ∧ Reads s.cfg 256 t₃ ppS ∧
    ppS.take 4 = [0x4F#8, 0x4E#8, 0x46#8, 0x49#8] ∧ geometryValid (parseGeometry s.cfg ppS) = true ∧
    s.answers = (Talk.join [.sends [.cmd 0x90#8, .addr 0x00#8], t₁, .sends [.cmd 0x90#8, .addr 0x20#8], t₂,
      .sends [.cmd 0xEC#8, .addr 0x00#8], w, t₃]).answers ++ [] :=
  ⟨fresh (Talk.join [.sends [.cmd 0x90#8, .addr 0x00#8], replied [0x2C#8, 0xDA#8, 0x90#8, 0x95#8, 6#8, 0#8, 0#8, 0#8],
      .sends [.cmd 0x90#8, .addr 0x20#8], replied [0x4F#8, 0x4E#8, 0x46#8, 0x49#8],
      .sends [.cmd 0xEC#8, .addr 0x00#8], polled, replied ppS]).answers [], _, replied _, replied _, polled, replied ppS,
    rfl, rfl, rfl, reads_replied (by decide) (by decide) rfl, reads_replied (by decide) (by decide) rfl, waits_polled,
    reads_replied (by decide) (by decide) witness_ParsedFieldsComeFromTheirBytes, by decide, by decide,
    (List.append_nil _).symm⟩

/-- ID-2: the signature "ONFX". -/
theorem witness_IdentifyFails_signature : ∃ s ids t₁ t₂, State.resetInput s = false ∧ s.seq = none ∧
    s.abortCause = none ∧ Reads s.cfg 8 t₁ ids ∧ Reads s.cfg 4 t₂ [0x4F#8, 0x4E#8, 0x46#8, 0x58#8] ∧
    ([0x4F#8, 0x4E#8, 0x46#8, 0x58#8] : List Byte) ≠ [0x4F#8, 0x4E#8, 0x46#8, 0x49#8] ∧
    s.answers = (Talk.join [.sends [.cmd 0x90#8, .addr 0x00#8], t₁, .sends [.cmd 0x90#8, .addr 0x20#8], t₂]).answers ++ [] :=
  ⟨fresh (Talk.join [.sends [.cmd 0x90#8, .addr 0x00#8], replied (List.replicate 8 0#8),
      .sends [.cmd 0x90#8, .addr 0x20#8], replied [0x4F#8, 0x4E#8, 0x46#8, 0x58#8]]).answers [],
    List.replicate 8 0#8, replied _, replied _, rfl, rfl, rfl, reads_replied (by decide) (by decide) rfl,
    reads_replied (by decide) (by decide) rfl, by decide, (List.append_nil _).symm⟩

/-- ID-4: a parameter page of zeros, which fails both checks of the page. -/
theorem witness_IdentifyFails_page : Waits cfg0 polled ∧
    Reads cfg0 256 (replied (List.replicate 256 0#8)) (List.replicate 256 0#8) ∧
    (List.replicate 256 (0#8 : Byte)).take 4 ≠ [0x4F#8, 0x4E#8, 0x46#8, 0x49#8] ∧
    geometryValid (parseGeometry cfg0 (List.replicate 256 0#8)) = false :=
  ⟨waits_polled, reads_replied (by decide) (by decide) List.length_replicate, by decide, by decide⟩

theorem witness_ReadPageReturnsThePage : ∃ s t d, Inv s ∧ State.ReadyWith s geoS ∧ 0x01#8 &&& 0xFE#8 = 0x00#8 ∧
    (15#32).toNat < geoS.pageCount ∧ ReadsPage s.cfg geoS (15#32).toNat ((0x01#8 : Byte).getLsbD 0) t d ∧
    s.answers = t.answers ++ [] :=
  ⟨ready geoS (pageRead geoS 15 (raw16 1#8)).answers [], pageRead geoS 15 (raw16 1#8), raw16 1#8,
    inv_ready wf_geoS _ _, ready_readyWith _ _ _, by decide, by decide, readsPage_S rfl, (List.append_nil _).symm⟩

/-- A sub-read of the legacy page read (RD-7). -/
def subRead (b : Byte) (d : List Byte) : Talk :=
  .join [.sends (commandAndAddress b (pageAddressBytes geoL 5)), polled, replied d]

theorem subReads {n : Nat} (b : Byte) {d : List Byte} (h : 0 < n) (hn : n ≤ 4096) (hl : d.length = n) :
    SubReads cfg0 geoL b 5 n (subRead b d) d := ⟨polled, replied d, waits_polled, reads_replied h hn hl, rfl⟩

theorem witness_ReadPageReturnsThePage_legacy : ∃ s t d, Inv s ∧ State.ReadyWith s geoL ∧
    (5#32).toNat < geoL.pageCount ∧ ReadsPage s.cfg geoL (5#32).toNat true t d ∧ s.answers = t.answers ++ [] :=
  ⟨ready geoL (Talk.join [subRead 0x00#8 (List.replicate 4 1#8), subRead 0x01#8 (List.replicate 4 2#8),
      subRead 0x50#8 (List.replicate 8 3#8)]).answers [], _, _, inv_ready wf_geoL _ _, ready_readyWith _ _ _, by decide,
    ⟨_, _, _, _, subReads 0x00#8 (by decide) (by decide) rfl, subReads 0x01#8 (by decide) (by decide) rfl, _, _,
      subReads 0x50#8 (by decide) (by decide) rfl, rfl, rfl⟩, (List.append_nil _).symm⟩

theorem witness_WritePageSucceeds : ∃ s t, Inv s ∧ State.ReadyWith s geoS ∧ (15#32).toNat < geoS.pageCount ∧
    (raw16 0x5A#8).length = geoS.rawPageSize ∧ WritesPage s.cfg geoS (15#32).toNat (raw16 0x5A#8) t 0xE0#8 ∧
    s.answers = t.answers ++ [] :=
  ⟨ready geoS (pageWrite 15 (raw16 0x5A#8)).answers [], pageWrite 15 (raw16 0x5A#8), inv_ready wf_geoS _ _,
    ready_readyWith _ _ _, by decide, by decide, writesPage 15 (raw16 0x5A#8), (List.append_nil _).symm⟩

/-- One failed attempt, then one that passes. -/
theorem programs_retried (g : Geometry) (ptr : List Byte) (p : Nat) (d : List Byte) :
    Programs cfg0 g ptr p d (.join [attempt g ptr p d 0xE1#8, attempt g ptr p d 0xE0#8]) 0xE0#8 :=
  ⟨by decide, .inr ⟨1, _, _, 0xE1#8, by decide, ⟨attempts g ptr p d 0xE1#8, by decide⟩, attempts g ptr p d 0xE0#8, rfl⟩⟩

/-- Legacy mode: three sub-writes, the first of them with a retry. -/
theorem witness_WritePageSucceeds_legacy : ∃ s t, Inv s ∧ State.ReadyWith s geoL ∧ (5#32).toNat < geoL.pageCount ∧
    (raw16 0x5A#8).length = geoL.rawPageSize ∧ WritesPage s.cfg geoL (5#32).toNat (raw16 0x5A#8) t 0xE0#8 ∧
    s.answers = t.answers ++ [] := by
  obtain ⟨t, ht⟩ : ∃ t, WritesPage cfg0 geoL 5 (raw16 0x5A#8) t 0xE0#8 :=
    ⟨_, _, ⟨_, _, _, programs_retried geoL _ 5 _, ⟨_, _, _, programs geoL _ 5 _,
      ⟨_, _, _, programs geoL _ 5 _, ⟨rfl, rfl⟩, rfl⟩, rfl⟩, rfl⟩, rfl⟩
  exact ⟨ready geoL t.answers [], t, inv_ready wf_geoL _ _, ready_readyWith _ _ _, by decide, by decide, ht,
    (List.append_nil _).symm⟩

/-- WR-2: every status is E1, three attempts. -/
theorem pageWriteFails (p : Nat) (d : List Byte) : PageWriteFails cfg0 geoS p d
    (Talk.join [attempt geoS [] p d 0xE1#8, .join [attempt geoS [] p d 0xE1#8, attempt geoS [] p d 0xE1#8]]).guarded
    0xE1#8 :=
  ⟨_, .inl ⟨_, _, 0xE1#8, attempts geoS [] p d 0xE1#8, by decide,
    ⟨_, _, 0xE1#8, attempts geoS [] p d 0xE1#8, by decide, ⟨attempts geoS [] p d 0xE1#8, by decide⟩, rfl⟩, rfl⟩, rfl⟩

theorem witness_WritePageFailsAfterItsRetries : ∃ s t, Inv s ∧ State.ReadyWith s geoS ∧
    (1#32).toNat < geoS.pageCount ∧ (raw16 0x5A#8).length = geoS.rawPageSize ∧
    PageWriteFails s.cfg geoS (1#32).toNat (raw16 0x5A#8) t 0xE1#8 ∧ s.answers = t.answers ++ [] :=
  ⟨ready geoS (Talk.join [attempt geoS [] 1 (raw16 0x5A#8) 0xE1#8, .join [attempt geoS [] 1 (raw16 0x5A#8) 0xE1#8,
      attempt geoS [] 1 (raw16 0x5A#8) 0xE1#8]]).guarded.answers [], _, inv_ready wf_geoS _ _, ready_readyWith _ _ _,
    by decide, by decide, pageWriteFails 1 (raw16 0x5A#8), (List.append_nil _).symm⟩

/-- Both results. -/
theorem witness_EraseBlockReportsTheStatus (st : Byte) : ∃ s t, Inv s ∧ State.ReadyWith s geoS ∧
    (3#32).toNat < geoS.blockCount ∧ Erases s.cfg geoS (3#32).toNat t st ∧ s.answers = t.answers ++ [] :=
  ⟨ready geoS (erased 3 st).answers [], erased 3 st, inv_ready wf_geoS _ _, ready_readyWith _ _ _, by decide,
    erases 3 st, (List.append_nil _).symm⟩

/-- ER-4 on Geometry S: blocks 2 and 3, the second fails. -/
theorem witness_EraseRangeReportsEveryBlock : ∃ s t, Inv s ∧ State.ReadyWith s geoS ∧ (2#32).toNat ≤ (3#32).toNat ∧
    (3#32).toNat < geoS.blockCount ∧ ([0xE0#8, 0xE1#8] : List Byte).length = (3#32).toNat - (2#32).toNat + 1 ∧
    ErasesFrom s.cfg geoS (2#32).toNat [0xE0#8, 0xE1#8] t ∧ s.answers = t.answers ++ [] :=
  ⟨ready geoS (Talk.join [erased 2 0xE0#8, .join [erased 3 0xE1#8, .join []]]).answers [], _, inv_ready wf_geoS _ _,
    ready_readyWith _ _ _, by decide, by decide, by decide,
    ⟨_, _, erases 2 0xE0#8, ⟨_, _, erases 3 0xE1#8, rfl, rfl⟩, rfl⟩, (List.append_nil _).symm⟩

theorem scansFrom (ds : List Byte) : ∀ b, ∃ t, ScansFrom cfg0 geoS b (ds.map raw16) t := by
  induction ds with
  | nil => exact fun b => ⟨.join [], rfl⟩
  | cons d ds ih =>
    intro b
    obtain ⟨t, ht⟩ := ih (b + 1)
    exact ⟨_, pageRead geoS (b * 4) (raw16 d), t, readsPage_S (by simp [raw16]), ht, rfl⟩

/-- SC-1 in small: four blocks, the first bad, the others good. -/
theorem witness_ScanReturnsTheBadBlocks : ∃ s t, Inv s ∧ State.ReadyWith s geoS ∧ 1 ≤ geoS.oobSize ∧
    ([0x00#8, 0xFF#8, 0xFF#8, 0xFF#8].map raw16).length = geoS.blockCount ∧
    ScansFrom s.cfg geoS 0 ([0x00#8, 0xFF#8, 0xFF#8, 0xFF#8].map raw16) t ∧ s.answers = t.answers ++ [] := by
  obtain ⟨t, ht⟩ := scansFrom [0x00#8, 0xFF#8, 0xFF#8, 0xFF#8] 0
  exact ⟨ready geoS t.answers [], t, inv_ready wf_geoS _ _, ready_readyWith _ _ _, by decide, by decide, ht,
    (List.append_nil _).symm⟩

theorem readsOn (ds : List Byte) : ∃ t, ReadsOn cfg0 geoS (ds.map raw16) t := by
  induction ds with
  | nil => exact ⟨.join [], rfl⟩
  | cons d ds ih =>
    obtain ⟨t, ht⟩ := ih
    exact ⟨_, replied (raw16 d), polled, t, reads_replied (by decide) (by decide) (by simp [raw16, geoS]), waits_polled,
      ht, rfl⟩

/-- The whole conversation about block 3. -/
def seqTalk (tp : Talk) : Talk := .join [.sends (.mark .atBegin :: commandAndAddress 0x00#8
  (pageAddressBytes geoS ((3#32).toNat * geoS.pagesPerBlock))), polled, tp, .sends [.mark .atEnd]]

/-- SQ-1, SQ-3: the four pages of block 3, all good, and with a bad marker in its second page; with both flags and without
raw mode. -/
theorem witness_SeqReadIsAllOrNothing : ∀ ds ∈ [[0xFF#8, 0xFF#8, 0xFF#8, 0xFF#8], [0xFF#8, 0x00#8, 0xFF#8, 0xFF#8]],
    ∃ s w tp, Inv s ∧ State.ReadyWith s geoS ∧ 0x03#8 &&& 0xFC#8 = 0x00#8 ∧ 0x00#8 &&& 0xFC#8 = 0x00#8 ∧
    (3#32).toNat < geoS.blockCount ∧ 6 ≤ geoS.oobSize ∧ (ds.map raw16).length = geoS.pagesPerBlock ∧ Waits s.cfg w ∧
    ReadsOn s.cfg geoS (ds.map raw16) tp ∧
    s.answers = (Talk.join [.sends (.mark .atBegin :: commandAndAddress 0x00#8
      (pageAddressBytes geoS ((3#32).toNat * geoS.pagesPerBlock))), w, tp, .sends [.mark .atEnd]]).answers ++ [] := by
  intro ds hds
  obtain ⟨tp, ht⟩ := readsOn ds
  have hl : ds.length = 4 := by
    simp only [List.mem_cons, List.not_mem_nil, or_false] at hds
    rcases hds with rfl | rfl <;> rfl
  exact ⟨ready geoS (seqTalk tp).answers [], polled, tp, inv_ready wf_geoS _ _, ready_readyWith _ _ _, by decide,
    by decide, by decide, by decide, by rw [List.length_map, hl]; rfl, waits_polled, ht, (List.append_nil _).symm⟩

/-- The marker page of a block, read with the given byte everywhere. -/
def markers (p : Nat) (b : Byte) : Talk := .join [pageRead geoS p (raw16 b), .join []]

theorem blockMarked (p : Nat) (b : Byte) : BlockMarked cfg0 geoS p (markers p b) (decide (b ≠ 0xFF#8)) := by
  refine ⟨_, _, raw16 b, false, readsPage_S (by simp [raw16]), ⟨rfl, rfl⟩, rfl, ?_⟩
  simp [MarkedBad, raw16, geoS]

/-- P2 in small: block 2 bad and skipped, block 3 good, erased and its first page written. -/
theorem witness_WritePagesFollowsTheLoop : ∃ s t r, Inv s ∧ State.ReadyWith s geoS ∧ (8#32).toNat < geoS.pageCount ∧
    (8#32).toNat % geoS.pagesPerBlock = 0 ∧ 1 ≤ geoS.oobSize ∧
    (∀ b ∈ [raw16 0xA1#8], b.length = geoS.rawPageSize) ∧
    BulkWrites s.cfg geoS [raw16 0xA1#8] (8#32).toNat 0 [] t r ∧ s.answers = t.answers ++ [] := by
  have hm : BlockMarked cfg0 geoS 8 (markers 8 0x00#8) true := by simpa using blockMarked 8 0x00#8
  have hg : BlockMarked cfg0 geoS 12 (markers 12 0xFF#8) false := by simpa using blockMarked 12 0xFF#8
  have entered : BlockEntered cfg0 geoS 12 (.join [markers 12 0xFF#8, erased 3 0xE0#8]) :=
    ⟨_, hg, erased 3 0xE0#8, 0xE0#8, erases 3 0xE0#8, by decide, rfl⟩
  have loop : BulkWrites cfg0 geoS [raw16 0xA1#8] 8 0 [] _ _ :=
    .skip (by decide) (by decide) rfl hm
      (.write (by decide) (by decide) entered (writesPage 12 (raw16 0xA1#8)) (.done (by decide)))
  exact ⟨ready geoS _ [], _, _, inv_ready wf_geoS _ _, ready_readyWith _ _ _, by decide, by decide, by decide,
    by simp [raw16, geoS], loop, (List.append_nil _).symm⟩

/-- The three error ends of the loop: the erase of block 3 fails, its first page fails, and block 3 is bad, so that no page
is left. -/
theorem witness_WritePagesFollowsTheLoop_errors :
    ∀ c ∈ [ResultCode.eraseFailure, .programFailure, .capacityExhausted], ∃ s t r, Inv s ∧ State.ReadyWith s geoS ∧
      (12#32).toNat < geoS.pageCount ∧ (12#32).toNat % geoS.pagesPerBlock = 0 ∧ 1 ≤ geoS.oobSize ∧
      (∀ b ∈ [raw16 0xA1#8], b.length = geoS.rawPageSize) ∧
      BulkWrites s.cfg geoS [raw16 0xA1#8] (12#32).toNat 0 [] t r ∧ Response.code r = c ∧
      s.answers = t.answers ++ [] := by
  have hm : BlockMarked cfg0 geoS 12 (markers 12 0x00#8) true := by simpa using blockMarked 12 0x00#8
  have hg : BlockMarked cfg0 geoS 12 (markers 12 0xFF#8) false := by simpa using blockMarked 12 0xFF#8
  have entered : BlockEntered cfg0 geoS 12 (.join [markers 12 0xFF#8, erased 3 0xE0#8]) :=
    ⟨_, hg, erased 3 0xE0#8, 0xE0#8, erases 3 0xE0#8, by decide, rfl⟩
  have witness : ∀ {t r}, BulkWrites cfg0 geoS [raw16 0xA1#8] 12 0 [] t r → ∃ s t r', Inv s ∧ State.ReadyWith s geoS ∧
      (12#32).toNat < geoS.pageCount ∧ (12#32).toNat % geoS.pagesPerBlock = 0 ∧ 1 ≤ geoS.oobSize ∧
      (∀ b ∈ [raw16 0xA1#8], b.length = geoS.rawPageSize) ∧
      BulkWrites s.cfg geoS [raw16 0xA1#8] (12#32).toNat 0 [] t r' ∧ Response.code r' = r.code ∧
      s.answers = t.answers ++ [] := fun {t r} h =>
    ⟨ready geoS t.answers [], t, r, inv_ready wf_geoS _ _, ready_readyWith _ _ _, by decide, by decide, by decide,
      by simp [raw16, geoS], h, rfl, (List.append_nil _).symm⟩
  intro c hc
  simp only [List.mem_cons, List.not_mem_nil, or_false] at hc
  rcases hc with rfl | rfl | rfl
  · exact witness (.eraseFails (by decide) (by decide) rfl hg rfl (erases 3 0xE1#8) (by decide))
  · exact witness (.programFails (by decide) (by decide) entered (pageWriteFails 12 (raw16 0xA1#8)))
  · exact witness (.skip (by decide) (by decide) rfl hm (.exhausted (by decide) (by decide)))

theorem witness_GetFeatureReturnsTheValue : ∃ s r, State.ReadyWith s geoS ∧ (0xFF#32).toNat ≤ 0xFF ∧
    Reads s.cfg 4 r [5#8, 0#8, 0#8, 0#8] ∧
    s.answers = (Talk.join [.sends [.cmd 0xEE#8, .addr (BitVec.ofNat 8 (0xFF#32).toNat)], .delay s.cfg, r]).answers ++ [] :=
  ⟨ready geoS (Talk.join [.sends [.cmd 0xEE#8, .addr (BitVec.ofNat 8 (0xFF#32).toNat)], .delay cfg0,
      replied [5#8, 0#8, 0#8, 0#8]]).answers [], replied [5#8, 0#8, 0#8, 0#8], ready_readyWith _ _ _, by decide,
    reads_replied (by decide) (by decide) rfl, (List.append_nil _).symm⟩

theorem witness_SetFeatureSendsTheValue : ∃ s, State.ReadyWith s geoS ∧ (0xFF#32).toNat ≤ 0xFF ∧
    ([5#8, 0#8, 0#8, 0#8] : List Byte).length = 4 ∧
    s.answers = (Talk.join [.sends [.cmd 0xEF#8, .addr (BitVec.ofNat 8 (0xFF#32).toNat)], .delay s.cfg,
      .sends [.dataOut [5#8, 0#8, 0#8, 0#8]]]).answers ++ [] :=
  ⟨ready geoS [.ok, .ok, .ok] [], ready_readyWith _ _ _, by decide, rfl, rfl⟩

/-- An idle state and a busy one, each with the invariant and a step. -/
theorem witness_EveryStepKeepsTheInvariant : ∃ s t, Inv s ∧ State.resetInput s = false ∧ step s = .next t :=
  ⟨fresh [] [identifyRequest], _, inv_fresh _ _, rfl, rfl⟩

theorem witness_TheEngineNeverStops : Inv (fresh [] []) ∧ Inv (ready geoS [.absent] [readRequest]) :=
  ⟨inv_fresh _ _, inv_ready wf_geoS _ _⟩

/-- No transaction, one answered, and a delay. -/
theorem witness_OneTransactionAStep : (∃ t, step (fresh [] []) = .next t) ∧
    (∃ t, step (busyAt (.readPage 0x00#8 1#32) [.addr 0x00#8, .waitReady] [.ok]) = .next t) ∧
    (∃ t, step (busyAt (.getFeature 0x00#8 1#32) [.delay, .readData 4] []) = .next t) ∧
    (fresh [] []).resetInput = false := ⟨⟨_, rfl⟩, ⟨_, rfl⟩, ⟨_, rfl⟩, rfl⟩

theorem witness_ParametersAreFixed : ∃ t, step { fresh [] [] with resetInput := true } = .next t := ⟨_, rfl⟩

theorem witness_IdentificationStateMachine : ∃ s t, Inv s ∧ State.resetInput s = false ∧ step s = .next t ∧
    s.idState ≠ t.idState :=
  ⟨fresh [] [identifyRequest], _, inv_fresh _ _, rfl, rfl, by decide⟩

theorem witness_OnlyIdentifyWritesTheGeometry : ∃ s t, Inv s ∧ State.resetInput s = false ∧ step s = .next t ∧
    t.geom ≠ s.geom :=
  ⟨ready geoS [] [identifyRequest], _, inv_ready wf_geoS _ _, rfl, rfl, by decide⟩

/-- READ_PAGE 5 accepted, the first command latch absent. -/
theorem witness_AbortCauseIsKeptUntilReset : ∃ s t, Inv s ∧ State.resetInput s = false ∧ s.abortCause = none ∧
    step s = .next t ∧ t.abortCause = some .deviceAbsent ∧ s.busy = true ∧
    t.responses = s.responses ++ [{ code := .deviceAbsent, index := some 5 }] := by
  obtain ⟨s, hs, hi⟩ := inv_exec_operation (inv_ready wf_geoS [.absent] []) (i := .readPage 0x01#8 5#32) rfl
  obtain rfl := Host.Outcome.next.inj hs
  exact ⟨_, _, hi, rfl, rfl, rfl, by decide, by decide, by decide⟩

/-- The same step, as an error response. -/
theorem witness_ErrorResponsesCarryNoData : ∃ s t r, Inv s ∧ State.resetInput s = false ∧ step s = .next t ∧
    t.responses = s.responses ++ [r] ∧ r.code ≠ .ok ∧ r.code ≠ .badBlock := by
  obtain ⟨s, hs, hi⟩ := inv_exec_operation (inv_ready wf_geoS [.absent] []) (i := .readPage 0x01#8 5#32) rfl
  obtain rfl := Host.Outcome.next.inj hs
  exact ⟨_, _, { code := .deviceAbsent, index := some 5 }, hi, rfl, rfl, by decide, by decide, by decide⟩

/-- An aborted session keeps its cause. -/
theorem witness_AbortCauseIsKeptUntilReset_aborted : ∃ s t, Inv s ∧ State.resetInput s = false ∧
    s.abortCause = some .timeout ∧ step s = .next t :=
  ⟨{ ready geoS [] [readRequest] with abortCause := some .timeout }, _,
    { inv_ready wf_geoS [] [readRequest] with abortedIdle := fun _ => rfl, failedAborted := fun _ => rfl
                                              running := fun q h => by simp [ready, State.reset] at h }, rfl, rfl, rfl⟩

theorem witness_OneResponseEndsAnOperation : (∃ s t, State.resetInput s = false ∧ step s = .next t ∧ s.busy = true) ∧
    ∃ s t, State.resetInput s = false ∧ step s = .next t ∧ s.busy = false ∧ s.requests ≠ [] :=
  ⟨⟨busyAt (.readPage 0x00#8 1#32) [.addr 0x30#8, .waitReady] [.ok], _, rfl, rfl, rfl⟩,
    fresh [] [readRequest], _, rfl, rfl, rfl, by decide⟩

/-- The last transaction of a sequential read that saw a bad marker (SQ-3). -/
theorem witness_ErrorResponsesCarryNoData_badBlock : ∃ s t r, Inv s ∧ State.resetInput s = false ∧ step s = .next t ∧
    t.responses = s.responses ++ [r] ∧ r.code = .badBlock := by
  refine ⟨{ ready geoS [.ok] [] with
    seq := some { op := .seqReadBlock 0x00#8 1#32, todo := [.mark .atEnd], bad := true } }, _,
    { code := .badBlock, index := some 1, markerBad := some true, data := some [] }, ?_, rfl, rfl, rfl, rfl⟩
  refine inv_busy (q := { op := .seqReadBlock 0x00#8 1#32, todo := [.mark .atEnd], bad := true }) rfl ?_
  exact { atTransaction := ⟨_, _, rfl, rfl⟩
          commands := by decide
          guardBalanced := by decide
          protectedOutside := fun _ => rfl
          savedProtected := by simp
          openUnprotected := by simp
          pendingRestore := by simp
          pollBound := by decide
          retryBound := by decide
          phase := ⟨rfl, by decide⟩ }

/-- ERASE-CONFIRM inside the guard. -/
theorem witness_NoWriteCommandWhileProtected : ∃ s t, Inv s ∧ step s = .next t ∧
    t.trace = s.trace ++ [{ transaction := .cmd 0xD0#8, answer := some .ok }] ∧
    0xD0#8 ∈ [0x80#8, 0x10#8, 0x60#8, 0xD0#8] ∧ s.wpProtect = false := by
  refine ⟨{ ready geoS [.ok] [] with
    wpProtect := false
    seq := some { op := .eraseBlock 0x00#8 1#32, todo := [.cmd 0xD0#8, .guardClose], saved := some true } }, _, ?_, rfl,
    rfl, by decide, rfl⟩
  refine inv_busy (q := { op := .eraseBlock 0x00#8 1#32, todo := [.cmd 0xD0#8, .guardClose], saved := some true }) rfl ?_
  exact { atTransaction := ⟨_, _, rfl, rfl⟩
          commands := by decide
          guardBalanced := by decide
          protectedOutside := by simp
          savedProtected := by simp
          openUnprotected := fun _ _ => rfl
          pendingRestore := by simp
          pollBound := by decide
          retryBound := by decide
          phase := ⟨rfl, by decide⟩ }

end Sys2Proof.Tests
end

/-! The invariant at reset and across every step (10_state.md R24 to R30). -/

namespace Sys2Proof.Machine

/-! ## Fetching -/

/-- The request decoder answers operations only (R81). -/
theorem isOperation_of_decodeRequest {r : Request} {i : Instr} (h : decodeRequest r = .ok i) :
    i.isOperation = true := by
  unfold decodeRequest at h
  dsimp only at h
  split at h <;> simp at h <;> subst h <;> rfl

/-- What a step of an idle engine without reset does: it waits, answers ILLEGAL_REQUEST, or executes the operation that
the oldest waiting request spells (R80, R84, R382). -/
theorem step_idle_cases {s t : State} (hr : s.resetInput = false) (hq : s.seq = none) (h : step s = .next t) :
    t = s ∨ ∃ r rs, s.requests = r :: rs ∧
      (t = illegalRequest { s with requests := rs } ∨
        ∃ i, decodeRequest r = .ok i ∧ exec i { s with requests := rs } = .next t) := by
  cases hrs : s.requests with
  | nil =>
    rw [step_idle hr hq hrs] at h
    exact .inl (Host.Outcome.next.inj h).symm
  | cons r rs =>
    refine .inr ⟨r, rs, rfl, ?_⟩
    cases hd : decodeRequest r with
    | ok i => exact .inr ⟨i, rfl, by simpa [step, fetch, hr, hq, hrs, hd] using h⟩
    | error e => exact .inl (by simpa [step, fetch, hr, hq, hrs, hd] using h.symm)

/-! ## The invariant -/

/-- Reset gives a state with the invariant from every state whose transactions so far were legal (R40, R380). -/
theorem inv_applyReset {s : State} (h : ∀ e ∈ s.trace, e.legal = true) : Inv s.applyReset where
  validIffReady := by simp [State.gValid]
  geometry := by simp
  abortedIdle := by simp
  failedAborted := by simp
  idle := by simp
  running := by simp
  traceLegal := by simpa using h

/-- A step of a busy engine keeps the invariant: the item at the sequencer's head is a transaction, and each kind of
transaction keeps it (R33). -/
theorem inv_step_busy {s t : State} {q : Seq} (h : Inv s) (hr : s.resetInput = false) (hq : s.seq = some q)
    (hst : step s = .next t) : Inv t := by
  obtain ⟨it, rest, ht, -⟩ := (h.running q hq).atTransaction
  rcases step_busy hr hq ht with ⟨b, -, -, e⟩ | ⟨b, rfl, hb, e⟩ | ⟨hc, e⟩ <;> rw [e] at hst
  · simp at hst
  · obtain rfl := Host.Outcome.next.inj hst
    exact inv_simpleItem h hq ht (.cmd b) (fun _ => hb) (by simp) (leavesGuard_cmd b)
  · obtain rfl := Host.Outcome.next.inj hst
    exact inv_performItem h hq ht hc

/-- A step of an idle engine keeps the invariant (R80, R84). -/
theorem inv_step_idle {s t : State} (h : Inv s) (hr : s.resetInput = false) (hq : s.seq = none)
    (hst : step s = .next t) : Inv t := by
  rcases step_idle_cases hr hq hst with rfl | ⟨r, rs, -, rfl | ⟨i, hd, he⟩⟩
  · exact h
  · exact inv_post_idle (h.withRequests rs) hq _
  · obtain ⟨t', he', ht'⟩ := inv_exec_operation (h.withRequests rs) (isOperation_of_decodeRequest hd)
    obtain rfl := Host.Outcome.next.inj (he.symm.trans he')
    exact ht'

/-- Settles O51: a reset, a step of an idle engine and a step of a busy one each keep the invariant. -/
theorem everyStepKeepsTheInvariant : Obligations.EveryStepKeepsTheInvariant := by
  intro s t h hst
  cases hr : s.resetInput with
  | true =>
    rw [step_reset hr] at hst
    obtain rfl := Host.Outcome.next.inj hst
    exact inv_applyReset h.traceLegal
  | false =>
    cases hq : s.seq with
    | none => exact inv_step_idle h hr hq hst
    | some q => exact inv_step_busy h hr hq hst

/-- Settles O50: the state after reset is the reset of itself, with an empty trace. -/
theorem resetSatisfiesTheInvariant : Obligations.ResetSatisfiesTheInvariant :=
  inv_applyReset (s := State.reset) (by simp [State.reset])

end Sys2Proof.Machine

/-! What one step can do, said once: what follows a transaction in the same step (`Follows`), the transaction at the
sequencer (`Performs`), the acceptance of a request (`Accepts`), and the whole step (`StepsTo`) (10_state.md R32, R33). -/

namespace Sys2Proof.Machine

/-! ## What follows a transaction -/

/-- No step of IDENTIFY remains in the program. -/
def NoIdentify (todo : List Item) : Prop := ∀ it ∈ todo, it.ofIdentify = false

theorem NoIdentify.of_tail {it : Item} {rest : List Item} (h : NoIdentify (it :: rest)) : NoIdentify rest :=
  fun i hi => h i (List.mem_cons_of_mem _ hi)

theorem NoIdentify.cons {it : Item} {rest : List Item} (hi : it.ofIdentify = false) (h : NoIdentify rest) :
    NoIdentify (it :: rest) :=
  List.forall_mem_cons.mpr ⟨hi, h⟩

/-- What the engine comes to from `s`, without a further transaction, while the operation of `q` runs: it settles what
remains of the program, stands at a transaction, raises an error, or takes the error exit. -/
inductive Follows (s : State) (q : Seq) : State → Prop where
  | settles (q' : Seq) (todo : List Item) (op : q'.op = q.op) (keeps : NoIdentify q.todo → NoIdentify todo) :
      Follows s q (settle s q' todo)
  | stands (q' : Seq) (todo : List Item) : Follows s q (s.goOn q' todo)
  | raises (q' : Seq) (r : Response) (op : q'.op = q.op) : Follows s q (raise s q' r)
  | exits (q' : Seq) (r : Response) (op : q'.op = q.op) : Follows s q (postError s q' r)

/-! ## The item at the sequencer -/

/-- What performing the item at the head of the program does: it waits for an answer, computes without a transaction,
records a `Delay`, or completes one transaction with the oldest waiting answer; a command latch is the program's head. -/
inductive Performs (s : State) (q : Seq) : State → Prop where
  | waits : Performs s q s
  | silent {t : State} (follows : Follows s q t) : Performs s q t
  | delays {t : State} (follows : Follows s.recordDelay q t) : Performs s q t
  | answers {t : State} (tr : Transaction) (a : Answer) (as : List Answer) (w : Bool) (oldest : s.answers = a :: as)
      (follows : Follows { s.complete tr a as with wpProtect := w } q t)
      (head : ∀ b, tr = .cmd b → ∃ rest, q.todo = .cmd b :: rest := by simp) : Performs s q t

/-- A transaction that leaves `S.wpProtect` alone. -/
theorem Performs.plain {s t : State} {q : Seq} (tr : Transaction) (a : Answer) (as : List Answer)
    (oldest : s.answers = a :: as) (follows : Follows (s.complete tr a as) q t)
    (head : ∀ b, tr = .cmd b → ∃ rest, q.todo = .cmd b :: rest := by simp) : Performs s q t :=
  .answers tr a as (s.complete tr a as).wpProtect oldest follows head

section
variable {s : State} {q : Seq} {rest : List Item}

theorem simpleItem_performs (tr : Transaction) (keeps : NoIdentify q.todo → NoIdentify rest)
    (head : ∀ b, tr = .cmd b → ∃ rest, q.todo = .cmd b :: rest := by simp) :
    Performs s q (simpleItem tr s q rest) := by
  unfold simpleItem
  rcases transact_cases tr s (fun s' => settle s' q rest) (fun s' => raiseAbsent s' q) with
    ⟨-, e⟩ | ⟨as, ha, e⟩ | ⟨a, as, ha, -, e⟩ <;> rw [e]
  · exact .waits
  · exact .plain tr _ as ha (.settles q rest rfl keeps) head
  · exact .plain tr a as ha (.raises q _ rfl) head

theorem readDataItem_performs (n : Nat) (keeps : NoIdentify q.todo → NoIdentify rest) :
    Performs s q (readDataItem n s q rest) := by
  unfold readDataItem
  dsimp only
  split
  case h_1 => exact .waits
  case h_2 raw as ha =>
    split
    · exact .plain _ _ as ha (.settles _ _ rfl fun h => (keeps h).cons rfl)
    · exact .plain _ _ as ha (.raises q _ rfl)
  case h_3 a as _ ha => exact .plain _ a as ha (.raises q _ rfl)

theorem waitReadyItem_performs (keeps : NoIdentify q.todo → NoIdentify rest) :
    Performs s q (waitReadyItem s q rest) := by
  unfold waitReadyItem
  split
  case h_1 => exact .waits
  case h_2 as ha => exact .plain _ _ as ha (.settles _ rest rfl keeps)
  case h_3 as ha =>
    split
    · exact .plain _ _ as ha (.raises q _ rfl)
    · exact .plain _ _ as ha (.stands _ _)
  case h_4 a as _ _ ha => exact .plain _ a as ha (.raises q _ rfl)

theorem guardOpenItem_performs (keeps : NoIdentify q.todo → NoIdentify rest) :
    Performs s q (guardOpenItem s q rest) := by
  unfold guardOpenItem
  dsimp only
  rcases transact_cases (.setWP false) s
      (fun s' => settle { s' with wpProtect := false } { q with saved := some s.wpProtect } rest)
      (fun s' => raiseAbsent s' { q with saved := some s.wpProtect }) with
    ⟨-, e⟩ | ⟨as, ha, e⟩ | ⟨a, as, ha, -, e⟩ <;> rw [e]
  · exact .waits
  · exact .answers _ _ as false ha (.settles _ rest rfl keeps)
  · exact .plain _ a as ha (.raises _ _ rfl)

theorem afterRestore_follows (ok : Bool) (keeps : NoIdentify q.todo → NoIdentify rest) :
    Follows s q (afterRestore ok s q rest) := by
  unfold afterRestore
  dsimp only
  split
  · exact .exits _ _ rfl
  · split
    · exact .settles _ rest rfl keeps
    · exact .raises _ _ rfl

theorem guardCloseItem_performs (keeps : NoIdentify q.todo → NoIdentify rest) :
    Performs s q (guardCloseItem s q rest) := by
  unfold guardCloseItem
  dsimp only
  generalize q.saved.getD s.wpProtect = p
  rcases transact_cases (.setWP p) s (fun s' => afterRestore true { s' with wpProtect := p } q rest)
      (fun s' => afterRestore false { s' with wpProtect := p } q rest) with
    ⟨-, e⟩ | ⟨as, ha, e⟩ | ⟨a, as, ha, -, e⟩ <;> rw [e]
  · exact .waits
  · exact .answers _ _ as p ha (afterRestore_follows true keeps)
  · exact .answers _ a as p ha (afterRestore_follows false keeps)

end

/-- Every item but a command latch (R33). -/
theorem performItem_performs {s : State} {q : Seq} {todo : List Item} (ht : q.todo = todo) :
    Performs s q (performItem s q todo) := by
  have silent : Performs s q (settle s q todo) := .silent (.settles q todo rfl fun h => ht ▸ h)
  cases todo with
  | nil => exact silent
  | cons it rest =>
    have keeps : NoIdentify q.todo → NoIdentify rest := fun h => (ht ▸ h : NoIdentify (it :: rest)).of_tail
    cases it with
    | cmd b => exact silent
    | addr b => exact simpleItem_performs _ keeps
    | mark m => exact simpleItem_performs _ keeps
    | delay => exact .delays (.settles q rest rfl keeps)
    | dataOut d =>
      cases d with
      | nil => exact silent
      | cons b bs => exact simpleItem_performs _ keeps
    | readData n =>
      cases n with
      | zero => exact silent
      | succ n => exact readDataItem_performs _ keeps
    | waitReady => exact waitReadyItem_performs keeps
    | guardOpen => exact guardOpenItem_performs keeps
    | guardClose => exact guardCloseItem_performs keeps
    | act a => exact silent

/-- A step of a busy engine without reset performs the item at its sequencer (R33, R141). -/
theorem step_performs {s t : State} {q : Seq} (hr : s.resetInput = false) (hq : s.seq = some q)
    (h : step s = .next t) : Performs s q t := by
  cases ht : q.todo with
  | nil =>
    obtain rfl : performItem s q q.todo = t := by simpa [step, fetch, hr, hq, ht] using h
    exact performItem_performs rfl
  | cons it rest =>
    rcases step_busy hr hq ht with ⟨b, -, -, e⟩ | ⟨b, rfl, -, e⟩ | ⟨-, e⟩ <;> rw [e] at h
    · simp at h
    · obtain rfl := Host.Outcome.next.inj h
      exact simpleItem_performs (.cmd b) (fun k => (ht ▸ k : NoIdentify (.cmd b :: rest)).of_tail)
        fun _ hb => Transaction.cmd.inj hb ▸ ⟨rest, ht⟩
    · obtain rfl := Host.Outcome.next.inj h
      exact performItem_performs ht

/-! ## The acceptance of a request -/

theorem eq_identify_of_isIdentify {i : Instr} (h : isIdentify i = true) : ∃ f, i = .identify f := by
  cases i with
  | identify f => exact ⟨f, rfl⟩
  | _ => simp [isIdentify] at h

/-- What accepting the instruction `i` does on an idle engine: it is answered at once, starts IDENTIFY, which stands at its
first command, or starts a device operation (R80, R180, R353). -/
inductive Accepts (i : Instr) (s : State) : State → Prop where
  | answered (r : Response) : Accepts i s (s.post r)
  | identify (h : isIdentify i = true) (q : Seq) : Accepts i s (s.startIdentification.goOn q identifyFrame)
  | device {t : State} (h : isIdentify i = false) (q : Seq) (op : q.op = i) (device : NoIdentify q.todo)
      (follows : Follows s q t) : Accepts i s t

/-- Acceptance refuses the request with a response, or starts the operation. -/
theorem accept_accepts {i : Instr} {s : State} {refusal : Option Response} {start : State → State}
    (hq : s.seq = none) (hst : Accepts i s (start s)) : Accepts i s (accept i s refusal start) := by
  rcases accept_cases i s refusal start with ⟨hb, -⟩ | ⟨-, r, -, e⟩ | ⟨-, -, e⟩
  · simp [hq] at hb
  · rw [e]; exact .answered r
  · rwa [e]

/-- A device operation that starts with the frame `q.todo`. -/
theorem Accepts.frame {i : Instr} {s : State} (hi : isIdentify i = false) (q : Seq) (op : q.op = i) {o o' : Bool}
    (h : Fragment o o' q.todo) : Accepts i s (settle s q q.todo) :=
  .device hi q op h.device (.settles q q.todo rfl id)

/-- The start of WRITE_PAGES, which begins with its loop (R238). -/
theorem Accepts.bulk {i : Instr} {s : State} (hi : isIdentify i = false) (q : Seq) (op : q.op = i)
    (ht : q.todo = []) : Accepts i s (startMove (bulkLoop s q)) := by
  have hn : NoIdentify q.todo := by simp [NoIdentify, ht]
  refine .device hi q op hn ?_
  have hm := bulkLoop_outside s q q {}
  generalize bulkLoop s q = m at hm
  cases hm with
  | go q' same => exact .settles q' [] same.op fun _ => by simp [NoIdentify]
  | push q' items same _ _ => exact .stands q' items
  | fail q' r same _ => exact .raises q' r same.op

/-- The scan's frame holds no step of IDENTIFY and opens no guard (R280). -/
theorem fragment_scan (g : Geometry) : Fragment false false (scanFrame g) := by
  unfold scanFrame
  split
  · exact .nil false
  · exact (fragment_readPage false _ _ _).append (.one rfl rfl rfl)

/-- What follows the sequential read's first wait opens no guard (R285). -/
theorem fragment_seqBody (g : Geometry) : Fragment false false (seqBodyItems g) := by
  unfold seqBodyItems
  split
  · exact .one rfl rfl rfl
  · exact fragment_seqPage g

/-- An operation on an idle engine is accepted (R80). -/
theorem exec_accepts {i : Instr} {s : State} (hi : i.isOperation = true) (hq : s.seq = none) :
    ∃ t, exec i s = .next t ∧ Accepts i s t := by
  cases i with
  | identify f =>
    exact ⟨_, rfl, accept_accepts hq (.identify rfl { op := .identify f, todo := identifyFrame })⟩
  | readPage f p => exact ⟨_, rfl, accept_accepts hq (.frame rfl _ rfl (fragment_readPage false _ _ _))⟩
  | writePage f p buf => exact ⟨_, rfl, accept_accepts hq (.frame rfl _ rfl (fragment_writeOnePage _ _ _))⟩
  | writePages f p bufs => exact ⟨_, rfl, accept_accepts hq (.bulk rfl _ rfl rfl)⟩
  | eraseBlock f b =>
    exact ⟨_, rfl, accept_accepts hq (.frame rfl _ rfl ((fragment_eraseOne _ _).append (.one rfl rfl rfl)))⟩
  | eraseRange f b0 b1 =>
    exact ⟨_, rfl, accept_accepts hq (.frame rfl _ rfl ((fragment_eraseOne _ _).append (.one rfl rfl rfl)))⟩
  | scanBadBlocks f => exact ⟨_, rfl, accept_accepts hq (.frame rfl _ rfl (fragment_scan _))⟩
  | seqReadBlock f b =>
    exact ⟨_, rfl, accept_accepts hq (.frame rfl _ rfl ((fragment_seqRead _ _).append (fragment_seqBody _)))⟩
  | getFeature f a =>
    exact ⟨_, rfl, accept_accepts hq (.frame rfl _ rfl
      (.cons rfl rfl rfl (.cons rfl rfl rfl (.cons rfl rfl rfl (.one (a := false) rfl rfl rfl)))))⟩
  | setFeature f a v =>
    exact ⟨_, rfl, accept_accepts hq (.frame rfl _ rfl
      (.cons rfl rfl rfl (.cons rfl rfl rfl (.cons rfl rfl rfl (.one (a := false) rfl rfl rfl)))))⟩
  | computeBer f x y => exact ⟨_, rfl, accept_accepts hq (.answered _)⟩
  | _ => simp [Instr.isOperation] at hi

/-! ## The step -/

/-- What one step does: a reset, a wait of an idle engine, the acceptance or refusal of the oldest request, or the item
at the sequencer. -/
inductive StepsTo (s : State) : State → Prop where
  | resets (asserted : s.resetInput = true) : StepsTo s s.applyReset
  | idles (idle : s.seq = none) : StepsTo s s
  | illegal (idle : s.seq = none) (r : Request) (rs : List Request) (oldest : s.requests = r :: rs) :
      StepsTo s (illegalRequest { s with requests := rs })
  | accepts {t : State} (idle : s.seq = none) (r : Request) (rs : List Request) (i : Instr)
      (oldest : s.requests = r :: rs) (decoded : decodeRequest r = .ok i)
      (accepted : Accepts i { s with requests := rs } t) : StepsTo s t
  | performs {t : State} (q : Seq) (busy : s.seq = some q) (performed : Performs s q t) : StepsTo s t

/-- Every step that answers a next state is one of these. -/
theorem stepsTo_of_step {s t : State} (h : step s = .next t) : StepsTo s t := by
  cases hr : s.resetInput with
  | true =>
    rw [step_reset hr] at h
    obtain rfl := Host.Outcome.next.inj h
    exact .resets hr
  | false =>
    cases hq : s.seq with
    | some q => exact .performs q hq (step_performs hr hq h)
    | none =>
      rcases step_idle_cases hr hq h with rfl | ⟨r, rs, hrs, rfl | ⟨i, hd, he⟩⟩
      · exact .idles hq
      · exact .illegal hq r rs hrs
      · obtain ⟨t', he', ha⟩ := exec_accepts (isOperation_of_decodeRequest hd) (s := { s with requests := rs }) hq
        obtain rfl := Host.Outcome.next.inj (he.symm.trans he')
        exact .accepts hq r rs i hrs hd ha

end Sys2Proof.Machine

/-! What a step leaves alone and what it adds: the ports between two transactions, the response and the abort cause at the
end of an operation, and the identification registers outside IDENTIFY (10_state.md R22 to R34, 60_exceptions.md R345). -/

namespace Sys2Proof.Machine

/-! ## The ports between two transactions -/

/-- No transaction completes, no request is taken, no line moves, and the parameters stay. -/
structure SamePorts (s t : State) : Prop where
  cfg : t.cfg = s.cfg := by rfl
  requests : t.requests = s.requests := by rfl
  answers : t.answers = s.answers := by rfl
  trace : t.trace = s.trace := by rfl
  wpLine : t.wpLine = s.wpLine := by rfl
  markLines : t.markLines = s.markLines := by rfl

theorem SamePorts.refl (s : State) : SamePorts s s := {}

theorem SamePorts.trans {s t u : State} (h : SamePorts s t) (k : SamePorts t u) : SamePorts s u :=
  ⟨k.cfg.trans h.cfg, k.requests.trans h.requests, k.answers.trans h.answers, k.trace.trans h.trace,
    k.wpLine.trans h.wpLine, k.markLines.trans h.markLines⟩

theorem samePorts_post (s : State) (r : Response) : SamePorts s (s.post r) := {}

theorem samePorts_goOn (s : State) (q : Seq) (todo : List Item) : SamePorts s (s.goOn q todo) :=
  {}

theorem samePorts_postError (s : State) (q : Seq) (r : Response) : SamePorts s (postError s q r) := by
  rcases postError_cases s q r with ⟨c, -, ⟨-, e⟩ | ⟨-, e⟩⟩ | ⟨-, e⟩ <;> rw [e] <;> constructor <;> simp

theorem samePorts_raise (s : State) (q : Seq) (r : Response) : SamePorts s (raise s q r) := by
  rcases raise_cases s q r with ⟨b, -, e⟩ | ⟨-, e⟩ <;> rw [e]
  · exact {}
  · exact samePorts_postError s q r

/-! ## The end of an operation -/

/-- The operation goes on, with no response and the abort cause as it was; or it ends with one response, and the cause
stays, or is written from nothing with the code of that response (R345, R346, R394). -/
inductive Ending (s t : State) : Prop where
  | runs (busy : t.busy = true) (responses : t.responses = s.responses) (cause : t.abortCause = s.abortCause)
  | ends (r : Response) (idle : t.busy = false) (responses : t.responses = s.responses ++ [r])
      (cause : t.abortCause = s.abortCause ∨ ∃ c, s.abortCause = none ∧ t.abortCause = some c ∧ r.code = c.result)

/-- The ending speaks only of the responses and the cause before it. -/
theorem Ending.of_same {s s' t : State} (h : Ending s' t) (hr : s'.responses = s.responses)
    (hc : s'.abortCause = s.abortCause) : Ending s t := by
  cases h with
  | runs b r c => exact .runs b (r.trans hr) (c.trans hc)
  | ends a i r c => exact .ends a i (hr ▸ r) (hc ▸ c)

/-- One response exactly where the operation ends (R394). -/
theorem Ending.accounts {s t : State} (h : Ending s t) :
    (t.busy = true ∧ t.responses = s.responses) ∨ (t.busy = false ∧ ∃ r, t.responses = s.responses ++ [r]) := by
  cases h with
  | runs busy responses _ => exact .inl ⟨busy, responses⟩
  | ends r idle responses _ => exact .inr ⟨idle, r, responses⟩

theorem ending_post (s : State) (r : Response) : Ending s (s.post r) := .ends r rfl rfl (.inl rfl)

theorem ending_goOn (s : State) (q : Seq) (todo : List Item) : Ending s (s.goOn q todo) := .runs rfl rfl rfl

/-- The abort rule keeps a cause that is there, and records the given one where there is none (R346). -/
theorem abortSession_cause (s : State) (c : AbortCause) :
    (s.abortSession c).abortCause = s.abortCause ∨
      (s.abortCause = none ∧ (s.abortSession c).abortCause = some c) := by
  cases h : s.abortCause with
  | some c' => exact .inl (by rw [s.abortSession_keeps c h, h])
  | none => exact .inr ⟨rfl, s.abortSession_records c h⟩

theorem ending_postError (s : State) (q : Seq) (r : Response) : Ending s (postError s q r) := by
  have aborts : ∀ (s' : State) (c : AbortCause), s'.responses = s.responses → s'.abortCause = s.abortCause →
      protocolError r.code = some c → Ending s ((s'.abortSession c).post r) := by
    intro s' c hr ha hc
    refine .ends r rfl (by simp [hr]) ?_
    rcases abortSession_cause s' c with h | ⟨hn, h⟩
    · exact .inl (h.trans ha)
    · exact .inr ⟨c, ha ▸ hn, h, (protocolError_result hc).symm⟩
  rcases postError_cases s q r with ⟨c, hc, ⟨-, e⟩ | ⟨-, e⟩⟩ | ⟨-, e⟩ <;> rw [e]
  · exact aborts s.failIdentification c rfl rfl hc
  · exact aborts s c rfl rfl hc
  · exact ending_post s r

theorem ending_raise (s : State) (q : Seq) (r : Response) : Ending s (raise s q r) := by
  rcases raise_cases s q r with ⟨b, -, e⟩ | ⟨-, e⟩ <;> rw [e]
  · exact .runs rfl rfl rfl
  · exact ending_postError s q r

/-! ## Actions and settling -/

/-- The state a move leaves. -/
def Move.state : Move → State
  | .go s _ => s
  | .push s _ _ => s
  | .fail s _ _ => s

/-- The operation a move leaves in the locals. -/
def Move.op : Move → Instr
  | .go _ q => q.op
  | .push _ q _ => q.op
  | .fail _ q _ => q.op

/-- What a computation between two transactions leaves alone: the ports, the responses and the abort cause. -/
structure Computes (s t : State) : Prop where
  ports : SamePorts s t
  responses : t.responses = s.responses
  cause : t.abortCause = s.abortCause

theorem Computes.refl (s : State) : Computes s s := ⟨.refl s, rfl, rfl⟩

theorem Computes.trans {s t u : State} (h : Computes s t) (k : Computes t u) : Computes s u :=
  ⟨h.ports.trans k.ports, k.responses.trans h.responses, k.cause.trans h.cause⟩

/-- An action that is not IDENTIFY's leaves the state as it is (R26). -/
theorem runAction_state_eq {a : Action} (h : a.ofIdentify = false) (s : State) (q : Seq) :
    (runAction a s q).state = s := by
  rcases runAction_state h s q with ⟨q', e⟩ | ⟨q', items, e⟩ | ⟨q', r, e⟩ <;> rw [e] <;> rfl

/-- No action touches the ports, the responses or the abort cause: IDENTIFY's write the identification registers, the
others nothing. -/
theorem runAction_computes (a : Action) (s : State) (q : Seq) : Computes s (runAction a s q).state := by
  cases h : a.ofIdentify with
  | false => rw [runAction_state_eq h]; exact .refl s
  | true =>
    cases a <;> simp [Action.ofIdentify] at h <;> unfold runAction <;> dsimp only
    case keepIdBytes => exact ⟨{}, rfl, rfl⟩
    case checkSignature =>
      unfold checkSignature
      split <;> exact ⟨{}, rfl, rfl⟩
    case parsePage =>
      unfold parsePage
      dsimp only
      split
      · split <;> exact ⟨{}, rfl, rfl⟩
      · exact .refl s

theorem Computes.action {s s' : State} (h : Computes s s') {a : Action} {q : Seq} {m : Move}
    (hm : runAction a s' q = m) : Computes s m.state := hm ▸ h.trans (runAction_computes a s' q)

/-- What the engine comes to without a further transaction: the ports are as they were, and the operation goes on or ends
with one response. -/
structure Silent (s t : State) : Prop where
  ports : SamePorts s t
  ending : Ending s t

theorem Computes.silent {s t u : State} (h : Computes s t) (k : Silent t u) : Silent s u :=
  ⟨h.ports.trans k.ports, k.ending.of_same h.responses h.cause⟩

theorem silent_settle (s : State) (q : Seq) (todo : List Item) : Silent s (settle s q todo) := by
  refine settle_rule (J := fun s' _ _ => Computes s s') (P := Silent s) ?_ ?_ ?_ ?_ ?_ ?_ ?_ todo s q (.refl s)
  · exact fun s' q h => h.silent ⟨samePorts_post _ _, ending_post _ _⟩
  · exact fun s' q rest h => h
  · exact fun s' q rest h => h
  · exact fun a s' q rest t q' h hm => h.action hm
  · exact fun a s' q rest t q' items h hm => (h.action hm).silent ⟨samePorts_goOn _ _ _, ending_goOn _ _ _⟩
  · exact fun a s' q rest t q' r h hm => (h.action hm).silent ⟨samePorts_raise _ _ _, ending_raise _ _ _⟩
  · exact fun s' q it rest h _ => h.silent ⟨samePorts_goOn _ _ _, ending_goOn _ _ _⟩

theorem Follows.silent {s t : State} {q : Seq} (h : Follows s q t) : Silent s t := by
  cases h with
  | settles q' todo _ _ => exact silent_settle s q' todo
  | stands q' todo => exact ⟨samePorts_goOn _ _ _, ending_goOn _ _ _⟩
  | raises q' r _ => exact ⟨samePorts_raise _ _ _, ending_raise _ _ _⟩
  | exits q' r _ => exact ⟨samePorts_postError _ _ _, ending_postError _ _ _⟩

theorem Accepts.silent {i : Instr} {s t : State} (h : Accepts i s t) : Silent s t := by
  cases h with
  | answered r => exact ⟨samePorts_post _ _, ending_post _ _⟩
  | identify _ q => exact ⟨{}, .runs rfl rfl rfl⟩
  | device _ _ _ _ follows => exact follows.silent

/-- The parameters stay (R31). -/
theorem Performs.cfg {s t : State} {q : Seq} (h : Performs s q t) : t.cfg = s.cfg := by
  cases h with
  | waits => rfl
  | silent follows => exact follows.silent.ports.cfg
  | delays follows => exact follows.silent.ports.cfg
  | answers tr a as w _ follows _ => simpa using follows.silent.ports.cfg

/-- A step of a busy engine goes on or ends the operation with one response (R345, R394). -/
theorem Performs.ending {s t : State} {q : Seq} (hq : s.seq = some q) (h : Performs s q t) : Ending s t := by
  cases h with
  | waits => exact .runs (by simp [State.busy, hq]) rfl rfl
  | silent follows => exact follows.silent.ending
  | delays follows => exact follows.silent.ending.of_same rfl rfl
  | answers tr a as w _ follows _ => exact follows.silent.ending.of_same (by simp) (by simp)

/-- A step other than a reset changes nothing, or goes on or ends as an operation does. -/
theorem StepsTo.ending {s t : State} (h : StepsTo s t) (hr : s.resetInput = false) : t = s ∨ Ending s t := by
  cases h with
  | resets hr' => simp [hr] at hr'
  | idles => exact .inl rfl
  | illegal _ r rs _ => exact .inr ((ending_post _ _).of_same rfl rfl)
  | accepts _ r rs i _ _ accepted => exact .inr (accepted.silent.ending.of_same rfl rfl)
  | performs q hq performed => exact .inr (performed.ending hq)

/-! ## The transaction of a step -/

/-- The events `es` are what one step adds to the trace: nothing, one transaction with the oldest waiting answer, or one
`Delay`; and the lines move as `es` say (R33, R72, R146). -/
structure Adds (s t : State) (es : List Event) : Prop where
  trace : t.trace = s.trace ++ es
  answers : (es = [] ∧ t.answers = s.answers) ∨
    (∃ tr a, es = [{ transaction := tr, answer := some a }] ∧ s.answers = a :: t.answers) ∨
    (es = [{ transaction := .delay s.cfg.featureSettleDelay, answer := none }] ∧ t.answers = s.answers)
  wpLine : t.wpLine = wpLineAfter s.cfg s.wpLine es
  markLines : t.markLines = markLinesAfter s.cfg s.markLines es

/-- Where the ports stay, nothing is added. -/
theorem SamePorts.adds {s t : State} (h : SamePorts s t) : Adds s t [] :=
  ⟨by simp [h.trace], .inl ⟨rfl, h.answers⟩, h.wpLine, h.markLines⟩

/-- A completed transaction drives the write-protect line as its event says (R146). -/
theorem driveLines_wpLine (s : State) (tr : Transaction) (a : Answer) :
    (s.driveLines tr a).wpLine = wpLineAfter s.cfg s.wpLine [{ transaction := tr, answer := some a }] := by
  cases tr <;> simp [State.driveLines, wpLineAfter]

/-- A completed transaction drives the sequential-read lines as its event says (R146). -/
theorem driveLines_markLines (s : State) (tr : Transaction) (a : Answer) :
    (s.driveLines tr a).markLines = markLinesAfter s.cfg s.markLines [{ transaction := tr, answer := some a }] := by
  cases tr <;> simp [State.driveLines, markLinesAfter]

theorem Performs.adds {s t : State} {q : Seq} (h : Performs s q t) : ∃ es, Adds s t es := by
  cases h with
  | waits => exact ⟨_, (SamePorts.refl s).adds⟩
  | silent follows => exact ⟨_, follows.silent.ports.adds⟩
  | delays follows =>
    have p := follows.silent.ports
    exact ⟨_, p.trace, .inr (.inr ⟨rfl, p.answers⟩), p.wpLine, p.markLines⟩
  | answers tr a as w oldest follows _ =>
    have p := follows.silent.ports
    exact ⟨_, p.trace, .inr (.inl ⟨tr, a, rfl, oldest.trans (congrArg _ p.answers.symm)⟩),
      p.wpLine.trans (driveLines_wpLine s tr a), p.markLines.trans (driveLines_markLines s tr a)⟩

theorem StepsTo.adds {s t : State} (h : StepsTo s t) (hr : s.resetInput = false) : ∃ es, Adds s t es := by
  cases h with
  | resets hr' => simp [hr] at hr'
  | idles => exact ⟨_, (SamePorts.refl s).adds⟩
  | illegal => exact ⟨[], by simp [illegalRequest], .inl ⟨rfl, rfl⟩, rfl, rfl⟩
  | accepts _ r rs i _ _ accepted =>
    have p := accepted.silent.ports
    exact ⟨[], by simp [p.trace], .inl ⟨rfl, p.answers⟩, p.wpLine, p.markLines⟩
  | performs q _ performed => exact performed.adds

/-- A step that sends a command byte stands at that byte (R33, R141). -/
theorem StepsTo.at_command {s t : State} {b : Byte} {a : Answer} (h : StepsTo s t)
    (ht : t.trace = s.trace ++ [{ transaction := .cmd b, answer := some a }]) :
    ∃ q rest, s.seq = some q ∧ q.todo = .cmd b :: rest := by
  cases h with
  | resets => simp at ht
  | idles => simp at ht
  | illegal => simp [illegalRequest] at ht
  | accepts _ r rs i _ _ accepted => simp [accepted.silent.ports.trace] at ht
  | performs q hq performed =>
    cases performed with
    | waits => simp at ht
    | silent follows => simp [follows.silent.ports.trace] at ht
    | delays follows => simp [follows.silent.ports.trace] at ht
    | answers tr a' as w _ follows head =>
      obtain ⟨rfl, -⟩ : tr = .cmd b ∧ a' = a := by simpa [follows.silent.ports.trace] using ht
      obtain ⟨rest, hrest⟩ := head b rfl
      exact ⟨q, rest, hq, hrest⟩

/-! ## The identification registers -/

/-- The identification state, the geometry registers and the identification bytes are as they were. -/
structure SameIdentity (s t : State) : Prop where
  idState : t.idState = s.idState := by rfl
  geom : t.geom = s.geom := by rfl
  idBytes : t.idBytes = s.idBytes := by rfl

theorem sameIdentity_postError {s : State} {q : Seq} (hd : isIdentify q.op = false) (r : Response) :
    SameIdentity s (postError s q r) := by
  rcases postError_cases s q r with ⟨c, -, ⟨hi, -⟩ | ⟨-, e⟩⟩ | ⟨-, e⟩
  · simp [hd] at hi
  · rw [e]; constructor <;> simp
  · rw [e]; exact {}

theorem sameIdentity_raise {s : State} {q : Seq} (hd : isIdentify q.op = false) (r : Response) :
    SameIdentity s (raise s q r) := by
  rcases raise_cases s q r with ⟨b, -, e⟩ | ⟨-, e⟩ <;> rw [e]
  · exact {}
  · exact sameIdentity_postError hd r

theorem Move.op_ite (c : Prop) [Decidable c] (m m' : Move) :
    (if c then m else m').op = if c then m.op else m'.op := by split <;> rfl

theorem bulkGoodBlock_op (s : State) (q : Seq) : (bulkGoodBlock s q).op = q.op := by
  unfold bulkGoodBlock; split <;> rfl

theorem bulkLoop_op (s : State) (q : Seq) : (bulkLoop s q).op = q.op := by
  have h := bulkLoop_outside s q q {}
  generalize bulkLoop s q = m at h
  cases h with
  | go _ same => exact same.op
  | push _ _ same _ _ => exact same.op
  | fail _ _ same _ => exact same.op

/-- No action changes which operation runs (R33). -/
theorem runAction_op (a : Action) (s : State) (q : Seq) : (runAction a s q).op = q.op := by
  cases a <;> unfold runAction <;> dsimp only
  case keepIdBytes => rfl
  case checkSignature => unfold checkSignature; split <;> rfl
  case parsePage => unfold parsePage; dsimp only; rw [Move.op_ite, Move.op_ite]; simp [Move.op]
  case takeStatus => rfl
  case programVerdict att => unfold programVerdict; rw [Move.op_ite, Move.op_ite]; simp [Move.op]
  case eraseVerdict => unfold eraseVerdict; split <;> rfl
  case rangeNext =>
    unfold rangeNext
    dsimp only
    split
    · rw [Move.op_ite]
      split
      · rfl
      · split <;> rfl
    · rfl
  case scanNext => unfold scanNext; dsimp only; rw [Move.op_ite]; simp [Move.op]
  case seqPage => rfl
  case seqNext => unfold seqNext; dsimp only; split <;> rfl
  case bulkMarker => rfl
  case bulkEntered => unfold bulkEntered; rw [Move.op_ite, bulkLoop_op, bulkGoodBlock_op]; simp
  case bulkErased => unfold bulkErased; split <;> rfl
  case bulkWritten => exact bulkLoop_op _ _

/-- A device operation computes on its locals alone: its actions leave the state as it is. -/
structure DeviceComputes (s s' : State) (q : Seq) (todo : List Item) : Prop where
  state : s' = s
  device : isIdentify q.op = false
  todo : NoIdentify todo

theorem DeviceComputes.action {s s' : State} {q : Seq} {a : Action} {rest : List Item}
    (h : DeviceComputes s s' q (.act a :: rest)) {m : Move} (hm : runAction a s' q = m) :
    m.state = s ∧ isIdentify m.op = false := by
  subst hm
  exact ⟨(runAction_state_eq (h.todo (.act a) (by simp)) s' q).trans h.state, (runAction_op a s' q).symm ▸ h.device⟩

theorem sameIdentity_settle {s : State} {q : Seq} {todo : List Item} (hd : isIdentify q.op = false)
    (hn : NoIdentify todo) : SameIdentity s (settle s q todo) := by
  refine settle_rule (J := DeviceComputes s) (P := SameIdentity s) ?_ ?_ ?_ ?_ ?_ ?_ ?_ todo s q ⟨rfl, hd, hn⟩
  · rintro _ q ⟨rfl, -, -⟩
    exact {}
  · exact fun s' q rest h => { h with todo := h.todo.of_tail }
  · exact fun s' q rest h => { h with todo := h.todo.of_tail }
  · intro a s' q rest t q' h hm
    obtain ⟨hs, ho⟩ := h.action hm
    exact ⟨hs, ho, h.todo.of_tail⟩
  · intro a s' q rest t q' items h hm
    obtain ⟨rfl, -⟩ : t = s ∧ _ := h.action hm
    exact {}
  · intro a s' q rest t q' r h hm
    obtain ⟨rfl, ho⟩ : t = s ∧ isIdentify q'.op = false := h.action hm
    exact sameIdentity_raise ho r
  · rintro _ q it rest ⟨rfl, -, -⟩ -
    exact {}

theorem Follows.sameIdentity {s t : State} {q : Seq} (h : Follows s q t) (hd : isIdentify q.op = false)
    (hn : NoIdentify q.todo) : SameIdentity s t := by
  cases h with
  | settles q' todo op keeps => exact sameIdentity_settle (op ▸ hd) (keeps hn)
  | stands q' todo => exact {}
  | raises q' r op => exact sameIdentity_raise (op ▸ hd) r
  | exits q' r op => exact sameIdentity_postError (op ▸ hd) r

/-- A step of a device operation leaves the identification registers alone (R26). -/
theorem Performs.sameIdentity {s t : State} {q : Seq} (h : Performs s q t) (hd : isIdentify q.op = false)
    (hn : NoIdentify q.todo) : SameIdentity s t := by
  cases h with
  | waits => exact {}
  | silent follows => exact follows.sameIdentity hd hn
  | delays follows =>
    obtain ⟨h1, h2, h3⟩ := follows.sameIdentity hd hn
    exact ⟨h1, h2, h3⟩
  | answers tr a as w _ follows _ =>
    obtain ⟨h1, h2, h3⟩ := follows.sameIdentity hd hn
    exact ⟨by simpa using h1, by simpa using h2, by simpa using h3⟩

end Sys2Proof.Machine

/-! The statements of the state family, from the lemmas above. -/

namespace Sys2Proof.Machine

/-! ## Reset, numbers, and the step's fetch -/

/-- Settles O1: the reset values are written out in `State.reset`. -/
theorem resetHoldsTheValuesOfTheSpec : Obligations.ResetHoldsTheValuesOfTheSpec :=
  ⟨rfl, rfl, rfl, rfl, rfl, rfl, rfl, rfl, rfl, rfl⟩

/-- A response field reads back a value that fits (R85). -/
theorem toNat_field40 {n : Nat} (h : n < 2 ^ 40) : (field40 n).toNat = n := by
  rw [field40_of_lt h, BitVec.toNat_ofNat, Nat.mod_eq_of_lt h]

/-- Settles O2: the code tables by evaluation, the bounds code by code, the fields by `toNat_field40`. -/
theorem numbersOfCodesAndStates : Obligations.NumbersOfCodesAndStates :=
  ⟨by decide, by decide, fun c => by cases c <;> decide, fun st => by cases st <;> decide, fun _ => toNat_field40⟩

/-- Settles O9. -/
theorem stepExecutesTheDecodedCommand : Obligations.StepExecutesTheDecodedCommand :=
  fun _ _ _ _ _ => step_command

/-- Settles O11: a step with the reset input asserted is `applyReset`. -/
theorem resetWorksAtAnyTime : Obligations.ResetWorksAtAnyTime :=
  fun s hr => ⟨s.applyReset, step_reset hr, rfl, rfl, rfl, rfl, rfl, rfl, rfl, rfl, rfl, rfl, rfl, rfl⟩

/-! ## One transaction a step -/

/-- A NAND command is in the table with the byte its encoding shows (R87 to R93). -/
theorem mem_commandTable {i : Instr} {b : Byte} (hi : i.isOperation = false) (he : encode i = .command b) :
    (b, i) ∈ commandTable := by
  cases i <;> simp [Instr.isOperation] at hi <;> obtain rfl := PortWord.command.inj he <;> decide

/-- Settles O28: the command is latched where the sequencer stands at it, and the program goes on; `settle` stands at a
transaction. -/
theorem nandCommandIsOneCommandLatch : Obligations.NandCommandIsOneCommandLatch := by
  intro s q b i rest as hi he hq ht ha
  have latched : exec i s = .next (settle (s.after as [okEvent (.cmd b)]) q rest) := by
    rw [exec_command (mem_commandTable hi he), latchCommand_at hq ht, simpleItem, transact_ok ha]
    rfl
  refine ⟨latched, ?_⟩
  rintro it rest' rfl hit
  rw [latched, settle_transaction hit]
  rfl

/-- Settles O53: what a step adds to the trace, case by case of what a step can do. -/
theorem oneTransactionAStep : Obligations.OneTransactionAStep := by
  intro s t hr h
  obtain ⟨es, added⟩ := (stepsTo_of_step h).adds hr
  exact ⟨es, added.trace, added.answers, added.wpLine, added.markLines⟩

/-! ## Who writes what -/

/-- Settles O57: outside reset the parameters are among what a step's computation leaves alone. -/
theorem parametersAreFixed : Obligations.ParametersAreFixed := by
  intro s t h
  cases stepsTo_of_step h with
  | resets => rfl
  | idles => rfl
  | illegal => rfl
  | accepts _ r rs i _ _ accepted => exact accepted.silent.ports.cfg
  | performs q _ performed => exact performed.cfg

/-- Settles O58: a busy engine's step goes on or ends; an idle one's waits, or takes the oldest request. -/
theorem oneResponseEndsAnOperation : Obligations.OneResponseEndsAnOperation := by
  intro s t hr h
  cases stepsTo_of_step h with
  | resets hr' => simp [hr] at hr'
  | idles idle => exact ⟨fun hb => by simp [State.busy, idle] at hb, fun _ => .inl rfl⟩
  | illegal idle r rs oldest =>
    exact ⟨fun hb => by simp [State.busy, idle] at hb, fun _ => .inr ⟨r, oldest, .inr ⟨rfl, _, rfl⟩⟩⟩
  | accepts idle r rs i oldest _ accepted =>
    refine ⟨fun hb => by simp [State.busy, idle] at hb, fun _ => .inr ⟨r, ?_, accepted.silent.ending.accounts⟩⟩
    rw [oldest, accepted.silent.ports.requests]
  | performs q hq performed =>
    exact ⟨fun _ => (performed.ending hq).accounts, fun hb => by simp [State.busy, hq] at hb⟩

/-- Settles O56: the cause changes only where an operation ends, from nothing and with the response of its error. -/
theorem abortCauseIsKeptUntilReset : Obligations.AbortCauseIsKeptUntilReset := by
  intro s t _ hr h
  rcases (stepsTo_of_step h).ending hr with rfl | ⟨-, -, cause⟩ | ⟨r, -, responses, cause | ⟨c, hn, hc, hrc⟩⟩
  · exact ⟨fun c hc => hc, fun c hn hc => by simp [hn] at hc⟩
  · exact ⟨fun c hc => cause.trans hc, fun c hn hc => by simp [cause, hn] at hc⟩
  · exact ⟨fun c hc => cause.trans hc, fun c hn hc => by simp [cause, hn] at hc⟩
  · refine ⟨fun c' hc' => by simp [hn] at hc', fun c' _ hc' => ⟨r, responses, ?_⟩⟩
    rw [hrc, Option.some.inj (hc.symm.trans hc')]

/-- With the invariant, while IDENTIFY runs the geometry has no value, and gets one only as a whole, with `Ready`. -/
theorem geom_of_identify {s t : State} {q : Seq} (hs : SeqInv s q) (hi : isIdentify q.op = true) (ht : Inv t) :
    t.geom = s.geom ∨ t.geom = none ∨ (s.geom = none ∧ t.gValid = true ∧ t.idState = .ready) := by
  obtain ⟨_, _, _, _, _, _, _, hg, _⟩ := hs.identify hi
  cases hv : t.gValid with
  | true => exact .inr (.inr ⟨hg, rfl, ht.validIffReady.mp hv⟩)
  | false => exact .inr (.inl (by simpa [State.gValid] using hv))

/-- Where the identification registers stay, O55's two clauses hold at once. -/
theorem SameIdentity.unwritten {s t : State} (h : SameIdentity s t) (P Q : Prop) :
    (t.geom ≠ s.geom ∨ t.idState ≠ s.idState ∨ t.idBytes ≠ s.idBytes → P) ∧ (t.geom = s.geom ∨ Q) :=
  ⟨fun hne => by simp [h.geom, h.idState, h.idBytes] at hne, .inl h.geom⟩

/-- Settles O55: every step but IDENTIFY's leaves the identification registers alone; accepting IDENTIFY clears the
geometry, and running it commits a whole one. -/
theorem onlyIdentifyWritesTheGeometry : Obligations.OnlyIdentifyWritesTheGeometry := by
  intro s t h hr hst
  have ht : Inv t := everyStepKeepsTheInvariant s t h hst
  cases stepsTo_of_step hst with
  | resets hr' => simp [hr] at hr'
  | idles => exact SameIdentity.unwritten {} _ _
  | illegal => exact SameIdentity.unwritten {} _ _
  | accepts idle r rs i oldest decoded accepted =>
    cases accepted with
    | answered a => exact SameIdentity.unwritten {} _ _
    | identify hi q =>
      obtain ⟨f, rfl⟩ := eq_identify_of_isIdentify hi
      exact ⟨fun _ => .inr ⟨idle, r, rs, f, oldest, decoded⟩, .inr (.inl rfl)⟩
    | device hi q op device follows =>
      obtain ⟨h1, h2, h3⟩ := follows.sameIdentity (op ▸ hi) device
      exact SameIdentity.unwritten ⟨h1, h2, h3⟩ _ _
  | performs q hq performed =>
    have hs := h.running q hq
    cases hi : isIdentify q.op with
    | true => exact ⟨fun _ => .inl ⟨q, hq, hi⟩, geom_of_identify hs hi ht⟩
    | false => exact (performed.sameIdentity hi (hs.device hi).2).unwritten _ _

/-! ## The write-enable guard -/

/-- A program that closes an open guard still holds the guard's exit (R157). -/
theorem guardClose_mem_of_guardAfter {todo : List Item} (h : guardAfter true todo = some false) :
    .guardClose ∈ todo := by
  induction todo with
  | nil => simp [guardAfter] at h
  | cons it rest ih =>
    by_cases hit : it = .guardClose
    · exact hit ▸ List.mem_cons_self
    · have hstep : ∀ o, guardStep true it = some o → o = true := by
        intro o ho
        unfold guardStep at ho
        split at ho <;> simp_all
      unfold guardAfter at h
      split at h
      · rename_i o ho
        rw [hstep o ho] at h
        exact List.mem_cons_of_mem _ (ih h)
      · simp at h

/-- With the invariant, a sequencer at a write or erase command stands inside a guard, unprotected (R157, R388). -/
theorem SeqInv.unprotected_at_write {s : State} {q : Seq} {b : Byte} {rest : List Item} (h : SeqInv s q)
    (ht : q.todo = .cmd b :: rest) (hb : b ∈ writeCommands) : s.wpProtect = false := by
  refine h.openUnprotected ?_ (h.pending_none ht (by simp))
  have hg := h.guardBalanced
  by_contra hc
  have hn : q.saved = none := by simpa using hc
  simp [ht, guardAfter, guardStep, hb, hn] at hg

/-- With the invariant, the flag is 0 only inside a guard that saved 1 and whose exit is still to come (R30, R157). -/
theorem Inv.guarded_of_unprotected {s : State} (h : Inv s) (hw : s.wpProtect = false) :
    ∃ q, s.seq = some q ∧ q.saved = some true ∧ .guardClose ∈ q.todo := by
  cases hq : s.seq with
  | none => simp [(h.idle hq).1] at hw
  | some q =>
    have hs := h.running q hq
    cases hsv : q.saved with
    | none => simp [hs.protectedOutside hsv] at hw
    | some b =>
      obtain rfl := hs.savedProtected b hsv
      exact ⟨q, rfl, hsv, guardClose_mem_of_guardAfter (by simpa [hsv] using hs.guardBalanced)⟩

/-- Settles O60: a command byte is sent only where the sequencer stands at it, and there the guard is open. -/
theorem noWriteCommandWhileProtected : Obligations.NoWriteCommandWhileProtected := by
  intro s t h hst
  refine ⟨fun b a htr hb => ?_, h.guarded_of_unprotected⟩
  obtain ⟨q, rest, hq, ht⟩ := (stepsTo_of_step hst).at_command htr
  exact (h.running q hq).unprotected_at_write ht hb

end Sys2Proof.Machine

/-! The statements about the request header and the two decoders (30_encoding.md R80 to R84, R87 to R93, R96). -/

namespace Sys2Proof.Machine

/-- Settles O4: the round trip of each constructor. -/
theorem decodeOfEncodeIsIdentity : Obligations.DecodeOfEncodeIsIdentity := by
  intro i
  cases i with
  | identify f => exact Laws.RoundTrip.identify f
  | readPage f p => exact Laws.RoundTrip.readPage f p
  | writePage f p buf => exact Laws.RoundTrip.writePage f p buf
  | writePages f p bufs => exact Laws.RoundTrip.writePages f p bufs
  | eraseBlock f b => exact Laws.RoundTrip.eraseBlock f b
  | eraseRange f b0 b1 => exact Laws.RoundTrip.eraseRange f b0 b1
  | scanBadBlocks f => exact Laws.RoundTrip.scanBadBlocks f
  | seqReadBlock f b => exact Laws.RoundTrip.seqReadBlock f b
  | getFeature f a => exact Laws.RoundTrip.getFeature f a
  | setFeature f a v => exact Laws.RoundTrip.setFeature f a v
  | computeBer f x y => exact Laws.RoundTrip.computeBer f x y
  | nandRead => exact Laws.RoundTrip.nandRead
  | nandRead1 => exact Laws.RoundTrip.nandRead1
  | nandReadStart => exact Laws.RoundTrip.nandReadStart
  | nandReadOob => exact Laws.RoundTrip.nandReadOob
  | nandSeqin => exact Laws.RoundTrip.nandSeqin
  | nandPageprog => exact Laws.RoundTrip.nandPageprog
  | nandGetStatus => exact Laws.RoundTrip.nandGetStatus
  | nandEraseSetup => exact Laws.RoundTrip.nandEraseSetup
  | nandEraseConfirm => exact Laws.RoundTrip.nandEraseConfirm
  | nandReadId => exact Laws.RoundTrip.nandReadId
  | nandReadParamPage => exact Laws.RoundTrip.nandReadParamPage
  | nandGetFeatures => exact Laws.RoundTrip.nandGetFeatures
  | nandSetFeatures => exact Laws.RoundTrip.nandSetFeatures

/-- The header as the number its four fields stand for (R80). -/
theorem toNat_header (h : Header) : h.toNat = (opField h).toNat + 2 ^ 8 * (flagsField h).toNat +
    2 ^ 16 * (arg0Field h).toNat + 2 ^ 48 * (arg1Field h).toNat := by
  have hh := h.isLt
  simp only [opField, flagsField, arg0Field, arg1Field, BitVec.extractLsb'_toNat, Nat.shiftRight_eq_div_pow]
  omega

/-- Settles O5: the number of any header, and of a packed one by what its fields read back. -/
theorem headerIsItsFourFields : Obligations.HeaderIsItsFourFields :=
  ⟨toNat_header, fun op f a b => by simpa using toNat_header (packHeader op f a b)⟩

/-- Settles O3: each word is decoded by evaluation. -/
theorem spelledWordsDecode : Obligations.SpelledWordsDecode := by
  refine ⟨?_, ?_, ?_, ?_, ?_, ?_, ?_, ?_, ?_⟩ <;> decide

/-- An `op` outside R81 is rejected by name (R84). -/
theorem decodeRequest_undefined {r : Request}
    (h : (opField r.header).toNat = 0 ∨ 0x0C ≤ (opField r.header).toNat) :
    decodeRequest r = .error (.undefinedOperation (opField r.header)) := by
  unfold decodeRequest
  dsimp only
  split
  case h_12 => rfl
  all_goals omega

/-- Settles O6: each clause fixes the number the decoder looks at. -/
theorem requestsDecodeByTheirOperationCode : Obligations.RequestsDecodeByTheirOperationCode := by
  intro r
  refine ⟨?_, ?_, ?_, ?_, ?_, ?_, ?_, ?_, ?_, ?_, ?_, decodeRequest_undefined⟩ <;> intro h <;>
    simp [decodeRequest, h, firstBuffer, secondBuffer]

/-- The command decoder finds every byte of its table (R87 to R93). -/
theorem decodeCommand_of_mem {b : Byte} {i : Instr} (h : (b, i) ∈ commandTable) : decodeCommand b = .ok i :=
  (by decide : ∀ e ∈ commandTable, decodeCommand e.1 = .ok e.2) (b, i) h

/-- Settles O7: the bytes written out are the command table. -/
theorem theThirteenCommandBytesDecode : Obligations.TheThirteenCommandBytesDecode :=
  fun _ _ => ⟨decodeCommand_eq_ok, decodeCommand_of_mem⟩

end Sys2Proof.Machine

/-! What the address cycles spell, written out (41_address_translation.md R124 to R127). -/

namespace Sys2Proof.Machine

theorem rowBytes_three (r : Nat) :
    rowBytes r 3 = [BitVec.ofNat 8 r, BitVec.ofNat 8 (r / 2 ^ 8), BitVec.ofNat 8 (r / 2 ^ 16)] := by
  simp [rowBytes, List.range_succ]

theorem rowBytes_four (r : Nat) :
    rowBytes r 4 =
      [BitVec.ofNat 8 r, BitVec.ofNat 8 (r / 2 ^ 8), BitVec.ofNat 8 (r / 2 ^ 16), BitVec.ofNat 8 (r / 2 ^ 24)] := by
  simp [rowBytes, List.range_succ]

/-- Settles O17: the column's zero bytes and the row's bytes, in both modes. -/
theorem addressCycleBytes : Obligations.AddressCycleBytes := by
  refine ⟨fun g p hg => ?_, fun g b hg => ?_⟩
  · rw [encodeAddress_page hg, pageAddressBytes, rowBytes_three, rowBytes_four]
  · rw [encodeAddress_erase hg, eraseAddressBytes]
    cases g.largePage with
    | true => exact rowBytes_three _
    | false => exact rowBytes_four _

end Sys2Proof.Machine

/-! The acceptance of a request by an idle engine and by a busy one (30_encoding.md R80 to R84, 60_exceptions.md R352,
R353). -/

namespace Sys2Proof.Machine

/-! ## The step of an idle engine -/

/-- Settles O8: the fetch of an idle engine is the decoded request with the port's rest. -/
theorem stepExecutesTheDecodedRequest : Obligations.StepExecutesTheDecodedRequest := by
  intro s r rs i hr hq hrs hd
  simp [step, fetch, hr, hq, hrs, hd]

/-- An idle engine answers a request that spells no operation with ILLEGAL_REQUEST (R84). -/
theorem step_illegal {s : State} {r : Request} {rs : List Request} {e : DecodeError} (hr : s.resetInput = false)
    (hq : s.seq = none) (hrs : s.requests = r :: rs) (hd : decodeRequest r = .error e) :
    step s = .next (illegalRequest { s with requests := rs }) := by
  simp [step, fetch, hr, hq, hrs, hd]

/-- Settles O10: the undefined code is rejected by the decoder, and posting leaves an idle sequencer idle. -/
theorem undefinedOperationGetsIllegalRequest : Obligations.UndefinedOperationGetsIllegalRequest := by
  intro s r rs hr hq hrs hop
  rw [step_illegal hr hq hrs (decodeRequest_undefined hop), illegalRequest, State.post, ← hq]

/-- With the invariant, the command byte the sequencer stands at is one of R87 to R93 (R96). -/
theorem SeqInv.command_known {s : State} {q : Seq} {b : Byte} {rest : List Item} (h : SeqInv s q)
    (ht : q.todo = .cmd b :: rest) : commandBytes.contains b = true :=
  h.commands (.cmd b) (by simp [ht])

/-- Settles O52: a reset, a wait, an acceptance or a refusal of an idle engine, and the transaction of a busy one each
answer a next state; the one fault is at an unknown command byte. -/
theorem theEngineNeverStops : Obligations.TheEngineNeverStops := by
  intro s h
  cases hr : s.resetInput with
  | true => exact ⟨_, step_reset hr⟩
  | false =>
    cases hq : s.seq with
    | none =>
      cases hrs : s.requests with
      | nil => exact ⟨_, step_idle hr hq hrs⟩
      | cons r rs =>
        cases hd : decodeRequest r with
        | error e => exact ⟨_, step_illegal hr hq hrs hd⟩
        | ok i =>
          rw [stepExecutesTheDecodedRequest s r rs i hr hq hrs hd]
          obtain ⟨t, ht, -⟩ := inv_exec_operation (h.withRequests rs) (isOperation_of_decodeRequest hd)
          exact ⟨t, ht⟩
    | some q =>
      have hs := h.running q hq
      obtain ⟨it, rest, ht, -⟩ := hs.atTransaction
      rcases step_busy hr hq ht with ⟨b, rfl, unknown, -⟩ | ⟨b, -, -, e⟩ | ⟨-, e⟩
      · exact absurd (unknown.symm.trans (hs.command_known ht)) Bool.false_ne_true
      · exact ⟨_, e⟩
      · exact ⟨_, e⟩

/-! ## Acceptance while another operation runs -/

/-- An operation is spelled by a request, and its meaning is the acceptance of that request (R80, R81, R353). -/
theorem operation_request_and_acceptance {i : Instr} (hi : i.isOperation = true) (s : State) :
    ∃ r refusal start, encode i = .request r ∧ exec i s = .next (accept i s refusal start) := by
  cases i with
  | identify _ | readPage _ _ | writePage _ _ _ | writePages _ _ _ | eraseBlock _ _ | eraseRange _ _ _
  | scanBadBlocks _ | seqReadBlock _ _ | getFeature _ _ | setFeature _ _ _ | computeBer _ _ _ =>
    exact ⟨_, _, _, rfl, rfl⟩
  | _ => simp [Instr.isOperation] at hi

/-- A busy engine holds what it is asked to accept (R80). -/
theorem accept_busy {s : State} {q : Seq} (hq : s.seq = some q) (i : Instr) (refusal : Option Response)
    (start : State → State) : accept i s refusal start = s.hold i := by
  simp [accept, State.busy, hq]

/-- Settles O13: a busy engine's acceptance is to hold the request. -/
theorem operationIsHeldByABusyEngine : Obligations.OperationIsHeldByABusyEngine := by
  intro s q i hq hi
  obtain ⟨r, refusal, start, hr, he⟩ := operation_request_and_acceptance hi s
  exact ⟨r, hr, by rw [he, accept_busy hq, State.hold, hr]⟩

/-! ## The flag check -/

/-- An undefined flag bit fails the flag check (R82). -/
theorem flagsDefined_eq_false {d f : Byte} (h : f &&& ~~~d ≠ 0x00#8) : flagsDefined d f = false := by
  simpa [flagsDefined] using h

/-- Where an operation defines no flag, every bit is undefined (R82). -/
theorem flagsDefined_none_eq_false {f : Byte} (h : f ≠ 0x00#8) : flagsDefined 0x00#8 f = false :=
  flagsDefined_eq_false (by rwa [show ~~~0x00#8 = BitVec.allOnes 8 from rfl, BitVec.and_allOnes])

/-- A session that is not aborted, and identified where the operation needs it, passes the state checks (R353). -/
theorem stateChecks_pass {n : Bool} {s : State} (ha : s.abortCause = none) (hs : n = true → s.idState = .ready)
    (others : Option Response) : stateChecks n s others = others := by
  cases n with
  | false => simp [stateChecks, ha]
  | true => simp [stateChecks, ha, hs rfl]

/-- An idle engine answers a refused request at once, and nothing else changes (R353). -/
theorem accept_refused {s : State} (hq : s.seq = none) (i : Instr) {refusal : Option Response} {r : Response}
    (h : refusal = some r) (start : State → State) : accept i s refusal start = s.responded r := by
  simp [accept, State.busy, hq, h, State.post, State.responded]

/-- An idle engine refuses an operation whose first own check fails, once the state checks pass (R353). -/
theorem accept_firstCheckFails {s : State} (hq : s.seq = none) (ha : s.abortCause = none) {n : Bool}
    (hs : n = true → s.idState = .ready) {ok : Bool} (hok : ok = false) (i : Instr) (r : Response)
    (others : Option Response) (start : State → State) :
    accept i s (stateChecks n s (checkThen ok r others)) start = s.responded r :=
  accept_refused hq i (by rw [stateChecks_pass ha hs, hok, checkThen_false]) start

/-- IDENTIFY with a flag bit is refused in every idle session that is not aborted (R82, R180). -/
theorem exec_identify_flagged {s : State} {f : Byte} (hq : s.seq = none) (ha : s.abortCause = none)
    (hf : f ≠ 0x00#8) : exec (.identify f) s = .next (s.responded invalidArgument) :=
  congrArg _ (accept_firstCheckFails hq ha (by simp) (flagsDefined_none_eq_false hf) _ _ _ _)

/-- COMPUTE_BER with a flag bit is refused in every idle state (R82, R331). -/
theorem exec_computeBer_flagged {s : State} {f : Byte} (hq : s.seq = none) (hf : f ≠ 0x00#8) (x y : List Byte) :
    exec (.computeBer f x y) s = .next (s.responded invalidArgument) :=
  congrArg _ (accept_refused hq _ (by rw [berRefusal, flagsDefined_none_eq_false hf, checkThen_false]) _)

/-- Settles O22: the flag check is the first of every operation's own checks. -/
theorem undefinedFlagBitsAreRefused : Obligations.UndefinedFlagBitsAreRefused := by
  refine ⟨fun s f hq hf => ⟨fun ha => exec_identify_flagged hq ha hf, exec_computeBer_flagged hq hf⟩, ?_⟩
  intro s g f h
  have refused : ∀ {d : Byte}, flagsDefined d f = false → ∀ i others start,
      Host.Outcome.next (accept i s (stateChecks true s (checkThen (flagsDefined d f) invalidArgument others)) start) =
        (.next (s.responded invalidArgument) : Host.Outcome State Fault Refusal) :=
    fun hf i _ _ => congrArg _ (accept_firstCheckFails h.idle h.notAborted (fun _ => h.ready) hf i _ _ _)
  refine ⟨fun hf a b x y xs => ?_, fun hf a => ?_, fun hf a => ?_⟩
  · have refused := refused (flagsDefined_none_eq_false hf)
    simp only [List.forall_mem_cons]
    exact ⟨exec_identify_flagged h.idle h.notAborted hf, refused _ _ _, refused _ _ _, refused _ _ _,
      refused _ _ _, refused _ _ _, refused _ _ _, refused _ _ _,
      exec_computeBer_flagged h.idle hf x y, by simp⟩
  · exact refused (flagsDefined_eq_false (d := 0x01#8) hf) _ _ _
  · exact refused (flagsDefined_eq_false (d := 0x03#8) hf) _ _ _

end Sys2Proof.Machine

/-! Nothing an operation computes reads the request port: every step of a busy engine commutes with replacing what waits
there (30_encoding.md R80, 70_reset_and_hazards.md R395). -/

namespace Sys2Proof.Machine

/-- The state with `rs` waiting at the request port. -/
def State.withPort (s : State) (rs : List Request) : State := { s with requests := rs }

/-- The move with `rs` waiting at the request port of its state. -/
def Move.withPort (rs : List Request) : Move → Move
  | .go s q => .go (s.withPort rs) q
  | .push s q items => .push (s.withPort rs) q items
  | .fail s q r => .fail (s.withPort rs) q r

section
variable (s : State) (q : Seq) (rs : List Request) (r : Response)

/-! ## The port in the state's updates -/

@[simp] theorem State.withPort_answers : (s.withPort rs).answers = s.answers := rfl
@[simp] theorem State.withPort_cfg : (s.withPort rs).cfg = s.cfg := rfl
@[simp] theorem State.withPort_geo : (s.withPort rs).geo = s.geo := rfl

theorem State.complete_withPort (t : Transaction) (a : Answer) (as : List Answer) :
    (s.withPort rs).complete t a as = (s.complete t a as).withPort rs := by
  cases t <;> rfl

theorem State.abortSession_withPort (c : AbortCause) :
    (s.withPort rs).abortSession c = (s.abortSession c).withPort rs := by
  cases h : s.abortCause <;> simp [State.abortSession, State.withPort, h]

/-! ## The port in an action -/

@[simp] theorem Move.withPort_ite (c : Prop) [Decidable c] (m m' : Move) :
    (if c then m else m').withPort rs = if c then m.withPort rs else m'.withPort rs := apply_ite _ c m m'

theorem bulkGoodBlock_withPort : bulkGoodBlock (s.withPort rs) q = (bulkGoodBlock s q).withPort rs := by
  simp only [bulkGoodBlock, Move.withPort_ite]
  rfl

theorem bulkLoop_withPort : bulkLoop (s.withPort rs) q = (bulkLoop s q).withPort rs := by
  simp only [bulkLoop, Move.withPort_ite, State.withPort_cfg, State.withPort_geo]
  cases markerPages s.cfg s.geo q.page with
  | nil => simp only [bulkGoodBlock_withPort]; rfl
  | cons it items => rfl

/-- No action reads the port (R395). -/
theorem runAction_withPort (a : Action) : runAction a (s.withPort rs) q = (runAction a s q).withPort rs := by
  cases a with
  | keepIdBytes | takeStatus | seqPage | bulkMarker => rfl
  | checkSignature => simp only [runAction, checkSignature, Move.withPort_ite]; rfl
  | parsePage => simp only [runAction, parsePage, Move.withPort_ite]; rfl
  | programVerdict a => simp only [runAction, programVerdict, Move.withPort_ite]; rfl
  | eraseVerdict => simp only [runAction, eraseVerdict, Move.withPort_ite]; rfl
  | rangeNext =>
    simp only [runAction, rangeNext]
    split
    · rw [Move.withPort_ite]
      split
      · rfl
      · split <;> rfl
    · rfl
  | scanNext => simp only [runAction, scanNext, Move.withPort_ite]; rfl
  | seqNext => simp only [runAction, seqNext, Move.withPort_ite]; rfl
  | bulkEntered =>
    simp only [runAction, bulkEntered, Move.withPort_ite, ← bulkLoop_withPort, ← bulkGoodBlock_withPort]
    rfl
  | bulkErased => simp only [runAction, bulkErased, Move.withPort_ite]; rfl
  | bulkWritten => exact bulkLoop_withPort s _ rs

/-! ## The port in the sequencer -/

theorem postError_withPort : postError (s.withPort rs) q r = (postError s q r).withPort rs := by
  unfold postError
  cases protocolError r.code with
  | none => rfl
  | some c =>
    cases isIdentify q.op with
    | true => exact congrArg (·.post r) (State.abortSession_withPort s.failIdentification rs c)
    | false => exact congrArg (·.post r) (State.abortSession_withPort s rs c)

theorem raise_withPort : raise (s.withPort rs) q r = (raise s q r).withPort rs := by
  unfold raise
  cases q.saved with
  | none => exact postError_withPort s q rs r
  | some b => rfl

theorem raiseAbsent_withPort : raiseAbsent (s.withPort rs) q = (raiseAbsent s q).withPort rs :=
  raise_withPort s q rs _

/-- What is computed between two transactions does not read the port (R395). -/
theorem settle_withPort (todo : List Item) : settle (s.withPort rs) q todo = (settle s q todo).withPort rs := by
  fun_induction settle s q todo with
  | case1 s q => rfl
  | case2 s q rest ih => rw [settle_readData_zero, ih]
  | case3 s q rest ih => rw [settle_dataOut_nil, ih]
  | case4 s q a rest s' q' hm ih => rw [settle_act, runAction_withPort, hm]; exact ih
  | case5 s q a rest s' q' items hm => rw [settle_act, runAction_withPort, hm]; rfl
  | case6 s q a rest s' q' e hm => rw [settle_act, runAction_withPort, hm]; exact raise_withPort s' q' rs e
  | case7 s q it rest hr hd ha => rw [settle] <;> [rfl; exact hr; exact hd; exact ha]

/-- A transaction whose continuations do not read the port does not read it. -/
theorem transact_withPort (t : Transaction) {f g : State → State}
    (hf : ∀ u, f (u.withPort rs) = (f u).withPort rs) (hg : ∀ u, g (u.withPort rs) = (g u).withPort rs) :
    transact t (s.withPort rs) f g = (transact t s f g).withPort rs := by
  unfold transact
  rw [State.withPort_answers]
  split
  · rfl
  · rw [State.complete_withPort, hf]
  · rw [State.complete_withPort, hg]

theorem simpleItem_withPort (t : Transaction) (rest : List Item) :
    simpleItem t (s.withPort rs) q rest = (simpleItem t s q rest).withPort rs :=
  transact_withPort s rs t (fun u => settle_withPort u q rs rest) fun u => raiseAbsent_withPort u q rs

theorem readDataItem_withPort (n : Nat) (rest : List Item) :
    readDataItem n (s.withPort rs) q rest = (readDataItem n s q rest).withPort rs := by
  unfold readDataItem
  dsimp only
  rw [State.withPort_answers, State.withPort_cfg]
  split
  · rfl
  · split
    · rw [State.complete_withPort, settle_withPort]
    · rw [State.complete_withPort, raiseAbsent_withPort]
  · rw [State.complete_withPort, raiseAbsent_withPort]

theorem waitReadyItem_withPort (rest : List Item) :
    waitReadyItem (s.withPort rs) q rest = (waitReadyItem s q rest).withPort rs := by
  unfold waitReadyItem
  rw [State.withPort_answers, State.withPort_cfg]
  split
  · rfl
  · rw [State.complete_withPort, settle_withPort]
  · split
    · rw [State.complete_withPort, raise_withPort]
    · rw [State.complete_withPort]; rfl
  · rw [State.complete_withPort, raiseAbsent_withPort]

theorem guardOpenItem_withPort (rest : List Item) :
    guardOpenItem (s.withPort rs) q rest = (guardOpenItem s q rest).withPort rs := by
  unfold guardOpenItem
  exact transact_withPort s rs _ (fun u => settle_withPort { u with wpProtect := false } _ rs rest)
    fun u => raiseAbsent_withPort u _ rs

theorem afterRestore_withPort (ok : Bool) (rest : List Item) :
    afterRestore ok (s.withPort rs) q rest = (afterRestore ok s q rest).withPort rs := by
  unfold afterRestore
  cases q.pending with
  | some e => exact postError_withPort s _ rs e
  | none =>
    cases ok with
    | true => exact settle_withPort s _ rs rest
    | false => exact raiseAbsent_withPort s _ rs

theorem guardCloseItem_withPort (rest : List Item) :
    guardCloseItem (s.withPort rs) q rest = (guardCloseItem s q rest).withPort rs := by
  unfold guardCloseItem
  exact transact_withPort s rs _ (fun u => afterRestore_withPort { u with wpProtect := _ } q rs true rest)
    fun u => afterRestore_withPort { u with wpProtect := _ } q rs false rest

/-- Performing the item at the head of the program does not read the port (R395). -/
theorem performItem_withPort (todo : List Item) :
    performItem (s.withPort rs) q todo = (performItem s q todo).withPort rs := by
  unfold performItem
  split
  · exact simpleItem_withPort s q rs _ _
  · exact simpleItem_withPort s q rs _ _
  · exact settle_withPort s.recordDelay q rs _
  · exact simpleItem_withPort s q rs _ _
  · exact readDataItem_withPort s q rs _ _
  · exact waitReadyItem_withPort s q rs _
  · exact guardOpenItem_withPort s q rs _
  · exact guardCloseItem_withPort s q rs _
  · exact settle_withPort s q rs _

end

/-! ## The step -/

/-- A sequencer without items settles at once. -/
theorem step_programEnd {s : State} {q : Seq} (hr : s.resetInput = false) (hq : s.seq = some q) (ht : q.todo = []) :
    step s = .next (performItem s q []) := by
  simp [step, fetch, hr, hq, ht]

/-- A step at a known command byte latches it (R96, R141). -/
theorem step_knownCommand {s : State} {q : Seq} {b : Byte} {rest : List Item} (hr : s.resetInput = false)
    (hq : s.seq = some q) (ht : q.todo = .cmd b :: rest) (known : commandBytes.contains b = true) :
    step s = .next (simpleItem (.cmd b) s q rest) := by
  rcases step_busy hr hq ht with ⟨c, hc, unknown, -⟩ | ⟨c, hc, -, e⟩ | ⟨other, -⟩
  · obtain rfl := Item.cmd.inj hc
    exact absurd (known.symm.trans unknown) Bool.false_ne_true.symm
  · exact Item.cmd.inj hc ▸ e
  · exact absurd rfl (other b)

/-- A step of a busy engine that answers a next state gives it for every content of the port (R395). -/
theorem step_withPort {s t : State} {q : Seq} (hr : s.resetInput = false) (hq : s.seq = some q)
    (h : step s = .next t) (rs : List Request) : step (s.withPort rs) = .next (t.withPort rs) := by
  cases ht : q.todo with
  | nil =>
    rw [step_programEnd hr hq ht] at h
    obtain rfl := Host.Outcome.next.inj h
    rw [step_programEnd (s := s.withPort rs) hr hq ht, performItem_withPort]
  | cons it rest =>
    rcases step_busy hr hq ht with ⟨b, -, -, e⟩ | ⟨b, rfl, known, e⟩ | ⟨other, e⟩ <;> rw [e] at h
    · simp at h
    · obtain rfl := Host.Outcome.next.inj h
      rw [step_knownCommand (s := s.withPort rs) hr hq ht known, simpleItem_withPort]
    · obtain rfl := Host.Outcome.next.inj h
      rw [step_item (s := s.withPort rs) hr hq ht other, performItem_withPort]

/-- Settles O12: replacing what waits at the port commutes with the step. -/
theorem portIsHeldWhileBusy : Obligations.PortIsHeldWhileBusy :=
  fun _ _ _ rs hr hq h => step_withPort hr hq h rs

end Sys2Proof.Machine

/-! The translation of page and block indices into addresses and address cycles (41_address_translation.md R120 to R132). -/

namespace Sys2Proof.Machine

/-! ## Addresses -/

/-- A valid geometry has bytes in its pages, pages in its blocks, and blocks (R202). -/
theorem Geometry.Wf.positive {g : Geometry} (h : g.Wf) :
    0 < g.pageSize ∧ 0 < g.pagesPerBlock ∧ 0 < g.blocksPerLun ∧ 0 < g.lunCount := by
  have hv := h.valid
  simp only [geometryValid, Bool.and_eq_true, decide_eq_true_eq] at hv
  obtain ⟨⟨⟨⟨page, pages⟩, blocks⟩, luns⟩, -⟩ := hv
  exact ⟨page, pages, blocks, luns⟩

theorem Geometry.Wf.pagesPerBlock_pos {g : Geometry} (h : g.Wf) : 0 < g.pagesPerBlock := h.positive.2.1

theorem Geometry.Wf.blockCount_pos {g : Geometry} (h : g.Wf) : 0 < g.blockCount := by
  obtain ⟨-, -, blocks, luns⟩ := h.positive
  rw [h.blocks]
  exact Nat.mul_pos blocks luns

theorem Geometry.Wf.rawPageSize_pos {g : Geometry} (h : g.Wf) : 0 < g.rawPageSize := by
  rw [h.raw]
  exact Nat.add_pos_left h.positive.1 _

/-- The page of a block inside the device is inside the device (R27, R121). -/
theorem composeAddress_lt {g : Geometry} (h : g.Wf) {b i : Nat} (hb : b < g.blockCount) (hi : i < g.pagesPerBlock) :
    composeAddress g b i < g.pageCount := by
  rw [composeAddress, h.pages]
  calc b * g.pagesPerBlock + i < (b + 1) * g.pagesPerBlock := by rw [Nat.add_one_mul]; omega
    _ ≤ g.blockCount * g.pagesPerBlock := Nat.mul_le_mul_right _ hb

/-- Settles O14: division with remainder by `pagesPerBlock`, which is positive. -/
theorem addressTranslationsAreInverse : Obligations.AddressTranslationsAreInverse := by
  intro g hg
  have pos := hg.pagesPerBlock_pos
  refine ⟨fun p hp => ⟨rfl, ?_, Nat.mod_lt _ pos, Nat.div_add_mod' _ _⟩, fun b i hb hi =>
    ⟨rfl, composeAddress_lt hg hb hi, ?_⟩⟩
  · rw [hg.pages] at hp
    exact Nat.div_lt_of_lt_mul (Nat.mul_comm _ _ ▸ hp)
  · rw [decomposeAddress, composeAddress, Nat.mul_comm, Nat.mul_add_div pos, Nat.div_eq_of_lt hi, Nat.mul_add_mod,
      Nat.mod_eq_of_lt hi, Nat.add_zero]

/-- The address cycles keep the low bytes of the address (R127, R128). -/
theorem le_encodeAddress (a n : Nat) : le (encodeAddress a n) = a % 2 ^ (8 * n) := by
  induction n generalizing a with
  | zero => simp [encodeAddress, le, Nat.mod_one]
  | succ n ih =>
    calc le (encodeAddress a (n + 1)) = a % 2 ^ 8 + 2 ^ 8 * (a / 2 ^ 8 % 2 ^ (8 * n)) := by
          rw [encodeAddress, le, ih, BitVec.toNat_ofNat, Nat.shiftRight_eq_div_pow]
          rfl
      _ = a % 2 ^ (8 * (n + 1)) := by rw [← Nat.mod_mul, ← Nat.pow_add, Nat.mul_succ, Nat.add_comm]

/-- Settles O15. -/
theorem addressCyclesReadBackAsTheAddress : Obligations.AddressCyclesReadBackAsTheAddress :=
  fun a n => ⟨length_encodeAddress a n, le_encodeAddress a n, fun h => by rw [le_encodeAddress, Nat.mod_eq_of_lt h]⟩

/-- The column shift of the two modes (R124). -/
theorem colShift_eq (g : Geometry) : colShift g = if g.largePage then 16 else 8 := rfl

/-- The column cycles of the two modes (R124). -/
theorem colCycles_eq (g : Geometry) : colCycles g = if g.largePage then 2 else 1 := by
  rw [colCycles, colShift_eq]
  cases g.largePage <;> rfl

/-- The row cycles of the two modes (R124). -/
theorem rowCycles_eq {g : Geometry} (h : g.addressCycleCount = 5) : rowCycles g = if g.largePage then 3 else 4 := by
  rw [rowCycles, colCycles_eq, h]
  cases g.largePage <;> rfl

/-- The address word of a page is the page above a column of 0 (R125). -/
theorem pageAddressWord_eq (g : Geometry) (p : Nat) : pageAddressWord g p = p * 2 ^ colShift g := Nat.shiftLeft_eq _ _

/-- The first page of a block (R131). -/
theorem firstPage_eq (g : Geometry) (b : Nat) : firstPage g b = b * g.pagesPerBlock := rfl

/-- Settles O16: each quantity by its equation for the two modes. -/
theorem addressWordsOfBothModes : Obligations.AddressWordsOfBothModes := fun g hg =>
  ⟨colShift_eq g, colCycles_eq g, rowCycles_eq hg,
    fun p => ⟨pageAddressWord_eq g p, by rw [pageAddressWord_eq, Nat.mul_mod_left]⟩,
    fun _ => ⟨rfl, rfl, firstPage_eq _ _⟩, rfl, rfl⟩

/-! ## The entry checks of a ready engine -/

/-- The geometry a ready engine reads (R25). -/
theorem State.ReadyWith.geo {s : State} {g : Geometry} (h : s.ReadyWith g) : s.geo = g :=
  State.geo_of_some s h.geometry

/-- On a ready engine the operation's own checks decide (R353). -/
theorem State.ReadyWith.stateChecks_eq {s : State} {g : Geometry} (h : s.ReadyWith g) (others : Option Response) :
    stateChecks true s others = others :=
  stateChecks_pass h.notAborted (fun _ => h.ready) others

/-- Only defined flag bits are set (R82). -/
theorem flagsDefined_eq_true {d f : Byte} (h : f &&& ~~~d = 0x00#8) : flagsDefined d f = true := by
  simpa [flagsDefined] using h

/-- A ready engine refuses an index that is not below its bound, once the flag check passes (R129, R353). -/
theorem accept_indexOutside {s : State} {g : Geometry} (h : s.ReadyWith g) {d f : Byte} (hf : flagsDefined d f = true)
    {n bound : Nat} (hn : bound ≤ n) (i : Instr) (others : Option Response) (start : State → State) :
    accept i s (stateChecks true s (checkThen (flagsDefined d f) invalidArgument
      (checkThen (n < bound) (invalidIndex n) others))) start = s.responded (invalidIndex n) := by
  refine accept_refused h.idle i ?_ start
  rw [h.stateChecks_eq, hf, checkThen_true, decide_eq_false (Nat.not_lt.mpr hn), checkThen_false]

/-- ERASE_RANGE checks the order of the range before its last block (R264). -/
theorem eraseRangeRefusal_lastOutside {s : State} {g : Geometry} (h : s.ReadyWith g) {a b : Arg} (hba : b.toNat ≤ a.toNat)
    (ha : g.blockCount ≤ a.toNat) : eraseRangeRefusal 0x00#8 b a s = some (invalidIndex a.toNat) := by
  rw [eraseRangeRefusal, h.stateChecks_eq, h.geo, decide_eq_true hba, decide_eq_false (Nat.not_lt.mpr ha)]
  rfl

/-- Settles O23: the index check is the first after the flag check, but in ERASE_RANGE, where the order of the range is
checked between the two. -/
theorem outOfRangeIndexIsRefused : Obligations.OutOfRangeIndexIsRefused := by
  intro s g a h
  have noFlags : flagsDefined 0x00#8 0x00#8 = true := rfl
  refine ⟨fun ha => ?_, fun ha => ?_⟩ <;> rw [← h.geo] at ha
  · exact ⟨fun f hf => congrArg _ (accept_indexOutside h (flagsDefined_eq_true (d := 0x01#8) hf) ha _ _ _),
      fun x => congrArg _ (accept_indexOutside h noFlags ha _ _ _),
      fun xs => congrArg _ (accept_indexOutside h noFlags ha _ _ _)⟩
  · exact ⟨congrArg _ (accept_indexOutside h noFlags ha _ _ _),
      fun b hb => congrArg _ (accept_refused h.idle _ (eraseRangeRefusal_lastOutside h hb (h.geo ▸ ha)) _),
      fun f hf => congrArg _ (accept_indexOutside h (flagsDefined_eq_true (d := 0x03#8) hf) ha _ _ _)⟩

end Sys2Proof.Machine

/-! Operations that complete, and SCAN_BAD_BLOCKS whose transactions are all answered (47_bad_block_and_sequential.md R280 to R282). -/

namespace Sys2Proof.Machine

/-! ## From an accepted request to its response -/

/-- An idle engine starts an operation all of whose entry checks pass (R80, R353). -/
theorem accept_started {s : State} (hq : s.seq = none) (i : Instr) {refusal : Option Response} (h : refusal = none)
    (start : State → State) : accept i s refusal start = start s := by
  simp [accept, State.busy, hq, h]

/-- An operation that a ready engine starts completes with the response its procedure ends with. -/
theorem Ends.completes {s : State} {g : Geometry} {i : Instr} {q : Seq} {t : Talk} {e : Response} {rest : List Answer}
    (h : Ends s.cfg g q q.todo t e) (hi : Inv s) (hs : s.ReadyWith g) (hx : exec i s = .next (startOp s q))
    (ha : s.answers = t.answers ++ rest) :
    Completes i t.events.length s ((s.heard rest t.events).responded e) := by
  obtain ⟨wpProtect, -⟩ := hi.idle hs.idle
  exact ⟨_, hx, h s rest hs.running rfl hs.geo wpProtect ha⟩

/-! ## The bad-block marker -/

/-- A marker is bad exactly where the page has no 0xFF at its offset (R282). -/
theorem markerBad_eq (d : List Byte) (off : Nat) : markerBad d off = (d[off]? != some 0xFF#8) := by
  rw [markerBad, byteAt, List.getD_eq_getElem?_getD]
  cases d[off]? with
  | none => rfl
  | some b => simp [Config.goodMarker, bne]

/-! ## The scan -/

theorem badFrom_cons (off b : Nat) (d : List Byte) (ds : List (List Byte)) :
    badFrom off b (d :: ds) = (if markerBad d off then [b] else []) ++ badFrom off (b + 1) ds := by
  rw [markerBad_eq, badFrom]
  by_cases good : d[off]? = some 0xFF#8 <;> simp [good]

section

variable {c : Config.Params} {g : Geometry} {w : Bool} {q : Seq} {t : Talk}

/-- The locals of the scan after one block: its verdict is recorded, the buffer is empty, the block cursor moves on
(R280). -/
def Seq.scanned (q : Seq) (g : Geometry) (d : List Byte) : Seq :=
  { q with blocks := q.blocks ++ (if markerBad d g.pageSize then [q.block] else []), block := q.block + 1 }

/-- The decision after one block of the scan (R280). -/
theorem runAction_scanNext {s : State} {d : List Byte} (hs : s.geo = g) (hb : q.buf = []) :
    runAction .scanNext s { q with buf := q.buf ++ d } =
      if q.block + 1 < g.blockCount then .push s (q.scanned g d) (scanBlockItems g (q.block + 1))
      else .go s (q.scanned g d) := by
  cases hm : markerBad d g.pageSize <;>
    simp [runAction, scanNext, Seq.scanned, markerOffset, hs, hb, hm]

theorem startsAt_scanBlock (g : Geometry) (b : Nat) : StartsAt (scanBlockItems g b) :=
  (startsAt_readPage _ _ _).append _

/-- The scan from the block cursor on, with one raw page for each block left (R280). -/
theorem plays_scan (hg : g.addressCycleCount = 5) {d : List Byte} {ds : List (List Byte)} (hp : q.poll = 0)
    (hb : q.buf = []) (hn : q.block + (ds.length + 1) = g.blockCount) (h : ScansFrom c g q.block (d :: ds) t) :
    Plays c g w q (scanBlockItems g q.block) t
      { q with blocks := q.blocks ++ badFrom g.pageSize q.block (d :: ds), block := g.blockCount } := by
  induction ds generalizing d q t with
  | nil =>
    obtain ⟨t₁, _, read, rfl, rfl⟩ := h
    have last : q.block + 1 = g.blockCount := hn
    rw [Talk.join_two]
    refine (plays_readPage hg hp read).append (plays_act fun s _ hs _ => ?_)
    rw [runAction_scanNext hs hb, if_neg (by omega), badFrom_cons, badFrom, List.append_nil, ← last]
    rfl
  | cons d' ds ih =>
    obtain ⟨t₁, t₂, read, more, rfl⟩ := h
    have next : q.block + 1 < g.blockCount := by simp only [List.length_cons] at hn; omega
    rw [Talk.join_two]
    refine (plays_readPage hg hp read).append
      (plays_push (p := q.scanned g d) (fun s _ hs _ => ?_) (startsAt_scanBlock g (q.block + 1)) ?_)
    · rw [runAction_scanNext hs hb, if_pos next]
    · rw [badFrom_cons, ← List.append_assoc]
      exact ih (q := q.scanned g d) hp hb (by simp only [Seq.scanned, List.length_cons] at hn ⊢; omega) more

/-- The scan reads and waits only: it drives no line (R280). -/
theorem quiet_scan {b : Nat} {ds : List (List Byte)} (h : ScansFrom c g b ds t) : t.Quiet := by
  induction ds generalizing b t with
  | nil => obtain rfl := h; exact quiet_join_nil
  | cons d ds ih =>
    obtain ⟨_, _, read, more, rfl⟩ := h
    rw [Talk.join_two]
    exact (quiet_readsPage read).and (ih more)

end

/-- The scan of a ready engine with a spare area starts at block 0 (R280). -/
theorem exec_scan_started {s : State} {g : Geometry} (hs : s.ReadyWith g) (hoob : 1 ≤ g.oobSize)
    (hn : 0 < g.blockCount) : exec (.scanBadBlocks 0x00#8) s =
      .next (startOp s { op := .scanBadBlocks 0x00#8, todo := scanBlockItems g 0 }) := by
  have passed : scanRefusal 0x00#8 s = none := by
    rw [scanRefusal, hs.stateChecks_eq, hs.geo, decide_eq_true hoob]
    rfl
  have frame : scanFrame g = scanBlockItems g 0 := if_neg (by omega)
  refine congrArg _ ((accept_started hs.idle _ passed _).trans ?_)
  rw [hs.geo, frame, startFrame]

/-- Settles O45: by induction over the blocks left, the scan collects the bad ones of them. -/
theorem scanReturnsTheBadBlocks : Obligations.ScanReturnsTheBadBlocks := by
  intro s g pages t rest hi hs hoob hlen h ha
  have hg : g.Wf := hi.geometry g hs.geometry
  obtain ⟨d, ds, rfl⟩ := List.exists_cons_of_length_pos (hlen ▸ hg.blockCount_pos)
  have played := plays_scan (w := true) (q := { op := .scanBadBlocks 0x00#8, todo := scanBlockItems g 0 }) hg.cycles
    rfl rfl ((Nat.zero_add _).trans hlen) h
  rw [← s.heard_quiet rest (quiet_scan h)]
  exact (played.ends fun _ _ _ => rfl).completes hi hs (exec_scan_started hs hoob hg.blockCount_pos) ha

end Sys2Proof.Machine

/-! SEQ_READ_BLOCK whose transactions are all answered (47_bad_block_and_sequential.md R284 to R289). -/

namespace Sys2Proof.Machine

section

variable {c : Config.Params} {g : Geometry} {w : Bool} {q r : Seq} {t u : Talk}

/-! ## The pages of the sequential read -/

/-- The bytes the sequential read returns of one raw page (R285). -/
def keptBytes (i : Instr) (g : Geometry) (d : List Byte) : List Byte :=
  if seqIncludesOob i then d else d.take g.pageSize

/-- The markers seen from the page cursor on: that of its page, where it is one of the first of the block, and those after
it (R286). -/
theorem any_marked_cons (p : List Byte → Bool) (page : Nat) (d : List Byte) (ds : List (List Byte)) :
    ((d :: ds).take (Config.seqMarkerPages - page)).any p =
      ((decide (page < Config.seqMarkerPages) && p d) || (ds.take (Config.seqMarkerPages - (page + 1))).any p) := by
  by_cases marked : page < Config.seqMarkerPages
  · rw [show Config.seqMarkerPages - page = Config.seqMarkerPages - (page + 1) + 1 by omega]
    simp [marked]
  · rw [Nat.sub_eq_zero_of_le (by omega), Nat.sub_eq_zero_of_le (by omega)]
    simp [marked]

/-- The locals of the sequential read after one page's data: its marker is checked and its bytes are kept (R285, R286). -/
def Seq.paged (q : Seq) (g : Geometry) (d : List Byte) : Seq :=
  { q with
    bad := q.bad || (decide (q.page < Config.seqMarkerPages) && markerBad d (seqMarkerOffset g))
    out := q.out ++ keptBytes q.op g d }

/-- One page of the sequential read with its wait (R285). -/
theorem plays_seqPage {d : List Byte} (hp : q.poll = 0) (hb : q.buf = []) (hr : Reads c g.rawPageSize t d)
    (hw : Waits c u) :
    Plays c g w q [.readData g.rawPageSize, .act .seqPage, .waitReady] (t.and u) (q.paged g d) := by
  have kept : Plays c g w { q with buf := q.buf ++ d } [.act .seqPage] (.join []) (q.paged g d) :=
    plays_act fun s _ hs _ => by
      simp [runAction, seqPage, Seq.paged, keptBytes, slice, hs, hb]
  have played := (plays_read hr).cons (kept.cons (plays_wait hw hp))
  rwa [Talk.nil_and] at played

/-- After one page's wait the next page follows (R285). -/
theorem plays_seqNext_page (hg : 0 < g.rawPageSize) (next : q.page + 1 < g.pagesPerBlock)
    (k : Plays c g w { q with page := q.page + 1 } (seqPageItems g) t r) : Plays c g w q [.act .seqNext] t r :=
  plays_push (fun s _ hs _ => by rw [runAction, seqNext, hs, if_pos next]) (startsAt_seqPage hg) k

/-- After the last page's wait END follows (R289). -/
theorem plays_seqNext_end (last : q.page + 1 = g.pagesPerBlock) :
    Plays c g w q [.act .seqNext] (.sends [.mark .atEnd]) { q with page := g.pagesPerBlock } :=
  plays_push (fun s _ hs _ => by rw [runAction, seqNext, hs, if_neg (by omega), last]) (.cons rfl _) (plays_mark .atEnd)

/-- The pages from the page cursor on, and END, with one raw page for each page left of the block (R285, R289). -/
theorem plays_seqPages (hg : 0 < g.rawPageSize) {d : List Byte} {ds : List (List Byte)} (hp : q.poll = 0)
    (hb : q.buf = []) (hn : q.page + (ds.length + 1) = g.pagesPerBlock) (h : ReadsOn c g (d :: ds) t) :
    Plays c g w q (seqPageItems g) (t.and (.sends [.mark .atEnd]))
      { q with
        bad := q.bad || ((d :: ds).take (Config.seqMarkerPages - q.page)).any (markerBad · (seqMarkerOffset g))
        out := q.out ++ (d :: ds).flatMap (keptBytes q.op g)
        page := g.pagesPerBlock } := by
  induction ds generalizing d q t with
  | nil =>
    obtain ⟨r, wait, _, read, waits, rfl, rfl⟩ := h
    have last : q.page + 1 = g.pagesPerBlock := hn
    have played := (plays_seqPage hp hb read waits).append (plays_seqNext_end (q := q.paged g d) (w := w) last)
    rw [any_marked_cons, Talk.join_three, Talk.and_nil]
    simpa [Seq.paged, seqPageItems] using played
  | cons d' ds ih =>
    obtain ⟨r, wait, t₂, read, waits, more, rfl⟩ := h
    have next : q.page + 1 < g.pagesPerBlock := by simp only [List.length_cons] at hn; omega
    rw [any_marked_cons, List.flatMap_cons, ← Bool.or_assoc, ← List.append_assoc, Talk.join_three, ← Talk.and_assoc,
      Talk.and_assoc]
    exact (plays_seqPage hp hb read waits).append (plays_seqNext_page hg next
      (ih (q := { q.paged g d with page := q.page + 1 }) hp hb (by simp only [List.length_cons] at hn ⊢; omega) more))

/-- The pages of the sequential read are read and waited for: no line is driven (R285). -/
theorem quiet_seqPages {ds : List (List Byte)} (h : ReadsOn c g ds t) : t.Quiet := by
  induction ds generalizing t with
  | nil => obtain rfl := h; exact quiet_join_nil
  | cons d ds ih =>
    obtain ⟨_, _, _, read, waits, more, rfl⟩ := h
    rw [Talk.join_three]
    exact (quiet_reads read).and ((quiet_waits waits).and (ih more))

/-- Each page of the sequential read is a raw page (R285). -/
theorem length_readsOn {ds : List (List Byte)} (h : ReadsOn c g ds t) : ∀ d ∈ ds, d.length = g.rawPageSize := by
  induction ds generalizing t with
  | nil => simp
  | cons d ds ih =>
    obtain ⟨_, _, _, read, -, more, -⟩ := h
    exact List.forall_mem_cons.mpr ⟨length_reads read, ih more⟩

end

/-- Pages that each give `n` bytes give `n` bytes a page together. -/
theorem length_flatMap_of_length_eq {f : List Byte → List Byte} {n : Nat} {ds : List (List Byte)}
    (h : ∀ d ∈ ds, (f d).length = n) : (ds.flatMap f).length = ds.length * n := by
  rw [List.length_flatMap, List.map_congr_left h, List.map_const', List.sum_replicate, smul_eq_mul]

/-- The sequential read of a ready engine starts, for a block inside the device and a spare area with the marker (R284). -/
theorem exec_seqRead_started {s : State} {g : Geometry} (hs : s.ReadyWith g) {f : Byte} {b : Arg}
    (hf : f &&& 0xFC#8 = 0x00#8) (hb : b.toNat < g.blockCount) (hoob : 6 ≤ g.oobSize) (hn : 0 < g.pagesPerBlock) :
    exec (.seqReadBlock f b) s = .next (startOp s
      { op := .seqReadBlock f b, todo := seqReadFrame g b.toNat ++ seqPageItems g }) := by
  have passed : seqReadRefusal f b s = none := by
    rw [seqReadRefusal, hs.stateChecks_eq, hs.geo, flagsDefined_eq_true (d := 0x03#8) hf, decide_eq_true hb,
      decide_eq_true (p := Config.seqMarkerDelta + 1 ≤ g.oobSize) hoob]
    rfl
  have body : seqBodyItems g = seqPageItems g := if_neg (by omega)
  refine congrArg _ ((accept_started hs.idle _ passed _).trans ?_)
  rw [hs.geo, body, startFrame]

/-! ## The whole conversation -/

/-- With a quiet conversation between two `Mark`s, the second one drives the lines, and no other line changes (R146). -/
theorem heard_marked (s : State) (as : List Answer) {t u : Talk} {m m' : MarkPattern} (h : u.Quiet)
    (ht : t = (Talk.sends [.mark m]).and (u.and (Talk.sends [.mark m']))) :
    s.heard as t.events = { s.after as t.events with markLines := some (markLevels s.cfg m') } := by
  have wp : wpLineAfter s.cfg s.wpLine t.events = s.wpLine := by
    rw [ht, Talk.and, wpLineAfter_append, Talk.and, wpLineAfter_append, wpLineAfter_quiet _ _ h]
    rfl
  have marks : markLinesAfter s.cfg s.markLines t.events = some (markLevels s.cfg m') := by
    rw [ht, Talk.and, markLinesAfter_append, Talk.and, markLinesAfter_append]
    rfl
  rw [State.heard, wp, marks]
  rfl

/-- The conversation of the sequential read of block `b`: BEGIN, the command with the address of the block's first page, the
wait `w`, the pages `tp`, END (R285, R289). -/
def seqReadTalk (g : Geometry) (b : Nat) (w tp : Talk) : Talk :=
  .join [.sends (.mark .atBegin :: commandAndAddress 0x00#8 (pageAddressBytes g (b * g.pagesPerBlock))), w, tp,
    .sends [.mark .atEnd]]

theorem seqReadTalk_eq (g : Geometry) (b : Nat) (w tp : Talk) :
    seqReadTalk g b w tp = (Talk.sends [.mark .atBegin]).and
      (((Talk.sends (commandAndAddress 0x00#8 (pageAddressBytes g (b * g.pagesPerBlock)))).and (w.and tp)).and
        (.sends [.mark .atEnd])) := by
  simp [seqReadTalk, Talk.join, Talk.and, Talk.sends]

section

variable {c : Config.Params} {g : Geometry} {w tp : Talk} {pages : List (List Byte)}

/-- The sequential read of a block, from locals with nothing collected: whether a marker is bad, and every page's bytes
(R285, R286). -/
theorem plays_seqRead (hg : g.Wf) (hw : Waits c w) (h : ReadsOn c g pages tp) (hn : pages.length = g.pagesPerBlock)
    (i : Instr) (todo : List Item) (b : Nat) :
    Plays c g true { op := i, todo := todo } (seqReadFrame g b ++ seqPageItems g) (seqReadTalk g b w tp)
      { op := i, todo := todo, page := g.pagesPerBlock, out := pages.flatMap (keptBytes i g)
        bad := (pages.take 2).any fun d => d[g.pageSize + 5]? != some 0xFF#8 } := by
  obtain ⟨d, ds, rfl⟩ := List.exists_cons_of_length_pos (hn ▸ hg.pagesPerBlock_pos)
  have command : Plays c g true { op := i, todo := todo } (encodeItems Config.cmdRead (pageAddressWord g (firstPage g b))
      g.addressCycleCount) (.sends (commandAndAddress 0x00#8 (pageAddressBytes g (b * g.pagesPerBlock))))
      { op := i, todo := todo } := by
    rw [← encodeAddress_page hg.cycles]
    exact plays_encode (i := .nandRead) rfl _ _
  have streamed := plays_seqPages (w := true) (q := { op := i, todo := todo }) hg.rawPageSize_pos rfl rfl
    ((Nat.zero_add _).trans hn) h
  have marker : (fun d => markerBad d (seqMarkerOffset g)) = fun d => d[g.pageSize + 5]? != some 0xFF#8 :=
    funext fun d => markerBad_eq d _
  have played := ((plays_mark .atBegin).cons (command.append (plays_wait hw rfl))).append streamed
  rw [marker] at played
  rw [seqReadTalk_eq]
  simp only [Talk.and_assoc] at played ⊢
  exact played

/-- The sequential read leaves the lines of END, and no other line is driven (R289). -/
theorem heard_seqRead (hw : Waits c w) (h : ReadsOn c g pages tp) (s : State) (as : List Answer) (b : Nat) :
    s.heard as (seqReadTalk g b w tp).events =
      { s.after as (seqReadTalk g b w tp).events with markLines := some s.cfg.seqMarkEnd } :=
  heard_marked s as ((quiet_commandAndAddress _ _).and ((quiet_waits hw).and (quiet_seqPages h)))
    (seqReadTalk_eq g b w tp)

end

/-- The response of the sequential read: all of the block, or none of it (R287, R288). -/
theorem seqResponse_eq (f : Byte) (b : Nat) (q : Seq) : seqResponse f b q =
    if q.bad = true ∧ f.getLsbD 1 = false then
      { code := .badBlock, index := some (field40 b), markerBad := some true, data := some [] }
    else { code := .ok, index := some (field40 b), markerBad := some q.bad, data := some q.out } := by
  simp [seqResponse, rawMode]

/-- Settles O46: the procedure leaves the bad mark and the pages' bytes in the locals, and the response is made of them. -/
theorem seqReadIsAllOrNothing : Obligations.SeqReadIsAllOrNothing := by
  intro s g f b pages w tp rest hi hs hf hb hoob hlen hw h t ha bad data
  have hg : g.Wf := hi.geometry g hs.geometry
  constructor
  · rw [← hlen]
    refine length_flatMap_of_length_eq fun d hd => ?_
    have whole := length_readsOn h d hd
    split
    · exact whole
    · rw [List.length_take, whole, hg.raw, Nat.min_eq_left (Nat.le_add_right _ _)]
  · have played := plays_seqRead hg hw h hlen (.seqReadBlock f b) (seqReadFrame g b.toNat ++ seqPageItems g) b.toNat
    have completed := (played.ends fun _ _ _ => seqResponse_eq _ _ _).completes hi hs
      (exec_seqRead_started hs hf hb hoob hg.pagesPerBlock_pos) ha
    rwa [heard_seqRead hw h] at completed

end Sys2Proof.Machine

/-! The sequencer that stands at one transaction and goes past it (42_command_encoder.md R142 to R146). -/

namespace Sys2Proof.Machine

/-- A sequencer that stands at its own program is left as it is. -/
theorem State.goOn_self {s : State} {q : Seq} (hq : s.seq = some q) {todo : List Item} (ht : q.todo = todo) :
    s.goOn q todo = s := by
  subst ht
  rw [State.goOn, ← hq]

theorem step_of_runs_one {s t : State} (h : Runs 1 s t) : step s = .next t := by
  cases hs : step s with
  | next u =>
    obtain rfl : u = t := Host.Outcome.next.inj ((runs_succ hs).mp h)
    rfl
  | fault f =>
    have hc : Sys2Proof.core.step s = .fault f := hs
    simp [Runs, Host.Core.run, hc] at h
  | refused f =>
    have hc : Sys2Proof.core.step s = .refused f := hs
    simp [Runs, Host.Core.run, hc] at h

section

variable {s s' : State} {q q' : Seq} {it : Item} {rest : List Item}

/-- From a sequencer that stands at the item, the run past it. -/
theorem Goes.runs {n : Nat} (h : Goes n s q [it] s' q') (hq : s.seq = some q) (ht : q.todo = it :: rest)
    (hit : it.isTransaction = true) : Runs n s (settle s' q' rest) := by
  have run := h rest
  rwa [List.singleton_append, settle_transaction hit, State.goOn_self hq ht] at run

/-- From a sequencer that stands at the item, the step past it. -/
theorem Goes.step (h : Goes 1 s q [it] s' q') (hq : s.seq = some q) (ht : q.todo = it :: rest)
    (hit : it.isTransaction = true) : Machine.step s = .next (settle s' q' rest) :=
  step_of_runs_one (h.runs hq ht hit)

end

/-- To go on at a transaction is to stand there. -/
theorem settle_stands (s : State) (q : Seq) {rest rest' : List Item} {it : Item} (hrest : rest = it :: rest')
    (hit : it.isTransaction = true) : settle s q rest = { s with seq := some { q with todo := it :: rest' } } := by
  rw [hrest, settle_transaction hit]
  rfl

theorem Runs.stands {n : Nat} {s u : State} {q : Seq} {rest rest' : List Item} {it : Item}
    (h : Runs n s (settle u q rest)) (hrest : rest = it :: rest') (hit : it.isTransaction = true) :
    Runs n s { u with seq := some { q with todo := it :: rest' } } :=
  settle_stands u q hrest hit ▸ h

/-- Settles O30: each of the four items goes past itself in one step, and `settle` stands at a transaction or posts. -/
theorem plainTransactionsGoOn : Obligations.PlainTransactionsGoOn := by
  intro s q rest
  refine ⟨fun hr hq => ⟨?_, ?_, ?_, ?_⟩, fun it rest' => settle_stands s q, ?_⟩
  · exact fun b as ht ha => (goes_addr hr ha).step hq ht rfl
  · intro d as ht hd ha
    obtain ⟨b, bs, rfl⟩ := List.exists_cons_of_ne_nil hd
    exact (goes_dataOut hr ha).step hq ht rfl
  · intro m as ht ha
    cases m with
    | atBegin => exact (goes_mark hr ha).step hq ht rfl
    | atEnd => exact (goes_mark hr ha).step hq ht rfl
  · exact fun ht => (goes_delay hr).step hq ht rfl
  · rintro rfl
    rfl

end Sys2Proof.Machine

/-! The error exit of a transaction that is not completed, inside a guard and outside one (42_command_encoder.md R144,
R147, 60_exceptions.md R345, R346). -/

namespace Sys2Proof.Machine

/-! ## The error exit -/

/-- The abort rule as `aborted` writes it (R346). -/
theorem State.abortSession_eq_aborted (s : State) (c : AbortCause) : s.abortSession c = s.aborted false c := by
  cases h : s.abortCause with
  | none => simp [State.abortSession, State.aborted, h]
  | some c' =>
    rw [s.abortSession_keeps c h, State.aborted, h, Option.getD_some, ← h]
    rfl

/-- A protocol-level error aborts the session, and inside IDENTIFY fails the identification; then its response is posted
(R345, R346). -/
theorem postError_protocol {r : Response} {c : AbortCause} (hc : protocolError r.code = some c) (s : State) (q : Seq) :
    postError s q r = (s.aborted (isIdentify q.op) c).responded r := by
  unfold postError
  rw [hc]
  dsimp only
  cases isIdentify q.op with
  | true => rw [if_pos rfl, State.abortSession_eq_aborted]; rfl
  | false => rw [if_neg Bool.false_ne_true, State.abortSession_eq_aborted]; rfl

/-- Any other error is only answered (R345). -/
theorem postError_other {r : Response} (hc : protocolError r.code = none) (s : State) (q : Seq) :
    postError s q r = s.responded r := by
  unfold postError
  rw [hc]
  rfl

/-- The error exit of DEVICE_ABSENT and of TIMEOUT with the operation's context (R345, R346). -/
theorem postError_errorResponse {k : ResultCode} {c : AbortCause} (hc : protocolError k = some c) (s : State)
    (q : Seq) : postError s q (errorResponse q k) = (s.aborted (isIdentify q.op) c).responded (errorResponse q k) :=
  postError_protocol (by rw [errorResponse_code, hc]) s q

/-- Outside a guard the error exit runs at once (R345). -/
theorem raise_unguarded {q : Seq} (hq : q.saved = none) (s : State) (r : Response) : raise s q r = postError s q r := by
  unfold raise
  rw [hq]

/-- Inside a guard only the write-protect restore remains (R157). -/
theorem raise_guarded {q : Seq} {p : Bool} (hq : q.saved = some p) (s : State) (r : Response) :
    raise s q r = { s with seq := some { q with todo := [.guardClose], pending := some r } } := by
  unfold raise
  rw [hq]

/-! ## An answer that does not complete its transaction -/

/-- Any answer but ok counts as absent (R395, log 3). -/
theorem transact_absent {t : Transaction} {s : State} {f g : State → State} {a : Answer} {as : List Answer}
    (ha : s.answers = a :: as) (hok : a ≠ .ok) : transact t s f g = g (s.complete t a as) := by
  unfold transact
  rw [ha]
  cases a with
  | ok => exact absurd rfl hok
  | _ => rfl

/-- Settles O29: the command is latched, and an answer other than ok aborts the session. -/
theorem nandCommandWithoutAnOperation : Obligations.NandCommandWithoutAnOperation := by
  intro s b i a as hi he hq ha
  rw [exec_command (mem_commandTable hi he), latchCommand, hq]
  dsimp only
  by_cases hok : a = .ok
  · rw [if_pos hok, transact_ok (hok ▸ ha)]
    rfl
  · rw [if_neg hok, transact_absent ha hok, State.abortSession_eq_aborted]
    rfl

section

variable {s : State} {q : Seq} {rest : List Item} {a : Answer} {as : List Answer}

/-- A completed transaction is one event heard. -/
theorem State.complete_eq_heard (s : State) (t : Transaction) (a : Answer) (as : List Answer) :
    s.complete t a as = s.heard as [{ transaction := t, answer := some a }] := by
  unfold State.heard
  rw [← driveLines_wpLine, ← driveLines_markLines]
  cases t <;> rfl

theorem simpleItem_rejected {t : Transaction} (ha : s.answers = a :: as) (rejected : t.acceptedBy a = false)
    (simple : t.acceptedBy .ok = true) : simpleItem t s q rest = raiseAbsent (s.complete t a as) q := by
  refine transact_absent ha ?_
  rintro rfl
  exact Bool.false_ne_true (rejected.symm.trans simple)

theorem readDataItem_rejected {n : Nat} (ha : s.answers = a :: as)
    (rejected : (Transaction.dataIn (chunkCycles s.cfg n)).acceptedBy a = false) :
    readDataItem n s q rest = raiseAbsent (s.complete (.dataIn (chunkCycles s.cfg n)) a as) q := by
  unfold readDataItem
  rw [ha]
  cases a with
  | bytes raw => exact if_neg (by simpa [Transaction.acceptedBy] using rejected)
  | _ => rfl

theorem waitReadyItem_rejected (ha : s.answers = a :: as) (rejected : Transaction.pollReady.acceptedBy a = false) :
    waitReadyItem s q rest = raiseAbsent (s.complete .pollReady a as) q := by
  unfold waitReadyItem
  rw [ha]
  cases a with
  | ready r => cases rejected
  | _ => rfl

/-- A step at an item whose transaction the oldest answer does not complete raises DEVICE_ABSENT (R144, R147, R395). -/
theorem step_rejected {it : Item} {t : Transaction} (hr : s.resetInput = false) (hq : s.seq = some q)
    (ht : q.todo = it :: rest) (known : it.commandsKnown = true) (outside : it ≠ .guardOpen)
    (hit : it.transaction s.cfg = some t) (rejected : t.acceptedBy a = false) (ha : s.answers = a :: as) :
    step s = .next (raiseAbsent (s.complete t a as) q) := by
  cases it with
  | cmd b =>
    obtain rfl := Option.some.inj hit
    rw [step_knownCommand hr hq ht known, simpleItem_rejected ha rejected rfl]
  | addr b =>
    obtain rfl := Option.some.inj hit
    rw [step_item hr hq ht (by simp), performItem, simpleItem_rejected ha rejected rfl]
  | mark m =>
    obtain rfl := Option.some.inj hit
    rw [step_item hr hq ht (by simp), performItem, simpleItem_rejected ha rejected rfl]
  | dataOut d =>
    cases d with
    | nil => cases hit
    | cons b bs =>
      obtain rfl := Option.some.inj hit
      rw [step_item hr hq ht (by simp), performItem, simpleItem_rejected ha rejected rfl]
  | readData n =>
    cases n with
    | zero => cases hit
    | succ n =>
      obtain rfl := Option.some.inj hit
      rw [step_item hr hq ht (by simp), performItem, readDataItem_rejected ha rejected]
  | waitReady =>
    obtain rfl := Option.some.inj hit
    rw [step_item hr hq ht (by simp), performItem, waitReadyItem_rejected ha rejected]
  | guardOpen => exact absurd rfl outside
  | delay | guardClose | act _ => cases hit

end

/-- No item's own transaction but the guard's entry drives the write-protect line (R146, R157). -/
theorem Item.transaction_ne_setWP {c : Config.Params} {it : Item} {t : Transaction} (outside : it ≠ .guardOpen)
    (hit : it.transaction c = some t) (p : Bool) : t ≠ .setWP p := by
  rintro rfl
  unfold Item.transaction at hit
  split at hit
  case h_7 => exact outside rfl
  all_goals cases hit

/-- Settles O31: the contexts operation by operation, and the error that `step_rejected` raises, outside a guard and
inside one. -/
theorem absentAnswerEndsTheOperation : Obligations.AbsentAnswerEndsTheOperation := by
  constructor
  · intro q c f a b x xs
    refine ⟨?_, fun h => by rw [errorResponse, h], fun h => by rw [errorResponse, h], ?_⟩
    · simp only [List.forall_mem_cons]
      refine ⟨?_, ?_, ?_, ?_, ?_, ?_, by simp⟩ <;> intro h <;> rw [errorResponse, h]
    · simp only [List.forall_mem_cons]
      refine ⟨?_, ?_, by simp⟩ <;> intro h <;> rw [errorResponse, h]
  · intro s q it rest t a as hr hq ht known outside hit rejected ha s'
    have heard : s.complete t a as = s' := by
      rw [State.complete_eq_heard, State.heard, ← driveLines_wpLine,
        s.driveLines_wpLine_other t a (Item.transaction_ne_setWP outside hit)]
      rfl
    rw [step_rejected hr hq ht known outside hit rejected ha, heard, raiseAbsent]
    cases hsv : q.saved with
    | none => rw [raise_unguarded hsv, postError_errorResponse rfl]
    | some p => rw [raise_guarded hsv, hsv]

end Sys2Proof.Machine

/-! `ReadData`: its transactions and the bytes it returns (42_command_encoder.md R149 to R151). -/

namespace Sys2Proof.Machine

/-- Settles O32: `goes_readData` from the sequencer that stands at it. -/
theorem readDataReturnsItsBytes : Obligations.ReadDataReturnsItsBytes := by
  intro s q n rest t d as hr hq ht hn reads ha
  have run : Runs t.events.length s (settle (s.after as t.events) { q with buf := q.buf ++ d } rest) := by
    obtain ⟨n, rfl⟩ := Nat.exists_eq_succ_of_ne_zero hn.ne'
    obtain ⟨raws, replies, rfl⟩ := reads
    have goes := goes_readData (q := q) hr rfl replies ha
    rw [readEvents, List.length_map]
    exact goes.runs hq ht rfl
  exact ⟨length_reads reads, run, fun _ _ => run.stands⟩

theorem usefulPerRead_pos (c : Config.Params) : 0 < usefulPerRead c :=
  (chunkSize_pos c Nat.one_pos).trans_le (Nat.min_le_right _ _)

theorem cyclesPerByte_slow {c : Config.Params} (h : c.slowMode = true) : cyclesPerByte c = 2 := if_pos h

theorem cyclesPerByte_fast {c : Config.Params} (h : c.slowMode = false) : cyclesPerByte c = 1 := by
  simp [cyclesPerByte, h]

theorem usefulPerRead_slow {c : Config.Params} (h : c.slowMode = true) : usefulPerRead c = 2048 := by
  rw [usefulPerRead, cyclesPerByte_slow h]
  rfl

theorem usefulPerRead_fast {c : Config.Params} (h : c.slowMode = false) : usefulPerRead c = 4096 := by
  rw [usefulPerRead, cyclesPerByte_fast h]
  rfl

/-- The cycles asked for: the most that one transaction takes, as often as that goes into the read, and then what the
remainder needs (R149, R150). -/
theorem map_length_replies {c : Config.Params} {n : Nat} {raws : List (List Byte)} {d : List Byte}
    (h : Replies c n raws d) :
    raws.map List.length =
      List.replicate (n / usefulPerRead c) (usefulPerRead c * cyclesPerByte c) ++
        if 0 < n % usefulPerRead c then [n % usefulPerRead c * cyclesPerByte c] else [] := by
  induction raws generalizing n d with
  | nil =>
    obtain ⟨rfl, -⟩ := h
    simp
  | cons raw raws ih =>
    obtain ⟨hn, hlen, more, -, hmore⟩ := h
    rw [List.map_cons, hlen, chunkCycles, ih hmore, chunkSize]
    rcases Nat.lt_or_ge n (usefulPerRead c) with last | full
    · rw [Nat.min_eq_left last.le, Nat.mod_eq_of_lt last, Nat.div_eq_of_lt last, if_pos hn]
      simp
    · rw [Nat.min_eq_right full, Nat.mod_eq_sub_mod full, Nat.div_eq_sub_div (usefulPerRead_pos c) full,
        List.replicate_succ, List.cons_append]

/-- Settles O33: the chunks of the two modes. -/
theorem readDataChunks : Obligations.ReadDataChunks := by
  intro c n raws d h
  constructor <;> intro mode <;> rw [map_length_replies h]
  · rw [usefulPerRead_fast mode, cyclesPerByte_fast mode, Nat.mul_one, Nat.mul_one]
  · rw [usefulPerRead_slow mode, cyclesPerByte_slow mode, Nat.mul_comm (n % 2048)]

/-- Of each pair of a doubled reply the first byte is kept (R151). -/
theorem getElem?_keepPhase : ∀ (raw : List Byte) (k : Nat), k < raw.length / 2 → (keepPhase raw)[k]? = raw[2 * k]?
  | [], _, h => by simp at h
  | [_], _, h => by simp at h
  | _ :: _ :: _, 0, _ => rfl
  | _ :: _ :: rest, k + 1, h => getElem?_keepPhase rest k (by simp only [List.length_cons] at h; omega)

/-- Settles O34: two cycles a byte, of which the first is kept, or one. -/
theorem slowModeKeepsTheEvenBytes : Obligations.SlowModeKeepsTheEvenBytes := by
  intro c n raw
  refine ⟨fun slow => ?_, fun fast => ?_⟩
  · have doubled : chunkCycles c n = 2 * chunkSize c n := by rw [chunkCycles, cyclesPerByte_slow slow, Nat.mul_comm]
    refine ⟨doubled, fun hlen => ⟨length_usefulBytes hlen, fun k hk => ?_⟩⟩
    rw [usefulBytes, if_pos slow]
    exact getElem?_keepPhase raw k (by omega)
  · exact ⟨by rw [chunkCycles, cyclesPerByte_fast fast, Nat.mul_one], by simp [usefulBytes, fast]⟩

end Sys2Proof.Machine

/-! `WaitReady`: its polls and its bound (42_command_encoder.md R152, R153). -/

namespace Sys2Proof.Machine

/-- The locals after `j` more polls answered false (R152). -/
def Seq.polled (q : Seq) (j : Nat) : Seq := { q with poll := q.poll + j }

theorem Seq.polled_polled (q : Seq) (i j : Nat) : (q.polled i).polled j = q.polled (i + j) := by
  simp [Seq.polled, Nat.add_assoc]

theorem pollEvents_append (as bs : List Answer) : pollEvents (as ++ bs) = pollEvents as ++ pollEvents bs :=
  List.map_append

section

variable {s : State} {q : Seq} {rest : List Item} {as : List Answer}

/-- A poll answered false within the bound: the wait goes on (R152). -/
theorem step_poll_false (hr : s.resetInput = false) (hq : s.seq = some q) (ht : q.todo = .waitReady :: rest)
    (within : q.poll + 1 < s.cfg.readyPollLimit) (ha : s.answers = .ready false :: as) :
    step s = .next ((s.after as (pollEvents [.ready false])).goOn (q.polled 1) (.waitReady :: rest)) := by
  rw [step_item hr hq ht (by simp), performItem, waitReadyItem, ha]
  dsimp only
  rw [if_neg (Nat.not_le.mpr within)]
  rfl

/-- The last poll of the bound answered false: TIMEOUT (R152, R153). -/
theorem step_poll_timeout (hr : s.resetInput = false) (hq : s.seq = some q) (ht : q.todo = .waitReady :: rest)
    (reached : q.poll + 1 = s.cfg.readyPollLimit) (ha : s.answers = .ready false :: as) :
    step s = .next (raise (s.after as (pollEvents [.ready false])) q (errorResponse q .timeout)) := by
  rw [step_item hr hq ht (by simp), performItem, waitReadyItem, ha]
  dsimp only
  rw [if_pos reached.ge]
  rfl

/-- Polls answered false within the bound: the sequencer still waits, with the polls counted (R152). -/
theorem runs_polls_false {j : Nat} (hr : s.resetInput = false) (hq : s.seq = some q) (ht : q.todo = .waitReady :: rest)
    (within : q.poll + j < s.cfg.readyPollLimit) (ha : s.answers = List.replicate j (.ready false) ++ as) :
    Runs j s ((s.after as (pollEvents (List.replicate j (.ready false)))).goOn (q.polled j) (.waitReady :: rest)) := by
  induction j generalizing s q with
  | zero =>
    obtain rfl : s.answers = as := ha
    have same : (s.after s.answers []).goOn q (.waitReady :: rest) = s := by
      rw [State.after_self, State.goOn_self hq ht]
    exact congrArg _ same.symm
  | succ j ih =>
    rw [List.replicate_succ, List.cons_append] at ha
    have polled := step_poll_false hr hq ht (by omega) ha
    have run := ih (s := (s.after (List.replicate j (.ready false) ++ as) (pollEvents [.ready false])).goOn (q.polled 1)
      (.waitReady :: rest)) hr rfl rfl (by simp only [Seq.polled, State.goOn_cfg, State.after]; omega) rfl
    have events : pollEvents (List.replicate (j + 1) (.ready false)) =
        pollEvents [.ready false] ++ pollEvents (List.replicate j (.ready false)) := pollEvents_append [_] _
    rw [events, ← State.after_after s (List.replicate j (.ready false) ++ as) as, Nat.add_comm j 1,
      ← q.polled_polled, Nat.add_comm 1 j]
    exact .cons polled run

/-- The polls of the bound all answered false: TIMEOUT is raised in the step of the last one (R152, R153). -/
theorem runs_polls_timeout {j : Nat} (hr : s.resetInput = false) (hq : s.seq = some q)
    (ht : q.todo = .waitReady :: rest) (reached : q.poll + (j + 1) = s.cfg.readyPollLimit)
    (ha : s.answers = List.replicate (j + 1) (.ready false) ++ as) :
    Runs (j + 1) s (raise (s.after as (pollEvents (List.replicate (j + 1) (.ready false)))) (q.polled j)
      (errorResponse (q.polled j) .timeout)) := by
  rw [List.replicate_succ', List.append_assoc, List.singleton_append] at ha
  rw [List.replicate_succ', pollEvents_append, ← State.after_after s (.ready false :: as) as]
  have waited := runs_polls_false hr hq ht (by omega) ha
  have timeout := step_poll_timeout (as := as)
    (s := (s.after (.ready false :: as) (pollEvents (List.replicate j (.ready false)))).goOn (q.polled j)
      (.waitReady :: rest)) hr rfl rfl reached rfl
  have stale := raise_stale ((s.after (.ready false :: as) (pollEvents (List.replicate j (.ready false)))).after as
    (pollEvents [.ready false])) (q.polled j) (some { q.polled j with todo := .waitReady :: rest }) (.waitReady :: rest)
    (errorResponse (q.polled j) .timeout)
  exact waited.trans (runs_one (timeout.trans (congrArg _ stale)))

end

/-- Settles O35: `goes_waitReady` where a poll of the bound is answered true, `runs_polls_timeout` where none is. -/
theorem waitReadyIsBounded : Obligations.WaitReadyIsBounded := by
  intro s q rest j as hr hq ht
  have returns (within : q.poll + j < s.cfg.readyPollLimit) (ha : s.answers = pollAnswers j ++ as) :
      Runs (j + 1) s (settle (s.after as (pollEvents (pollAnswers j))) { q with poll := 0 } rest) :=
    (goes_waitReady hr within ha).runs hq ht rfl
  refine ⟨returns, fun it rest' hrest hit within ha => (returns within ha).stands hrest hit, ?_⟩
  intro pos reached ha s'
  obtain ⟨j, rfl⟩ := Nat.exists_eq_succ_of_ne_zero pos.ne'
  have run := runs_polls_timeout hr hq ht reached ha
  have poll : s.cfg.readyPollLimit - 1 = q.poll + j := by omega
  cases hsv : q.saved with
  | none => rwa [raise_unguarded (q := q.polled j) hsv, postError_errorResponse rfl] at run
  | some p =>
    have saved : (q.polled j).saved = some p := hsv
    rw [raise_guarded saved, saved] at run
    rwa [poll]

end Sys2Proof.Machine

/-! The write-enable guard: its entry and its exit (42_command_encoder.md R157). -/

namespace Sys2Proof.Machine

/-- A `SetWP` completed (R146, log 13). -/
theorem State.complete_setWP (s : State) (p : Bool) (a : Answer) (as : List Answer) :
    s.complete (.setWP p) a as = { s.after as [{ transaction := .setWP p, answer := some a }] with
      wpLine := if a = .ok then some (wpLevel s.cfg p) else none } := rfl

/-- Settles O36: answered ok the guard opens before the body, else the error waits for the restore. -/
theorem guardOpens : Obligations.GuardOpens := by
  intro s q rest a as hr hq ht ha
  constructor
  · rintro it rest' hrest hit rfl
    exact ((goes_guardOpen hr ha).step hq ht rfl).trans (congrArg _ (settle_stands _ _ hrest hit))
  · intro hok
    rw [step_item hr hq ht (by simp), performItem, guardOpenItem]
    dsimp only
    rw [transact_absent ha hok, raiseAbsent, raise_guarded rfl, State.complete_setWP, if_neg hok]
    rfl

/-- The step of the guard's exit: the flag takes the saved value, and the answer to the restore decides what follows
(R157, log 14). -/
theorem step_guardClose {s : State} {q : Seq} {rest : List Item} {p : Bool} {a : Answer} {as : List Answer}
    (hr : s.resetInput = false) (hq : s.seq = some q) (ht : q.todo = .guardClose :: rest) (hs : q.saved = some p)
    (ha : s.answers = a :: as) :
    step s = .next (afterRestore (a = .ok) { s.complete (.setWP p) a as with wpProtect := p } q rest) := by
  rw [step_item hr hq ht (by simp), performItem, guardCloseItem, hs]
  dsimp only [Option.getD_some]
  by_cases hok : a = .ok
  · rw [transact_ok (hok ▸ ha), decide_eq_true hok, hok]
  · rw [transact_absent ha hok, decide_eq_false hok]

/-- Settles O37: what `afterRestore` does with the error that waits, and without one with the answer to the restore. -/
theorem guardCloses : Obligations.GuardCloses := by
  intro s q rest p a as hr hq ht hs ha s'
  have restored : step s = .next (afterRestore (a = .ok) s' q rest) := step_guardClose hr hq ht hs ha
  have goesOn (hp : q.pending = none) (hok : a = .ok) :
      step s = .next (settle s' { q with saved := none, pending := none } rest) := by
    rw [restored, afterRestore, hp, decide_eq_true hok]
    rfl
  refine ⟨fun r hp => ?_, fun hp hok => ?_, goesOn, fun it rest' hp hok hrest hit => ?_⟩
  · rw [restored, afterRestore, hp]
    dsimp only
    cases hc : protocolError r.code with
    | none => rw [postError_other hc]
    | some c => rw [postError_protocol hc]
  · rw [restored, afterRestore, hp, decide_eq_false hok]
    exact congrArg _ (postError_errorResponse rfl s' { q with saved := none, pending := none })
  · rw [goesOn hp hok, settle_stands _ _ hrest hit, hp]

end Sys2Proof.Machine

/-! The parameter page: where its parsed fields stand, the derived registers and the validity of a geometry
(43_identification.md R186 to R202). -/

namespace Sys2Proof.Machine

/-- A slice inside its sequence, byte by byte (R10). -/
theorem slice_eq_map_getD {s : List Byte} {a b : Nat} (h : b ≤ s.length) :
    slice s a b = (List.range (b - a)).map fun k => s.getD (a + k) 0x00#8 := by
  refine List.ext_getElem (by simp [length_slice h]) fun k hk _ => ?_
  rw [length_slice h] at hk
  have inside : a + k < s.length := by omega
  simp [slice, inside]

/-- A parameter-page field is the value of the bytes at its offsets (R186). -/
theorem pageField_eq {pp : List Byte} {a b : Nat} (h : b ≤ pp.length) :
    pageField pp a b = le ((List.range (b - a)).map fun k => pp.getD (a + k) 0x00#8) :=
  congrArg le (slice_eq_map_getD h)

/-- A field of two bytes, least significant first (R10). -/
theorem pageField_two {pp : List Byte} {a : Nat} (h : a + 2 ≤ pp.length) :
    pageField pp a (a + 2) = (pp.getD a 0x00#8).toNat + 2 ^ 8 * (pp.getD (a + 1) 0x00#8).toNat := by
  simp [pageField_eq h, List.range_succ, le]

/-- A field of four bytes, least significant first (R10). -/
theorem pageField_four {pp : List Byte} {a : Nat} (h : a + 4 ≤ pp.length) :
    pageField pp a (a + 4) = (pp.getD a 0x00#8).toNat + 2 ^ 8 * (pp.getD (a + 1) 0x00#8).toNat +
      2 ^ 16 * (pp.getD (a + 2) 0x00#8).toNat + 2 ^ 24 * (pp.getD (a + 3) 0x00#8).toNat := by
  simp only [pageField_eq h, Nat.add_sub_cancel_left, List.range_succ, List.range_zero, List.nil_append,
    List.cons_append, List.map_cons, List.map_nil, le, Nat.add_zero]
  omega

/-- Settles O18: the four-byte and two-byte fields, the string by its slice, the single bytes as they stand. -/
theorem parsedFieldsComeFromTheirBytes : Obligations.ParsedFieldsComeFromTheirBytes := by
  intro c pp hlen
  exact ⟨pageField_four (a := 80) (by omega), pageField_two (a := 84) (by omega), pageField_four (a := 92) (by omega),
    pageField_four (a := 96) (by omega), rfl, rfl, slice_eq_map_getD (a := 44) (b := 64) (by omega), rfl⟩

/-- When a geometry is valid (R202). -/
theorem geometryValid_iff (g : Geometry) :
    geometryValid g = true ↔ 0 < g.pageSize ∧ 0 < g.pagesPerBlock ∧ 0 < g.blocksPerLun ∧ 0 < g.lunCount ∧
      (g.largePage = false → g.pageSize % 2 = 0) := by
  cases hl : g.largePage <;> simp [geometryValid, hl, and_assoc]

/-- Legacy small-page mode only where the configuration forces it (R201). -/
theorem parseGeometry_largePage (c : Config.Params) (pp : List Byte) :
    (parseGeometry c pp).largePage = if c.forceLegacy then false else true := by
  cases hl : c.forceLegacy <;> simp [parseGeometry, hl]

/-- Settles O19: the derived registers as the parser computes them. -/
theorem derivedRegistersAndValidity : Obligations.DerivedRegistersAndValidity :=
  fun c pp => ⟨rfl, rfl, rfl, rfl, rfl, rfl, parseGeometry_largePage c pp, geometryValid_iff _⟩

end Sys2Proof.Machine

/-! IDENTIFY whose transactions are all answered: the two probes, the parameter page, and how it ends
(43_identification.md R180 to R204). -/

namespace Sys2Proof.Machine

/-! ## The engine while IDENTIFY runs -/

/-- The engine inside IDENTIFY after the conversation `t`, at the identification state `st` and with the bytes `ids` kept:
the geometry registers hold no value, and the answers `as` still wait (R180, R205). -/
def State.probing (s : State) (as : List Answer) (t : Talk) (st : IdState) (ids : Option (List Byte)) : State :=
  { s.after as t.events with idState := st, geom := none, idBytes := ids }

/-- IDENTIFY starts with nothing said (R180, R205). -/
theorem State.startIdentification_eq_probing (s : State) :
    s.startIdentification = s.probing s.answers (.join []) .probeId s.idBytes := by
  rw [State.probing, show (Talk.join []).events = [] from rfl, State.after_self]
  rfl

/-- An idle engine that is not aborted starts IDENTIFY (R180, R353). -/
theorem exec_identify_started {s : State} (hq : s.seq = none) (ha : s.abortCause = none) :
    exec (.identify 0x00#8) s = .next (settle (s.probing s.answers (.join []) .probeId s.idBytes)
      { op := .identify 0x00#8, todo := identifyFrame } identifyFrame) := by
  have passed : identifyRefusal 0x00#8 s = none := stateChecks_pass ha (by simp) _
  rw [← s.startIdentification_eq_probing]
  exact congrArg _ (accept_started hq _ passed _)

/-! ## The conversation -/

/-- One READ-ID probe at the address `a`, with its read `t` (R182, R183). -/
def probeTalk (a : Byte) (t : Talk) : Talk := (Talk.sends [.cmd 0x90#8, .addr a]).and t

/-- Both READ-ID probes: the identification bytes and the signature (R182, R183). -/
def probesTalk (t₁ t₂ : Talk) : Talk := (probeTalk 0x00#8 t₁).and (probeTalk 0x20#8 t₂)

/-- The parameter page: the command, the wait and the read (R184). -/
def parameterPageTalk (w t : Talk) : Talk := (Talk.sends [.cmd 0xEC#8, .addr 0x00#8]).and (w.and t)

theorem probesTalk_eq_join (t₁ t₂ : Talk) :
    probesTalk t₁ t₂ = .join [.sends [.cmd 0x90#8, .addr 0x00#8], t₁, .sends [.cmd 0x90#8, .addr 0x20#8], t₂] := by
  simp only [probesTalk, probeTalk, Talk.join_cons, Talk.and_assoc, Talk.and_nil]

/-- IDENTIFY says the probes and then asks for the parameter page. -/
theorem probesTalk_and_parameterPageTalk_eq_join (t₁ t₂ w t₃ : Talk) :
    (probesTalk t₁ t₂).and (parameterPageTalk w t₃) =
      .join [.sends [.cmd 0x90#8, .addr 0x00#8], t₁, .sends [.cmd 0x90#8, .addr 0x20#8], t₂,
        .sends [.cmd 0xEC#8, .addr 0x00#8], w, t₃] := by
  simp only [probesTalk, probeTalk, parameterPageTalk, Talk.join_cons, Talk.and_assoc, Talk.and_nil]

section

variable {s : State} {q p r : Seq} {xs ys : List Item} {t u t₁ t₂ t₃ w : Talk} {st : IdState} {as : List Answer}
  {kept : Option (List Byte)} {d ids sig pp : List Byte}

theorem Talk.and_answers_append (t u : Talk) (as : List Answer) :
    (t.and u).answers ++ as = t.answers ++ (u.answers ++ as) :=
  List.append_assoc _ _ _

/-- One conversation after another takes the steps of both. -/
theorem Goes.talks {x y z : State} (h : Goes t.events.length x q xs y p) (k : Goes u.events.length y p ys z r) :
    Goes (t.and u).events.length x q (xs ++ ys) z r := by
  rw [Talk.and, List.length_append]
  exact h.append k

/-- What is played without driving a line is played while IDENTIFY runs. -/
theorem Plays.probing (h : Plays s.cfg .absent s.wpProtect q xs u p) (quiet : u.Quiet) (hr : s.resetInput = false) :
    Goes u.events.length (s.probing (u.answers ++ as) t st kept) q xs (s.probing as (t.and u) st kept) p := by
  have goes := h (s.probing (u.answers ++ as) t st kept) as hr rfl rfl rfl rfl
  have said : (s.probing (u.answers ++ as) t st kept).after as u.events = s.probing as (t.and u) st kept := by
    simp [State.probing, State.after, Talk.and]
  rwa [State.heard_quiet _ _ quiet, said] at goes

/-- One READ-ID probe: its reply stands in the buffer (R182, R183). -/
theorem goes_probe (hr : s.resetInput = false) (hb : q.buf = []) (a : Byte) {n : Nat} (read : Reads s.cfg n u d) :
    Goes (probeTalk a u).events.length (s.probing ((probeTalk a u).answers ++ as) t st kept) q
      [.cmd Config.cmdReadId, .addr a, .readData n] (s.probing as (t.and (probeTalk a u)) st kept)
      { q with buf := d } := by
  refine Plays.probing ?_ ((quiet_commandAndAddress 0x90#8 [a]).and (quiet_reads read)) hr
  have played := plays_read (g := .absent) (w := s.wpProtect) (q := q) read
  rw [hb, List.nil_append] at played
  rw [probeTalk, Talk.sends_cons, Talk.and_assoc]
  exact (plays_cmd (i := .nandReadId) rfl).cons ((plays_addr a).cons played)

/-- Both probes: the bytes of the first are kept, and the reply of the second stands in the buffer (R182, R183). -/
theorem goes_probes (hr : s.resetInput = false) (hb : q.buf = []) (read₁ : Reads s.cfg 8 t₁ ids)
    (read₂ : Reads s.cfg 4 t₂ sig) :
    Goes (probesTalk t₁ t₂).events.length (s.probing ((probesTalk t₁ t₂).answers ++ as) (.join []) .probeId kept) q
      [.cmd Config.cmdReadId, .addr 0x00#8, .readData 8, .act .keepIdBytes,
        .cmd Config.cmdReadId, .addr 0x20#8, .readData 4]
      (s.probing as (probesTalk t₁ t₂) .probeOnfi (some ids)) { q with buf := sig } := by
  rw [probesTalk, Talk.and_answers_append]
  have first := goes_probe (t := .join []) (st := .probeId) (kept := kept)
    (as := (probeTalk 0x20#8 t₂).answers ++ as) hr hb 0x00#8 read₁
  rw [Talk.nil_and] at first
  exact (first.append (goes_act rfl)).talks (goes_probe (q := { q with buf := [] }) hr rfl 0x20#8 read₂)

/-- The parameter page: its bytes stand in the buffer (R184). -/
theorem goes_parameterPage (hr : s.resetInput = false) (hp : q.poll = 0) (hb : q.buf = []) (waits : Waits s.cfg w)
    (read : Reads s.cfg 256 t₃ pp) :
    Goes (parameterPageTalk w t₃).events.length (s.probing ((parameterPageTalk w t₃).answers ++ as) t st kept) q
      [.cmd Config.cmdReadParamPage, .addr 0x00#8, .waitReady, .readData 256]
      (s.probing as (t.and (parameterPageTalk w t₃)) st kept) { q with buf := pp } := by
  refine Plays.probing ?_ ((quiet_commandAndAddress 0xEC#8 [0x00#8]).and ((quiet_waits waits).and (quiet_reads read))) hr
  have played := plays_read (g := .absent) (w := s.wpProtect) (q := q) read
  rw [hb, List.nil_append] at played
  rw [parameterPageTalk, Talk.sends_cons, Talk.and_assoc]
  exact (plays_cmd (i := .nandReadParamPage) rfl).cons ((plays_addr _).cons ((plays_wait waits hp).cons played))

/-! ## The checks -/

/-- An action that goes on leaves the rest of the program to its own result. -/
theorem settle_act_go {s' : State} {a : Action} (h : runAction a s q = .go s' p) (rest : List Item) :
    settle s q (.act a :: rest) = settle s' p rest := by
  rw [settle_act, h]

/-- An action that fails raises its error, whatever follows. -/
theorem settle_act_fail {s' : State} {a : Action} {e : Response} (h : runAction a s q = .fail s' p e)
    (rest : List Item) : settle s q (.act a :: rest) = raise s' p e := by
  rw [settle_act, h]

/-- The right signature lets IDENTIFY go on (R183). -/
theorem runAction_checkSignature_right (sign : q.buf = Config.onfiSig) (s : State) :
    runAction .checkSignature s q = .go { s with idState := .parseParameterPage } { q with buf := [] } :=
  if_pos sign

/-- A wrong signature fails the identification (R183, R204). -/
theorem runAction_checkSignature_wrong (wrong : q.buf ≠ Config.onfiSig) (s : State) :
    runAction .checkSignature s q = .fail s q identificationFailed :=
  if_neg wrong

/-- A page with the signature and a valid geometry is committed (R185, R202, R203). -/
theorem runAction_parsePage_commits {s : State} (sign : pageSignature q.buf = Config.onfiSig)
    (valid : geometryValid (parseGeometry s.cfg q.buf) = true) :
    runAction .parsePage s q =
      .go { s with geom := some (parseGeometry s.cfg q.buf), idState := .ready } { q with buf := [] } :=
  (if_pos sign).trans (if_pos valid)

/-- A page without the signature, or with an invalid geometry, fails the identification (R185, R202, R204). -/
theorem runAction_parsePage_fails {s : State} (bad : pageSignature q.buf ≠ Config.onfiSig ∨
    geometryValid (parseGeometry s.cfg q.buf) = false) :
    runAction .parsePage s q = .fail s q identificationFailed := by
  by_cases sign : pageSignature q.buf = Config.onfiSig
  · refine (if_pos sign).trans (if_neg ?_)
    rw [bad.resolve_left (not_not_intro sign)]
    exact Bool.false_ne_true
  · exact if_neg sign

/-- Where an action raises outside a guard, IDENTIFY fails and the session aborts (R204, R346). -/
theorem Goes.identificationFails {n : Nat} {x : State} {a : Action} (h : Goes n x q xs (s.probing as t st kept) p)
    (fails : runAction a (s.probing as t st kept) p = .fail (s.probing as t st kept) p identificationFailed)
    (hs : p.saved = none) (hi : isIdentify p.op = true) (rest : List Item) :
    Runs n (settle x q (xs ++ .act a :: rest))
      (({ s.after as t.events with idBytes := kept }.aborted true .identificationFailed).responded
        { code := .identificationFailed }) := by
  have run := h (.act a :: rest)
  rw [settle_act_fail fails, raise_unguarded hs, postError_protocol rfl, hi] at run
  exact run

/-! ## IDENTIFY from acceptance to response -/

/-- IDENTIFY with the right signature up to the parse of the parameter page (R180 to R185). -/
theorem goes_identify_page (hr : s.resetInput = false) (hp : q.poll = 0) (hb : q.buf = [])
    (read₁ : Reads s.cfg 8 t₁ ids) (read₂ : Reads s.cfg 4 t₂ Config.onfiSig) (waits : Waits s.cfg w)
    (read₃ : Reads s.cfg 256 t₃ pp) (ht : t = (probesTalk t₁ t₂).and (parameterPageTalk w t₃)) :
    Goes t.events.length (s.probing (t.answers ++ as) (.join []) .probeId kept) q (identifyFrame.take 12)
      (s.probing as t .parseParameterPage (some ids)) { q with buf := pp } := by
  rw [ht, Talk.and_answers_append]
  exact ((goes_probes hr hb read₁ read₂).append (goes_act (runAction_checkSignature_right rfl _))).talks
    (goes_parameterPage (q := { q with buf := [] }) hr hp rfl waits read₃)

end

/-- Settles O38: the probes, the page, and the commit; the response is made of the registers. -/
theorem identifySucceeds : Obligations.IdentifySucceeds := by
  intro s ids pp t₁ t₂ w t₃ rest hr hq hab read₁ read₂ waits read₃ sign valid t ha
  have page := goes_identify_page (q := { op := .identify 0x00#8, todo := identifyFrame }) (kept := s.idBytes)
    (as := rest) hr rfl rfl read₁ read₂ waits read₃ (probesTalk_and_parameterPageTalk_eq_join t₁ t₂ w t₃).symm
  rw [← ha] at page
  exact ⟨_, exec_identify_started hq hab, (page.append (goes_act (runAction_parsePage_commits sign valid))).finish⟩

/-- Settles O39: the wrong signature ends the probes, the bad page ends the whole procedure. -/
theorem identifyFails : Obligations.IdentifyFails := by
  intro s ids sig t₁ t₂ rest hr hq hab read₁ read₂ probes
  have said : probes = probesTalk t₁ t₂ := (probesTalk_eq_join t₁ t₂).symm
  refine ⟨fun wrong ha => ⟨_, exec_identify_started hq hab, ?_⟩, ?_⟩
  · rw [ha, said]
    exact (goes_probes hr rfl read₁ read₂).identificationFails (runAction_checkSignature_wrong wrong _) rfl rfl _
  · rintro w t₃ pp rfl waits read₃ bad t ha
    refine ⟨_, exec_identify_started hq hab, ?_⟩
    have whole : t = (probesTalk t₁ t₂).and (parameterPageTalk w t₃) := by
      simp only [t, said, parameterPageTalk, Talk.join_cons, Talk.and_nil]
    rw [ha]
    exact (goes_identify_page hr rfl rfl read₁ read₂ waits read₃ whole).identificationFails
      (runAction_parsePage_fails bad) rfl rfl []

end Sys2Proof.Machine

/-! The identification state machine: what one step of IDENTIFY does to `S.idState` (43_identification.md R181, R204). -/

namespace Sys2Proof.Machine

/-! ## The edges of R181 -/

/-- The edges of the identification state machine inside IDENTIFY (R181). -/
def probeEdges : List (IdState × IdState) :=
  [(.probeId, .probeOnfi), (.probeOnfi, .parseParameterPage), (.parseParameterPage, .ready), (.probeId, .failed),
    (.probeOnfi, .failed), (.parseParameterPage, .failed)]

/-- The identification state stays, or moves along one edge inside IDENTIFY. -/
def ProbeMove (a b : IdState) : Prop := b = a ∨ (a, b) ∈ probeEdges

theorem ProbeMove.refl (a : IdState) : ProbeMove a a := .inl rfl

/-- Inside IDENTIFY the identification can fail at any point (R204). -/
theorem identifyState_failed_mem (rest : List Item) : (identifyState rest, .failed) ∈ probeEdges := by
  unfold identifyState
  split
  · decide
  · split <;> decide

/-! ## What ends a step of IDENTIFY -/

/-- An error leaves the identification state or fails the identification (R204, R345). -/
theorem probeMove_raise {s : State} (h : (s.idState, .failed) ∈ probeEdges) (q : Seq) (r : Response) :
    ProbeMove s.idState (raise s q r).idState := by
  rcases raise_cases s q r with ⟨b, -, e⟩ | ⟨-, e⟩ <;> rw [e]
  · exact .refl _
  · rcases postError_cases s q r with ⟨c, -, ⟨-, e⟩ | ⟨-, e⟩⟩ | ⟨-, e⟩ <;> rw [e]
    · exact .inr (by simpa using h)
    · exact .inl (by simp)
    · exact .refl _

/-- What remains of IDENTIFY's frame stands at a transaction or at one of its three actions (R180). -/
theorem identifyFrame_suffix_cases {rest : List Item} (h : rest <:+ identifyFrame) (hne : rest ≠ []) :
    (∃ it rest', rest = it :: rest' ∧ it.isTransaction = true) ∨
    rest = .act .keepIdBytes :: identifyFrame.drop 4 ∨ rest = .act .checkSignature :: identifyFrame.drop 8 ∨
    rest = [.act .parsePage] := by
  have all : ∀ l ∈ identifyFrame.tails, l = [] ∨ l.head?.any Item.isTransaction = true ∨
      l = .act .keepIdBytes :: identifyFrame.drop 4 ∨ l = .act .checkSignature :: identifyFrame.drop 8 ∨
      l = [.act .parsePage] := by decide
  rcases all rest ((List.mem_tails _ _).mpr h) with e | stands | action
  · exact absurd e hne
  · obtain ⟨it, rest', rfl⟩ := List.exists_cons_of_ne_nil hne
    exact .inl ⟨it, rest', rfl, stands⟩
  · exact .inr action

/-- Settling what remains of IDENTIFY's frame moves the identification state along at most one edge: the action that stands
there is the last thing before the next transaction (R181). -/
theorem probeMove_settle {s : State} {rest : List Item} (suffix : rest <:+ identifyFrame) (hne : rest ≠ [])
    (state : s.idState = identifyState rest) (q : Seq) : ProbeMove s.idState (settle s q rest).idState := by
  have canFail : (s.idState, .failed) ∈ probeEdges := state ▸ identifyState_failed_mem rest
  rcases identifyFrame_suffix_cases suffix hne with ⟨it, rest', rfl, stands⟩ | rfl | rfl | rfl
  · rw [settle_transaction stands]
    exact .refl _
  · rw [settle_act_go rfl, state]
    exact .inr (by decide : (IdState.probeId, IdState.probeOnfi) ∈ probeEdges)
  · by_cases sign : q.buf = Config.onfiSig
    · rw [settle_act_go (runAction_checkSignature_right sign s), state]
      exact .inr (by decide : (IdState.probeOnfi, IdState.parseParameterPage) ∈ probeEdges)
    · rw [settle_act_fail (runAction_checkSignature_wrong sign s)]
      exact probeMove_raise canFail _ _
  · by_cases good : pageSignature q.buf = Config.onfiSig ∧ geometryValid (parseGeometry s.cfg q.buf) = true
    · rw [settle_act_go (runAction_parsePage_commits good.1 good.2), state]
      exact .inr (by decide : (IdState.parseParameterPage, IdState.ready) ∈ probeEdges)
    · rw [not_and_or, Bool.not_eq_true] at good
      rw [settle_act_fail (runAction_parsePage_fails good)]
      exact probeMove_raise canFail _ _

/-! ## One transaction of IDENTIFY -/

section

variable {s : State} {q : Seq} {rest : List Item}

/-- After a transaction that completes, IDENTIFY settles what remains of its frame. -/
theorem probeMove_settle_complete (suffix : rest <:+ identifyFrame) (hne : rest ≠ [])
    (state : s.idState = identifyState rest) (t : Transaction) (a : Answer) (as : List Answer) (q : Seq) :
    ProbeMove s.idState (settle (s.complete t a as) q rest).idState := by
  have move := probeMove_settle (s := s.complete t a as) suffix hne (by rwa [State.complete_idState]) q
  rwa [State.complete_idState] at move

/-- After a transaction that does not complete, IDENTIFY raises an error. -/
theorem probeMove_raise_complete (state : s.idState = identifyState rest) (t : Transaction) (a : Answer)
    (as : List Answer) (q : Seq) (r : Response) : ProbeMove s.idState (raise (s.complete t a as) q r).idState := by
  have move := probeMove_raise (s := s.complete t a as)
    (by rw [State.complete_idState, state]; exact identifyState_failed_mem rest) q r
  rwa [State.complete_idState] at move

theorem probeMove_simpleItem (suffix : rest <:+ identifyFrame) (hne : rest ≠ []) (state : s.idState = identifyState rest)
    (t : Transaction) : ProbeMove s.idState (simpleItem t s q rest).idState := by
  unfold simpleItem
  rcases transact_cases t s (fun s' => settle s' q rest) (fun s' => raiseAbsent s' q) with
    ⟨-, e⟩ | ⟨as, -, e⟩ | ⟨a, as, -, -, e⟩ <;> rw [e]
  · exact .refl _
  · exact probeMove_settle_complete suffix hne state _ _ _ _
  · exact probeMove_raise_complete state _ _ _ _ _

theorem probeMove_readDataItem (suffix : rest <:+ identifyFrame) (hne : rest ≠ [])
    (state : s.idState = identifyState rest) (n : Nat) : ProbeMove s.idState (readDataItem n s q rest).idState := by
  unfold readDataItem
  dsimp only
  split
  case h_1 => exact .refl _
  case h_2 raw as _ =>
    split
    · cases n - chunkSize s.cfg n with
      | zero => rw [settle_readData_zero]; exact probeMove_settle_complete suffix hne state _ _ _ _
      | succ k => rw [settle_readData_succ]; exact .inl (by simp)
    · exact probeMove_raise_complete state _ _ _ _ _
  case h_3 => exact probeMove_raise_complete state _ _ _ _ _

theorem probeMove_waitReadyItem (suffix : rest <:+ identifyFrame) (hne : rest ≠ [])
    (state : s.idState = identifyState rest) : ProbeMove s.idState (waitReadyItem s q rest).idState := by
  unfold waitReadyItem
  split
  case h_1 => exact .refl _
  case h_2 => exact probeMove_settle_complete suffix hne state _ _ _ _
  case h_3 =>
    split
    · exact probeMove_raise_complete state _ _ _ _ _
    · exact .inl (by simp)
  case h_4 => exact probeMove_raise_complete state _ _ _ _ _

end

/-- A step of IDENTIFY moves the identification state along at most one edge (R181). -/
theorem IdentifyRunning.probeMove {s t : State} {q : Seq} (h : IdentifyRunning s q) (hr : s.resetInput = false)
    (hq : s.seq = some q) (hst : step s = .next t) : ProbeMove s.idState t.idState := by
  obtain ⟨it, rest, ht, hit, hne, suffix, state, -, -⟩ := h
  rcases step_busy hr hq ht with ⟨b, -, -, e⟩ | ⟨b, -, -, e⟩ | ⟨hc, e⟩ <;> rw [e] at hst
  · cases hst
  · obtain rfl := Host.Outcome.next.inj hst
    exact probeMove_simpleItem suffix hne state _
  · obtain rfl := Host.Outcome.next.inj hst
    cases it with
    | cmd b => exact absurd rfl (hc b)
    | addr b => exact probeMove_simpleItem suffix hne state _
    | readData n =>
      cases n with
      | zero => cases hit
      | succ n => exact probeMove_readDataItem suffix hne state _
    | waitReady => exact probeMove_waitReadyItem suffix hne state
    | _ => cases hit

/-! ## The whole machine -/

/-- An idle engine that is not aborted has not failed and identifies nothing (R181, R204). -/
theorem Inv.idle_idState {s : State} (h : Inv s) (idle : s.seq = none) (hab : s.abortCause = none) :
    s.idState = .uninitialized ∨ s.idState = .ready := by
  obtain ⟨-, uninitialized | ready | failed⟩ := h.idle idle
  · exact .inl uninitialized
  · exact .inr ready
  · simpa [hab] using h.failedAborted failed

/-- Settles O54: outside IDENTIFY the state stays, its acceptance goes to ProbeID, and its steps move along the edges
inside it. -/
theorem identificationStateMachine : Obligations.IdentificationStateMachine := by
  intro s t h hr hst hne
  have ht : Inv t := everyStepKeepsTheInvariant s t h hst
  cases stepsTo_of_step hst with
  | resets hr' => simp [hr] at hr'
  | idles => exact absurd rfl hne
  | illegal => exact absurd rfl hne
  | accepts idle r rs i _ _ accepted =>
    cases accepted with
    | answered a => exact absurd rfl hne
    | identify _ q =>
      show (s.idState, IdState.probeId) ∈ _
      rcases h.idle_idState idle (ht.base rfl).notAborted with e | e <;> rw [e] <;> decide
    | device hi q op device follows => exact absurd (follows.sameIdentity (op ▸ hi) device).idState.symm hne
  | performs q hq performed =>
    have hs := h.running q hq
    cases hi : isIdentify q.op with
    | true =>
      obtain same | edge := (hs.identify hi).probeMove hr hq hst
      · exact absurd same.symm hne
      · exact (by decide : ∀ e ∈ probeEdges, e ∈ _) _ edge
    | false => exact absurd (performed.sameIdentity hi (hs.device hi).2).idState.symm hne

end Sys2Proof.Machine

/-! READ_PAGE whose transactions are all answered (44_page_read.md R210 to R214). -/

namespace Sys2Proof.Machine

/-- The page read of a ready engine starts, for a page inside the device, with the spare area where the flag asks for it
(R210, R211). -/
theorem exec_readPage_started {s : State} {g : Geometry} (hs : s.ReadyWith g) {f : Byte} {p : Arg}
    (hf : f &&& 0xFE#8 = 0x00#8) (hp : p.toNat < g.pageCount) :
    exec (.readPage f p) s = .next (startOp s
      { op := .readPage f p, todo := readPageItems g p.toNat (f.getLsbD 0) }) := by
  have passed : readPageRefusal f p s = none := by
    rw [readPageRefusal, hs.stateChecks_eq, hs.geo, flagsDefined_eq_true (d := 0x01#8) hf, decide_eq_true hp]
    rfl
  refine congrArg _ ((accept_started hs.idle _ passed _).trans ?_)
  rw [hs.geo, includeOob, startFrame]

/-- Settles O40: the page read leaves exactly the page's bytes in the buffer, the response is made of them, and no
transaction of it drives a line. -/
theorem readPageReturnsThePage : Obligations.ReadPageReturnsThePage := by
  intro s g f p t d rest hi hs hf hp h ha
  have hg : g.Wf := hi.geometry g hs.geometry
  refine ⟨length_readsPage hg h, ?_⟩
  have played := plays_readPage (w := true)
    (q := { op := .readPage f p, todo := readPageItems g p.toNat (f.getLsbD 0) }) hg.cycles rfl h
  rw [← s.heard_quiet rest (quiet_readsPage h)]
  exact (played.ends fun _ _ _ => rfl).completes hi hs (exec_readPage_started hs hf hp) ha

end Sys2Proof.Machine

/-! The entry checks of the page writes and the other argument checks of the page and block operations
(45_page_write.md R230, R239, 46_block_erase.md R264, 47_bad_block_and_sequential.md R280, R284). -/

namespace Sys2Proof.Machine

section

variable {s : State} {g : Geometry}

/-- On a ready engine WRITE_PAGE of a page inside the device is decided by the length of its buffer (R230). -/
theorem writePageRefusal_eq (h : s.ReadyWith g) {a : Arg} (ha : a.toNat < g.pageCount) (x : List Byte) :
    writePageRefusal 0x00#8 a x s = checkThen (x.length == g.rawPageSize) (invalidCount x.length) none := by
  rw [writePageRefusal, h.stateChecks_eq, h.geo, decide_eq_true ha]
  rfl

/-- On a ready engine WRITE_PAGES from a page inside the device is decided by the checks after the page's (R239). -/
theorem writePagesRefusal_eq (h : s.ReadyWith g) {a : Arg} (ha : a.toNat < g.pageCount) (xs : List (List Byte)) :
    writePagesRefusal 0x00#8 a xs s =
      checkThen (a.toNat % g.pagesPerBlock == 0) (invalidIndex a.toNat)
        (checkThen (1 ≤ g.oobSize) invalidArgument (buffersCheck g.rawPageSize xs)) := by
  rw [writePagesRefusal, h.stateChecks_eq, h.geo, decide_eq_true ha]
  rfl

/-- Buffers that are all raw pages pass their check (R239). -/
theorem buffersCheck_eq_none {n : Nat} {xs : List (List Byte)} (h : ∀ x ∈ xs, x.length = n) :
    buffersCheck n xs = none := by
  have passed : firstWrongLength n xs = none := List.findIdx?_eq_none_iff.mpr fun x hx => by simp [h x hx]
  rw [buffersCheck, passed]

/-- The first buffer that is no raw page is named (R239). -/
theorem buffersCheck_eq_some {n k : Nat} {xs : List (List Byte)} (hk : k < xs.length)
    (wrong : (xs.getD k []).length ≠ n) (right : ∀ j < k, (xs.getD j []).length = n) :
    buffersCheck n xs = some (invalidIndex k) := by
  have found : firstWrongLength n xs = some k := by
    refine List.findIdx?_eq_some_iff_getElem.mpr ⟨hk, ?_, fun j hj => ?_⟩
    · simpa [hk] using wrong
    · simpa [hj.trans hk] using right j hj
  rw [buffersCheck, found]

/-- ERASE_RANGE refuses a range in the wrong order before it looks at its last block (R264). -/
theorem eraseRangeRefusal_wrongOrder (h : s.ReadyWith g) {a b : Arg} (hba : b.toNat < a.toNat) :
    eraseRangeRefusal 0x00#8 a b s = some (invalidIndex a.toNat) := by
  rw [eraseRangeRefusal, h.stateChecks_eq, decide_eq_false (Nat.not_le.mpr hba)]
  rfl

/-- The scan needs a spare area (R280). -/
theorem scanRefusal_noSpare (h : s.ReadyWith g) (hoob : g.oobSize = 0) :
    scanRefusal 0x00#8 s = some invalidArgument := by
  rw [scanRefusal, h.stateChecks_eq, h.geo, hoob]
  rfl

/-- The sequential read needs a spare area that holds its marker (R284). -/
theorem seqReadRefusal_smallSpare (h : s.ReadyWith g) {f : Byte} (hf : f &&& 0xFC#8 = 0x00#8) {a : Arg}
    (ha : a.toNat < g.blockCount) (hoob : g.oobSize < 6) : seqReadRefusal f a s = some invalidArgument := by
  rw [seqReadRefusal, h.stateChecks_eq, h.geo, flagsDefined_eq_true (d := 0x03#8) hf, decide_eq_true ha,
    decide_eq_false (p := Config.seqMarkerDelta + 1 ≤ g.oobSize) (Nat.not_le.mpr hoob)]
  rfl

end

/-- Settles O24: each check fails where the checks before it pass. -/
theorem badArgumentsAreRefused : Obligations.BadArgumentsAreRefused := by
  intro s g a h
  have refused {i : Instr} {refusal : Option Response} {r : Response} {start : State → State}
      (hr : refusal = some r) : Host.Outcome.next (accept i s refusal start) =
        (.next (s.responded r) : Host.Outcome State Fault Refusal) :=
    congrArg _ (accept_refused h.idle i hr start)
  refine ⟨fun x ha hx => refused ?_, fun xs ha => ⟨fun inside => refused ?_, fun first hoob => refused ?_,
    fun k first hoob hk wrong right => refused ?_⟩, fun b hb => refused (eraseRangeRefusal_wrongOrder h hb),
    fun hoob => refused (scanRefusal_noSpare h hoob),
    fun f hf ha hoob => refused (seqReadRefusal_smallSpare h hf ha hoob)⟩
  · rw [writePageRefusal_eq h ha, beq_false_of_ne hx]
    rfl
  · rw [writePagesRefusal_eq h ha, beq_false_of_ne inside]
    rfl
  · rw [writePagesRefusal_eq h ha, first, hoob]
    rfl
  · rw [writePagesRefusal_eq h ha, first, decide_eq_true (p := 1 ≤ g.oobSize) hoob,
      buffersCheck_eq_some hk wrong right]
    rfl

end Sys2Proof.Machine

/-! WRITE_PAGE whose transactions are all answered (45_page_write.md R230 to R236). -/

namespace Sys2Proof.Machine

/-- The locals with which WRITE_PAGE starts (R230). -/
def writePageStart (g : Geometry) (p : Arg) (buf : List Byte) : Seq :=
  { op := .writePage 0x00#8 p buf, todo := writeOnePage g p.toNat buf }

theorem writePageStart_atRest (g : Geometry) (p : Arg) (buf : List Byte) : (writePageStart g p buf).AtRest :=
  ⟨rfl, rfl, rfl, rfl, rfl⟩

/-- The page write of a ready engine starts, for a page inside the device and a buffer that is a raw page (R230). -/
theorem exec_writePage_started {s : State} {g : Geometry} (hs : s.ReadyWith g) {p : Arg} {buf : List Byte}
    (hp : p.toNat < g.pageCount) (hb : buf.length = g.rawPageSize) :
    exec (.writePage 0x00#8 p buf) s = .next (startOp s (writePageStart g p buf)) := by
  have passed : writePageRefusal 0x00#8 p buf s = none := by
    rw [writePageRefusal_eq hs hp, hb, beq_self_eq_true]
    rfl
  refine congrArg _ ((accept_started hs.idle _ passed _).trans ?_)
  rw [hs.geo, startFrame, writePageStart]

/-- Settles O41: the guarded page write leaves its last status byte in the locals, and drives only the write-protect
line. -/
theorem writePageSucceeds : Obligations.WritePageSucceeds := by
  intro s g p buf t st rest hi hs hp hb h ha
  have played := plays_writeOnePage (hi.geometry g hs.geometry) (writePageStart_atRest g p buf) hb h
  rw [← heard_write h]
  exact (played.ends fun _ _ _ => rfl).completes hi hs (exec_writePage_started hs hp hb) ha

/-- Settles O42: the failure raised inside the guard is answered after the restore, whatever parts were still to
come. -/
theorem writePageFailsAfterItsRetries : Obligations.WritePageFailsAfterItsRetries := by
  intro s g p buf t st rest hi hs hp hb h ha
  have failed := fails_writeOnePage (hi.geometry g hs.geometry) (writePageStart_atRest g p buf) hb h []
  rw [List.append_nil] at failed
  rw [← heard_writeFail h]
  exact failed.completes hi hs (exec_writePage_started hs hp hb) ha

end Sys2Proof.Machine

/-! WRITE_PAGES whose transactions are all answered: the loop of 45_page_write.md R238 with its marker pages, erases and
page writes, and how it ends (R238 to R244). -/

namespace Sys2Proof.Machine

/-! ## A procedure whose program ends with the next decision -/

/-- From a state with these parameters, this geometry and the device protected, what the move comes to, with nothing of
the program after it, ends in the response `e` at the end of the conversation. -/
def Leads (c : Config.Params) (g : Geometry) (m : State → Move) (t : Talk) (e : Response) : Prop :=
  ∀ (s : State) (as : List Answer), s.resetInput = false → s.cfg = c → s.geo = g → s.wpProtect = true →
    s.answers = t.answers ++ as →
    Runs t.events.length (startMove (m s)) ((s.heard as t.events).responded e)

/-- An action that is all that remains of the program is its move with nothing after it. -/
theorem settle_last_act (a : Action) (s : State) (q : Seq) : settle s q [.act a] = startMove (runAction a s q) := by
  rw [settle_act]
  cases runAction a s q with
  | go s' q' => rfl
  | push s' q' items => exact congrArg (s'.goOn q') (List.append_nil items)
  | fail s' q' r => rfl

section

variable {c : Config.Params} {g : Geometry} {q : Seq} {m m' : State → Move} {t : Talk} {e : Response}

theorem Leads.ends {a : Action} (h : Leads c g (runAction a · q) t e) : Ends c g q [.act a] t e := by
  intro s as hr hc hg hw ha
  rw [settle_last_act]
  exact h s as hr hc hg hw ha

/-- Only what the move is with these parameters and this geometry matters. -/
theorem Leads.of_eq (k : Leads c g m' t e) (h : ∀ s : State, s.cfg = c → s.geo = g → m s = m' s) :
    Leads c g m t e := by
  intro s as hr hc hg hw ha
  rw [h s hc hg]
  exact k s as hr hc hg hw ha

theorem leads_go (h : ∀ s : State, s.cfg = c → s.geo = g → m s = .go s q)
    (he : ∀ s : State, s.cfg = c → s.geo = g → okResponse s q = e) : Leads c g m (.join []) e := by
  intro s as hr hc hg hw ha
  rw [h s hc hg]
  exact ends_nil he s as hr hc hg hw ha

theorem leads_push {items : List Item} (h : ∀ s : State, s.cfg = c → s.geo = g → m s = .push s q items)
    (hs : StartsAt items) (k : Ends c g q items t e) : Leads c g m t e := by
  intro s as hr hc hg hw ha
  rw [h s hc hg, startMove, ← settle_startsAt hs]
  exact k s as hr hc hg hw ha

theorem leads_fail (h : ∀ s : State, s.cfg = c → s.geo = g → m s = .fail s q e) (hq : q.saved = none)
    (he : protocolError e.code = none) : Leads c g m (.join []) e := by
  intro s as _ hc hg _ ha
  obtain rfl : s.answers = as := ha
  show Runs 0 _ ((s.heard s.answers []).responded e)
  rw [h s hc hg, State.heard_self, startMove, raise_plain hq he]
  exact runs_zero _

end

/-! ## The marker pages of a block -/

section

variable {c : Config.Params} {g : Geometry} {w : Bool} {q : Seq} {page n : Nat} {t : Talk} {b : Bool}

/-- The marker check as a statement (R282). -/
theorem markerBad_iff (off : Nat) (d : List Byte) : markerBad d off = true ↔ MarkedBad off d := by
  rw [markerBad_eq, MarkedBad, bne_iff_ne]

/-- The marker pages, the first one and those from the next page on (R240). -/
theorem markerPages_succ (n : Nat) :
    ((List.range (n + 1)).flatMap fun j => readPageItems g (page + j) true ++ [.act .bulkMarker]) =
      (readPageItems g page true ++ [.act .bulkMarker]) ++
        (List.range n).flatMap fun j => readPageItems g (page + 1 + j) true ++ [.act .bulkMarker] := by
  rw [List.range_succ_eq_map, List.flatMap_cons, List.flatMap_map]
  simp only [Nat.add_zero, Nat.succ_eq_add_one, Nat.add_assoc, Nat.add_comm 1]

/-- One marker page: whether its marker is bad is added to what the markers before it said (R240, R282). -/
theorem plays_marker (hg : g.addressCycleCount = 5) (hp : q.poll = 0) (hb : q.buf = []) {d : List Byte}
    (h : ReadsPage c g page true t d) :
    Plays c g w q (readPageItems g page true ++ [.act .bulkMarker]) t
      { q with bad := q.bad || markerBad d g.pageSize } := by
  have played := (plays_readPage (w := w) hg hp h).append (plays_act (a := .bulkMarker)
    (p := { q with bad := q.bad || markerBad d g.pageSize }) fun s _ hs _ => by
      simp [runAction, bulkMarker, markerOffset, hs, hb])
  rwa [Talk.and_nil] at played

/-- The marker pages from `page` on (R240). -/
theorem plays_markers (hg : g.addressCycleCount = 5) (hp : q.poll = 0) (hb : q.buf = [])
    (h : MarkersRead c g page n t b) :
    Plays c g w q ((List.range n).flatMap fun j => readPageItems g (page + j) true ++ [.act .bulkMarker]) t
      { q with bad := q.bad || b } := by
  induction n generalizing q page t b with
  | zero =>
    obtain ⟨rfl, rfl⟩ := h
    rw [Bool.or_false]
    exact .nil
  | succ n ih =>
    obtain ⟨t₁, t₂, d, b', read, more, rfl, verdict⟩ := h
    obtain rfl : b = (markerBad d g.pageSize || b') := by
      rw [Bool.eq_iff_iff, verdict, Bool.or_eq_true, markerBad_iff]
    rw [markerPages_succ, Talk.join_two, ← Bool.or_assoc]
    exact (plays_marker hg hp hb read).append
      (ih (q := { q with bad := q.bad || markerBad d g.pageSize }) hp hb more)

/-- Reading the markers drives no line (R240). -/
theorem quiet_markers (h : MarkersRead c g page n t b) : t.Quiet := by
  induction n generalizing page t b with
  | zero =>
    obtain ⟨rfl, -⟩ := h
    exact quiet_join_nil
  | succ n ih =>
    obtain ⟨_, _, _, _, read, more, rfl, -⟩ := h
    rw [Talk.join_two]
    exact (quiet_readsPage read).and (ih more)

end

/-! ## The locals of the loop -/

/-- The locals of the bulk write `i` at the head of its loop: the page cursor `page` with the block it stands in, the
data cursor `k`, the skipped blocks, and the last status byte (R238). -/
def bulkAt (i : Instr) (g : Geometry) (page k : Nat) (skipped : List Nat) (status : Option Byte) : Seq :=
  { op := i, todo := [], page := page, block := page / g.pagesPerBlock, cursor := k, blocks := skipped,
    status := status }

theorem bulkAt_atRest (i : Instr) (g : Geometry) (page k : Nat) (skipped : List Nat) (status : Option Byte) :
    (bulkAt i g page k skipped status).AtRest :=
  ⟨rfl, rfl, rfl, rfl, rfl⟩

section

variable {c : Config.Params} {g : Geometry} {i : Instr} {page k : Nat} {skipped : List Nat} {status : Option Byte}
  {s : State} {t u : Talk} {e : Response} {st : Byte}

/-! ## The decisions of the loop -/

theorem bulkLoop_done (h : (bulkBuffers i).length ≤ k) :
    bulkLoop s (bulkAt i g page k skipped status) = .go s (bulkAt i g page k skipped status) :=
  if_pos h

theorem bulkLoop_exhausted (h : k < (bulkBuffers i).length) (hp : s.geo.pageCount ≤ page) :
    bulkLoop s (bulkAt i g page k skipped status) = .fail s (bulkAt i g page k skipped status)
      { code := .capacityExhausted, count := some (field40 k), list := some (.blocks skipped) } :=
  (if_neg (Nat.not_le.mpr h)).trans (if_pos hp)

/-- Inside a block the page is written at once (R238). -/
theorem bulkLoop_inside (h : k < (bulkBuffers i).length) (hp : page < s.geo.pageCount)
    (hb : page % s.geo.pagesPerBlock ≠ 0) :
    bulkLoop s (bulkAt i g page k skipped status) = bulkWrite s (bulkAt i g page k skipped status) :=
  (if_neg (Nat.not_le.mpr h)).trans ((if_neg (Nat.not_le.mpr hp)).trans (if_neg hb))

/-- At a block's first page the markers come first, where there are any to read (R238, R240). -/
theorem bulkLoop_block (h : k < (bulkBuffers i).length) (hp : page < s.geo.pageCount)
    (hb : page % s.geo.pagesPerBlock = 0) :
    bulkLoop s (bulkAt i g page k skipped status) =
      if markerPages s.cfg s.geo page = [] then bulkGoodBlock s (bulkAt i g page k skipped status)
      else .push s (bulkAt i g page k skipped status) (markerPages s.cfg s.geo page ++ [.act .bulkEntered]) := by
  refine (if_neg (Nat.not_le.mpr h)).trans ((if_neg (Nat.not_le.mpr hp)).trans ((if_pos hb).trans ?_))
  show (match markerPages s.cfg s.geo page with | [] => _ | _ => _) = _
  cases markerPages s.cfg s.geo page with
  | nil => rfl
  | cons x xs => rfl

/-- After bad markers the loop goes on at the next block, with this one skipped (R241). -/
theorem bulkEntered_bad (hs : s.geo = g) (hg : 0 < g.pagesPerBlock) :
    bulkEntered s { bulkAt i g page k skipped status with bad := true } =
      bulkLoop s (bulkAt i g (page + g.pagesPerBlock) k (skipped ++ [page / g.pagesPerBlock]) status) := by
  refine (if_pos rfl).trans ?_
  rw [hs, bulkAt, bulkAt, Nat.add_div_right page hg]

/-- After good markers the block is entered (R238). -/
theorem bulkEntered_good :
    bulkEntered s { bulkAt i g page k skipped status with bad := false } =
      bulkGoodBlock s (bulkAt i g page k skipped status) :=
  if_neg Bool.false_ne_true

/-- A good block is erased first where the configuration says so (R238). -/
theorem bulkGoodBlock_erases (he : s.cfg.bulkEraseBeforeProgram = true) :
    bulkGoodBlock s (bulkAt i g page k skipped status) = .push s (bulkAt i g page k skipped status)
      (eraseOne s.geo (page / g.pagesPerBlock) ++ [.act .bulkErased]) :=
  if_pos he

/-- Without an erase the page of a good block is written at once (R238). -/
theorem bulkGoodBlock_writes (he : s.cfg.bulkEraseBeforeProgram = false) :
    bulkGoodBlock s (bulkAt i g page k skipped status) = bulkWrite s (bulkAt i g page k skipped status) :=
  if_neg (he ▸ Bool.false_ne_true)

/-- A failed erase ends the bulk write (R243). -/
theorem bulkErased_failed (hf : statusFailed st = true) :
    bulkErased s (bulkAt i g page k skipped (some st)) = .fail s (bulkAt i g page k skipped (some st))
      { code := .eraseFailure, index := some (field40 (page / g.pagesPerBlock)), status := some st,
        count := some (field40 k), list := some (.blocks skipped) } :=
  if_pos hf

/-- After an erase that did not fail the page is written (R238). -/
theorem bulkErased_good (hf : statusFailed st = false) :
    bulkErased s (bulkAt i g page k skipped (some st)) = bulkWrite s (bulkAt i g page k skipped (some st)) :=
  if_neg (Bool.not_eq_true _ ▸ hf)

/-- After a page the loop goes on at the next page with the next buffer (R238). -/
theorem bulkWritten_eq (hs : s.geo = g) :
    bulkWritten s (bulkAt i g page k skipped status) = bulkLoop s (bulkAt i g (page + 1) (k + 1) skipped status) := by
  have block : (if (page + 1) % g.pagesPerBlock = 0 then page / g.pagesPerBlock + 1 else page / g.pagesPerBlock) =
      (page + 1) / g.pagesPerBlock := by
    simp only [Nat.succ_div, Nat.dvd_iff_mod_eq_zero]
    split <;> rfl
  rw [bulkWritten, hs, bulkAt, bulkAt, ← block]

/-! ## The parts of one round -/

/-- A block has no marker pages exactly where none are configured, or the block has no pages (R240). -/
theorem markerPages_eq_nil_iff : markerPages c g page = [] ↔ min c.writeMarkerPages g.pagesPerBlock = 0 := by
  unfold markerPages
  cases min c.writeMarkerPages g.pagesPerBlock with
  | zero => simp
  | succ n => simp [markerPages_succ]

/-- At a block's first page: the markers, and then the decision about the block (R238, R240). -/
theorem leads_marked (hg : g.addressCycleCount = 5) (h : k < (bulkBuffers i).length) (hp : page < g.pageCount)
    (hb : page % g.pagesPerBlock = 0) {bad : Bool} (hm : BlockMarked c g page t bad)
    (next : Leads c g (bulkEntered · { bulkAt i g page k skipped status with bad := bad }) u e) :
    Leads c g (bulkLoop · (bulkAt i g page k skipped status)) (t.and u) e := by
  have decision : ∀ s : State, s.cfg = c → s.geo = g → bulkLoop s (bulkAt i g page k skipped status) =
      if markerPages c g page = [] then bulkGoodBlock s (bulkAt i g page k skipped status)
      else .push s (bulkAt i g page k skipped status) (markerPages c g page ++ [.act .bulkEntered]) := by
    rintro s rfl rfl
    exact bulkLoop_block h hp hb
  by_cases unread : markerPages c g page = []
  · rw [BlockMarked, markerPages_eq_nil_iff.mp unread] at hm
    obtain ⟨rfl, rfl⟩ := hm
    rw [Talk.nil_and]
    refine next.of_eq fun s hc hs => ?_
    rw [decision s hc hs, if_pos unread, bulkEntered_good]
  · exact leads_push (fun s hc hs => (decision s hc hs).trans (if_neg unread))
      ((startsAt_markerPages unread).append _) ((plays_markers hg rfl rfl hm).thenEnds next.ends)

/-- The erase of a good block, and then the decision about it (R238). -/
theorem leads_erased (hg : g.Wf) (he : c.bulkEraseBeforeProgram = true)
    (h : Erases c g (page / g.pagesPerBlock) t st)
    (next : Leads c g (bulkErased · (bulkAt i g page k skipped (some st))) u e) :
    Leads c g (bulkGoodBlock · (bulkAt i g page k skipped status)) (t.and u) e := by
  refine leads_push (q := bulkAt i g page k skipped status) ?_ ((startsAt_eraseOne g _).append [.act .bulkErased])
    ((plays_eraseOne hg (bulkAt_atRest _ _ _ _ _ _) h).thenEnds next.ends)
  rintro s rfl rfl
  exact bulkGoodBlock_erases he

/-- A failed erase ends the bulk write with nothing more said (R243). -/
theorem leads_eraseFailed (hf : statusFailed st = true) :
    Leads c g (bulkErased · (bulkAt i g page k skipped (some st))) (.join [])
      { code := .eraseFailure, index := some (field40 (page / g.pagesPerBlock)), status := some st,
        count := some (field40 k), list := some (.blocks skipped) } :=
  leads_fail (fun _ _ _ => bulkErased_failed hf) rfl rfl

/-- What stands between the page cursor and the write of its page (R238, R242). -/
theorem leads_entered (hg : g.Wf) (h : k < (bulkBuffers i).length) (hp : page < g.pageCount)
    (hb : BlockEntered c g page t)
    (next : ∀ status, Leads c g (bulkWrite · (bulkAt i g page k skipped status)) u e) :
    Leads c g (bulkLoop · (bulkAt i g page k skipped status)) (t.and u) e := by
  by_cases first : page % g.pagesPerBlock = 0
  · rw [BlockEntered, if_pos first] at hb
    obtain ⟨t₁, marked, hb⟩ := hb
    have entered {v : Talk} (good : Leads c g (bulkGoodBlock · (bulkAt i g page k skipped status)) v e) :
        Leads c g (bulkLoop · (bulkAt i g page k skipped status)) (t₁.and v) e :=
      leads_marked hg.cycles h hp first marked (good.of_eq fun _ _ _ => bulkEntered_good)
    cases he : c.bulkEraseBeforeProgram with
    | true =>
      rw [if_pos he] at hb
      obtain ⟨t₂, st, erases, good, rfl⟩ := hb
      rw [Talk.join_two, Talk.and_assoc]
      exact entered (leads_erased hg he erases ((next (some st)).of_eq fun _ _ _ => bulkErased_good good))
    | false =>
      rw [if_neg (he ▸ Bool.false_ne_true)] at hb
      subst hb
      refine entered ((next status).of_eq ?_)
      rintro s rfl -
      exact bulkGoodBlock_writes he
  · rw [BlockEntered, if_neg first] at hb
    subst hb
    rw [Talk.nil_and]
    refine (next status).of_eq ?_
    rintro s - rfl
    exact bulkLoop_inside h hp first

/-- The write of a page, with how it ends (R238). -/
theorem leads_write (ends : Ends c g (bulkAt i g page k skipped status)
      (writeOnePage g page (bufferAt (bulkBuffers i) k) ++ [.act .bulkWritten]) t e) :
    Leads c g (bulkWrite · (bulkAt i g page k skipped status)) t e := by
  refine leads_push ?_ ((startsAt_writeOnePage _ _ _).append _) ends
  rintro s - rfl
  rfl

/-- The buffer at a data cursor inside the list is one of the list's (R238). -/
theorem length_bufferAt {bufs : List (List Byte)} {n : Nat} (hl : ∀ b ∈ bufs, b.length = n) (h : k < bufs.length) :
    (bufferAt bufs k).length = n := by
  rw [bufferAt, List.getD_eq_getElem _ _ h]
  exact hl _ (List.getElem_mem h)

end

/-! ## The whole loop -/

section

variable {c : Config.Params} {g : Geometry} {bufs : List (List Byte)} {page k : Nat} {skipped : List Nat} {t : Talk}
  {r : Response}

/-- From the head of its loop the bulk write ends as the conversation says: round by round (R238). -/
theorem leads_bulkLoop (hg : g.Wf) (hl : ∀ b ∈ bufs, b.length = g.rawPageSize) (f : Byte) (p : Arg)
    (h : BulkWrites c g bufs page k skipped t r) (status : Option Byte) :
    Leads c g (bulkLoop · (bulkAt (.writePages f p bufs) g page k skipped status)) t r := by
  induction h generalizing status with
  | done h => exact leads_go (fun _ _ _ => bulkLoop_done h) fun _ _ _ => rfl
  | @exhausted page k skipped h hp =>
    refine leads_fail (q := bulkAt (.writePages f p bufs) g page k skipped status) ?_ rfl rfl
    rintro s - rfl
    exact bulkLoop_exhausted h hp
  | skip h hp hb hm _ ih =>
    rw [Talk.join_two]
    exact leads_marked hg.cycles h hp hb hm ((ih status).of_eq fun _ _ hs => bulkEntered_bad hs hg.pagesPerBlock_pos)
  | @eraseFails _ _ _ _ t₂ _ h hp hb hm he hs hf =>
    rw [Talk.join_two, ← Talk.and_nil t₂]
    exact leads_marked hg.cycles h hp hb hm
      ((leads_erased hg he hs (leads_eraseFailed hf)).of_eq fun _ _ _ => bulkEntered_good)
  | write h hp hb hw _ ih =>
    rw [Talk.join_three]
    refine leads_entered hg h hp hb fun status => leads_write ?_
    exact (plays_writeOnePage hg (bulkAt_atRest _ _ _ _ _ _) (length_bufferAt hl h) hw).thenEnds
      ((ih _).of_eq fun _ _ hs => bulkWritten_eq hs).ends
  | programFails h hp hb hw =>
    rw [Talk.join_two]
    exact leads_entered hg h hp hb fun status =>
      leads_write (fails_writeOnePage hg (bulkAt_atRest _ _ _ _ _ _) (length_bufferAt hl h) hw _)

/-! ## The lines -/

theorem noMark_nil : Talk.NoMark (.join []) := quiet_join_nil.noMark

theorem noMark_erase {b : Nat} {st : Byte} (h : Erases c g b t st) : Talk.NoMark t := by
  obtain ⟨_, _, waits, reads, rfl⟩ := h
  exact Talk.NoMark.guarded (quiet_eraseBody waits reads).noMark

theorem noMark_write {buf : List Byte} {st : Byte} (h : WritesPage c g page buf t st) : Talk.NoMark t := by
  obtain ⟨_, parts, rfl⟩ := h
  exact Talk.NoMark.guarded (quiet_parts parts).noMark

theorem noMark_writeFails {buf : List Byte} {st : Byte} (h : PageWriteFails c g page buf t st) : Talk.NoMark t := by
  obtain ⟨_, parts, rfl⟩ := h
  exact Talk.NoMark.guarded (quiet_partsFail parts).noMark

theorem noMark_entered (h : BlockEntered c g page t) : Talk.NoMark t := by
  unfold BlockEntered at h
  split at h
  · obtain ⟨t₁, marked, h⟩ := h
    have markers : Talk.NoMark t₁ := (quiet_markers marked).noMark
    split at h
    · obtain ⟨_, _, erases, -, rfl⟩ := h
      rw [Talk.join_two]
      exact markers.and (noMark_erase erases)
    · exact h ▸ markers
  · exact h ▸ noMark_nil

/-- The bulk write does not drive the sequential-read lines (R238). -/
theorem noMark_bulkWrites (h : BulkWrites c g bufs page k skipped t r) : Talk.NoMark t := by
  induction h with
  | done | exhausted => exact noMark_nil
  | skip _ _ _ hm _ ih =>
    rw [Talk.join_two]
    exact (quiet_markers hm).noMark.and ih
  | eraseFails _ _ _ hm _ hs _ =>
    rw [Talk.join_two]
    exact (quiet_markers hm).noMark.and (noMark_erase hs)
  | write _ _ hb hw _ ih =>
    rw [Talk.join_three]
    exact (noMark_entered hb).and ((noMark_write hw).and ih)
  | programFails _ _ hb hw =>
    rw [Talk.join_two]
    exact (noMark_entered hb).and (noMark_writeFails hw)

end

/-- Without a `Mark` only the write-protect line can have moved (R146). -/
theorem State.heard_noMark (s : State) (as : List Answer) {t : Talk} (h : Talk.NoMark t) :
    s.heard as t.events = { s.after as t.events with wpLine := wpLineAfter s.cfg s.wpLine t.events } := by
  unfold State.heard
  rw [markLinesAfter_of_noMark h]
  rfl

/-- The bulk write of a ready engine starts with its loop, for a start page at the start of a block inside the device, a
spare area and buffers that are raw pages (R238, R239). -/
theorem exec_writePages_started {s : State} {g : Geometry} (hs : s.ReadyWith g) {p : Arg} {bufs : List (List Byte)}
    (hp : p.toNat < g.pageCount) (first : p.toNat % g.pagesPerBlock = 0) (hoob : 1 ≤ g.oobSize)
    (hl : ∀ b ∈ bufs, b.length = g.rawPageSize) :
    exec (.writePages 0x00#8 p bufs) s =
      .next (startMove (bulkLoop s (bulkAt (.writePages 0x00#8 p bufs) g p.toNat 0 [] none))) := by
  have passed : writePagesRefusal 0x00#8 p bufs s = none := by
    rw [writePagesRefusal_eq hs hp, first, decide_eq_true hoob, buffersCheck_eq_none hl]
    rfl
  refine congrArg _ ((accept_started hs.idle _ passed _).trans ?_)
  rw [hs.geo, bulkAt, decomposeAddress]

/-- Settles O47: the loop round by round, by induction on the conversation, from the locals the acceptance sets up. -/
theorem writePagesFollowsTheLoop : Obligations.WritePagesFollowsTheLoop := by
  intro s g p bufs t r rest hi hs hp first hoob hl h ha
  obtain ⟨wpProtect, -⟩ := hi.idle hs.idle
  refine ⟨_, exec_writePages_started hs hp first hoob hl, ?_⟩
  rw [← s.heard_noMark rest (noMark_bulkWrites h)]
  exact leads_bulkLoop (hi.geometry g hs.geometry) hl 0x00#8 p h none s rest hs.running rfl hs.geo wpProtect ha

end Sys2Proof.Machine

/-! ERASE_BLOCK and ERASE_RANGE whose transactions are all answered (46_block_erase.md R260 to R264). -/

namespace Sys2Proof.Machine

/-! ## The status byte of an erase -/

/-- The FAIL bit decides (R156). -/
theorem statusFailed_iff {st : Byte} : statusFailed st = true ↔ st &&& 0x01#8 ≠ 0x00#8 := bne_iff_ne

/-! ## ERASE_BLOCK -/

/-- The locals of ERASE_BLOCK, with the last status byte read (R260). -/
def eraseBlockAt (g : Geometry) (b : Arg) (status : Option Byte) : Seq :=
  { op := .eraseBlock 0x00#8 b, block := b.toNat, todo := eraseOne g b.toNat ++ [.act .eraseVerdict], status := status }

theorem eraseBlockAt_atRest (g : Geometry) (b : Arg) (status : Option Byte) : (eraseBlockAt g b status).AtRest :=
  ⟨rfl, rfl, rfl, rfl, rfl⟩

/-- The erase of a ready engine starts, for a block inside the device (R260). -/
theorem exec_eraseBlock_started {s : State} {g : Geometry} (hs : s.ReadyWith g) {b : Arg}
    (hb : b.toNat < g.blockCount) : exec (.eraseBlock 0x00#8 b) s = .next (startOp s (eraseBlockAt g b none)) := by
  have passed : eraseBlockRefusal 0x00#8 b s = none := by
    rw [eraseBlockRefusal, hs.stateChecks_eq, hs.geo, decide_eq_true hb]
    rfl
  refine congrArg _ ((accept_started hs.idle _ passed _).trans ?_)
  rw [hs.geo, eraseBlockAt]

/-- The decision after the erase (R260, R262). -/
theorem leads_eraseVerdict (c : Config.Params) (g : Geometry) (b : Arg) (st : Byte) :
    Leads c g (runAction .eraseVerdict · (eraseBlockAt g b (some st))) (.join [])
      { code := if st &&& 0x01#8 = 0x00#8 then ResultCode.ok else .eraseFailure, index := some (field40 b.toNat),
        status := some st } := by
  by_cases passed : st &&& 0x01#8 = 0x00#8
  · rw [if_pos passed]
    exact leads_go (fun _ _ _ => if_neg (mt statusFailed_iff.mp (not_not_intro passed))) fun _ _ _ => rfl
  · rw [if_neg passed]
    exact leads_fail (fun _ _ _ => if_pos (statusFailed_iff.mpr passed)) rfl rfl

/-- Settles O43: the guarded erase leaves its status byte in the locals, the verdict answers with it, and only the
write-protect line is driven. -/
theorem eraseBlockReportsTheStatus : Obligations.EraseBlockReportsTheStatus := by
  intro s g b t st rest hi hs hb h ha
  have ended := (plays_eraseOne (hi.geometry g hs.geometry) (eraseBlockAt_atRest g b none) h).thenEnds
    (leads_eraseVerdict s.cfg g b st).ends
  rw [Talk.and_nil] at ended
  rw [← heard_erase h]
  exact ended.completes hi hs (exec_eraseBlock_started hs hb) ha

/-! ## ERASE_RANGE -/

/-- The locals of ERASE_RANGE from the acceptance on (R264). -/
def eraseRangeStart (g : Geometry) (b₀ b₁ : Arg) : Seq :=
  { op := .eraseRange 0x00#8 b₀ b₁, block := b₀.toNat, todo := eraseRangeBlockItems g b₀.toNat }

theorem eraseRangeStart_atRest (g : Geometry) (b₀ b₁ : Arg) : (eraseRangeStart g b₀ b₁).AtRest :=
  ⟨rfl, rfl, rfl, rfl, rfl⟩

/-- The range erase of a ready engine starts at its first block, for an ordered range inside the device (R264). -/
theorem exec_eraseRange_started {s : State} {g : Geometry} (hs : s.ReadyWith g) {b₀ b₁ : Arg}
    (ordered : b₀.toNat ≤ b₁.toNat) (inside : b₁.toNat < g.blockCount) :
    exec (.eraseRange 0x00#8 b₀ b₁) s = .next (startOp s (eraseRangeStart g b₀ b₁)) := by
  have passed : eraseRangeRefusal 0x00#8 b₀ b₁ s = none := by
    rw [eraseRangeRefusal, hs.stateChecks_eq, hs.geo, decide_eq_true ordered, decide_eq_true inside]
    rfl
  refine congrArg _ ((accept_started hs.idle _ passed _).trans ?_)
  rw [hs.geo, eraseRangeStart]

/-- The response to a whole range, of its blocks and their status bytes: the first failing one decides (R264). -/
def rangeResponse (ps : List (Nat × Byte)) : Response :=
  match firstFailed ps with
  | none => { code := .ok, list := some (.statuses ps) }
  | some (b, st) =>
    { code := .eraseFailure, index := some (field40 b), status := some st, list := some (.statuses ps) }

theorem rangeResponse_passed {ps : List (Nat × Byte)} (h : firstFailed ps = none) :
    rangeResponse ps = { code := .ok, list := some (.statuses ps) } := by
  rw [rangeResponse, h]

theorem rangeResponse_failed {ps : List (Nat × Byte)} {b : Nat} {st : Byte} (h : firstFailed ps = some (b, st)) :
    rangeResponse ps = { code := .eraseFailure, index := some (field40 b), status := some st,
                         list := some (.statuses ps) } := by
  rw [rangeResponse, h]

/-- The locals of the range erase after one block: its status byte is read and recorded (R264). -/
def Seq.erased (q : Seq) (st : Byte) : Seq :=
  { q with status := some st, statuses := q.statuses ++ [(q.block, st)] }

section

variable {c : Config.Params} {g : Geometry} {q : Seq} {f : Byte} {b₀ b₁ : Arg} {b : Nat} {st : Byte} {sts : List Byte}
  {t : Talk}

/-! ### The decision after a block -/

/-- Before the last block the range goes on, whatever the status byte (R264). -/
theorem rangeNext_goesOn (op : q.op = .eraseRange f b₀ b₁) (before : q.block < b₁.toNat) (s : State) :
    rangeNext s { q with status := some st } =
      .push s { q.erased st with block := q.block + 1 } (eraseRangeBlockItems s.geo (q.block + 1)) := by
  simp [rangeNext, Seq.erased, op, before]

/-- After the last block the range ends with OK where no block failed (R264). -/
theorem rangeNext_passed (op : q.op = .eraseRange f b₀ b₁) (last : q.block = b₁.toNat)
    (h : firstFailed (q.erased st).statuses = none) (s : State) :
    rangeNext s { q with status := some st } = .go s (q.erased st) := by
  simp only [Seq.erased] at h
  simp [rangeNext, Seq.erased, op, last.not_lt, h]

/-- After the last block the range ends with the first block that failed (R264). -/
theorem rangeNext_failed (op : q.op = .eraseRange f b₀ b₁) (last : q.block = b₁.toNat) {p : Nat × Byte}
    (h : firstFailed (q.erased st).statuses = some p) (s : State) :
    rangeNext s { q with status := some st } = .fail s (q.erased st) (rangeResponse (q.erased st).statuses) := by
  rw [rangeResponse_failed h]
  simp only [Seq.erased] at h
  simp [rangeNext, Seq.erased, op, last.not_lt, h]

/-- Before the last block the next one is erased (R264). -/
theorem leads_rangeGoesOn {e : Response} (op : q.op = .eraseRange f b₀ b₁) (before : q.block < b₁.toNat)
    (next : Ends c g { q.erased st with block := q.block + 1 } (eraseRangeBlockItems g (q.block + 1)) t e) :
    Leads c g (runAction .rangeNext · { q with status := some st }) t e :=
  leads_push (fun s _ hs => hs ▸ rangeNext_goesOn op before s) ((startsAt_eraseOne g (q.block + 1)).append _) next

/-- After the last block the range is answered (R264). -/
theorem leads_rangeEnd (hq : q.AtRest) (op : q.op = .eraseRange f b₀ b₁) (last : q.block = b₁.toNat) :
    Leads c g (runAction .rangeNext · { q with status := some st }) (.join [])
      (rangeResponse (q.erased st).statuses) := by
  cases h : firstFailed (q.erased st).statuses with
  | none =>
    rw [rangeResponse_passed h]
    exact leads_go (fun s _ _ => rangeNext_passed op last h s) fun _ _ _ => by simp [okResponse, Seq.erased, op]
  | some p =>
    exact leads_fail (fun s _ _ => rangeNext_failed op last h s) hq.saved (by rw [rangeResponse_failed h]; rfl)

/-! ### The blocks of the range -/

/-- From the block cursor on, the range erases each block left and answers with all of them (R264). -/
theorem ends_eraseRange (hg : g.Wf) (hq : q.AtRest) (op : q.op = .eraseRange f b₀ b₁)
    (hn : q.block + sts.length = b₁.toNat) (h : ErasesFrom c g q.block (st :: sts) t) :
    Ends c g q (eraseRangeBlockItems g q.block) t (rangeResponse (q.statuses ++ erasePairs q.block (st :: sts))) := by
  induction sts generalizing st q t with
  | nil =>
    obtain ⟨t₁, _, erases, rfl, rfl⟩ := h
    rw [Talk.join_two]
    exact (plays_eraseOne hg hq erases).thenEnds (leads_rangeEnd hq op hn).ends
  | cons st' sts ih =>
    obtain ⟨t₁, t₂, erases, more, rfl⟩ := h
    have before : q.block < b₁.toNat := by simp only [List.length_cons] at hn; omega
    rw [Talk.join_two, erasePairs, List.append_cons]
    exact (plays_eraseOne hg hq erases).thenEnds (leads_rangeGoesOn op before
      (ih ⟨hq.poll, hq.retry, hq.buf, hq.saved, hq.pending⟩ op
        (by simp only [List.length_cons] at hn ⊢; omega) more)).ends

/-! ### The lines -/

theorem noMark_erasesFrom (h : ErasesFrom c g b sts t) : Talk.NoMark t := by
  induction sts generalizing b t with
  | nil => exact h ▸ noMark_nil
  | cons st sts ih =>
    obtain ⟨_, _, erases, more, rfl⟩ := h
    rw [Talk.join_two]
    exact (noMark_erase erases).and (ih more)

/-- An erase leaves the write-protect line at its protecting level (R157, R261). -/
theorem wpLineAfter_erase (h : Erases c g b t st) (l : Option Bool) :
    wpLineAfter c l t.events = some c.wpProtectLevel := by
  obtain ⟨_, _, -, -, rfl⟩ := h
  exact wpLineAfter_guarded

/-- Erases leave a protected device protected (R157, R264). -/
theorem wpLineAfter_erasesFrom (h : ErasesFrom c g b sts t) :
    wpLineAfter c (some c.wpProtectLevel) t.events = some c.wpProtectLevel := by
  induction sts generalizing b t with
  | nil => exact h ▸ rfl
  | cons st sts ih =>
    obtain ⟨_, _, erases, more, rfl⟩ := h
    rw [Talk.join_two, Talk.and, wpLineAfter_append, wpLineAfter_erase erases, ih more]

/-- What the erases of a range with at least one block leave: only the write-protect line can have changed (R264). -/
theorem heard_erasesFrom {s : State} {as : List Answer} (h : ErasesFrom s.cfg g b (st :: sts) t) :
    s.heard as t.events = { s.after as t.events with wpLine := some s.cfg.wpProtectLevel } := by
  rw [s.heard_noMark as (noMark_erasesFrom h)]
  obtain ⟨_, _, erases, more, rfl⟩ := h
  rw [Talk.join_two, Talk.and, wpLineAfter_append, wpLineAfter_erase erases, wpLineAfter_erasesFrom more]

end

/-- Settles O44: by induction over the blocks left, the range records each block with its status byte and goes on, and
the whole list is answered at the end. -/
theorem eraseRangeReportsEveryBlock : Obligations.EraseRangeReportsEveryBlock := by
  intro s g b₀ b₁ sts t rest hi hs ordered inside hlen h ha
  obtain ⟨st, sts, rfl⟩ := List.exists_cons_of_length_eq_add_one hlen
  have ended := ends_eraseRange (hi.geometry g hs.geometry) (eraseRangeStart_atRest g b₀ b₁) rfl
    (by simp only [eraseRangeStart, List.length_cons] at hlen ⊢; omega) h
  rw [← heard_erasesFrom h]
  exact ended.completes hi hs (exec_eraseRange_started hs ordered inside) ha

end Sys2Proof.Machine

/-! GET_FEATURE and SET_FEATURE: their entry checks, and the operations whose transactions are all answered
(48_features.md R310 to R313). -/

namespace Sys2Proof.Machine

/-! ## The entry checks -/

/-- An aborted session fails the state checks with its cause (R346, R353). -/
theorem stateChecks_aborted {s : State} {c : AbortCause} (h : s.abortCause = some c) (n : Bool)
    (others : Option Response) : stateChecks n s others = some { code := c.result } := by
  rw [stateChecks, h]

/-- An operation that needs identification fails the state checks without it (R353). -/
theorem stateChecks_notIdentified {s : State} (ha : s.abortCause = none) (hs : s.idState ≠ .ready)
    (others : Option Response) : stateChecks true s others = some { code := .notIdentified } := by
  simp [stateChecks, ha, hs]

/-- Both feature operations check the state, the flags and the address before anything else; SET_FEATURE then checks the
length of its value (R312). -/
theorem exec_feature {f : Byte} {a : Arg} {v : List Byte} {i : Instr}
    (hi : i ∈ [Instr.getFeature f a, .setFeature f a v]) (s : State) :
    ∃ others start, exec i s = .next (accept i s (stateChecks true s (checkThen (flagsDefined 0x00#8 f) invalidArgument
        (checkThen (a.toNat ≤ 0xFF) (invalidIndex a.toNat) others))) start) ∧
      (i = .setFeature f a v → others = checkThen (v.length == Config.featureLen) (invalidCount v.length) none) := by
  simp only [List.mem_cons, List.not_mem_nil, or_false] at hi
  rcases hi with rfl | rfl
  · exact ⟨_, _, rfl, nofun⟩
  · exact ⟨_, _, rfl, fun _ => rfl⟩

/-- Settles O25: each check fails where the checks before it pass. -/
theorem featureEntryChecks : Obligations.FeatureEntryChecks := by
  intro s a v f hq i hi
  obtain ⟨others, start, hx, length⟩ := exec_feature hi s
  refine ⟨fun c aborted => ?_, fun ha unidentified => ?_, fun ha ready => ⟨fun flagged => ?_, ?_, ?_⟩⟩ <;> rw [hx]
  · exact congrArg _ (accept_refused hq i (stateChecks_aborted aborted true _) start)
  · exact congrArg _ (accept_refused hq i (stateChecks_notIdentified ha unidentified _) start)
  · exact congrArg _ (accept_firstCheckFails hq ha (fun _ => ready) (flagsDefined_none_eq_false flagged) i _ _ start)
  · rintro rfl outside
    refine congrArg _ (accept_refused hq i ?_ start)
    rw [stateChecks_pass ha fun _ => ready, decide_eq_false (Nat.not_le.mpr outside)]
    rfl
  · rintro rfl inside isSet wrong
    refine congrArg _ (accept_refused hq i ?_ start)
    rw [stateChecks_pass ha fun _ => ready, decide_eq_true inside, length isSet,
      beq_false_of_ne (b := Config.featureLen) wrong]
    rfl

/-! ## From acceptance to response -/

/-- The address byte of a feature is the low byte of the argument (R310, R311). -/
theorem featureAddress_eq (a : Arg) : a.extractLsb' 0 8 = BitVec.ofNat 8 a.toNat := rfl

/-- GET_FEATURE of a ready engine starts, for an address of one byte (R310, R312). -/
theorem exec_getFeature_started {s : State} {g : Geometry} (hs : s.ReadyWith g) {a : Arg} (ha : a.toNat ≤ 0xFF) :
    exec (.getFeature 0x00#8 a) s = .next (startOp s
      { op := .getFeature 0x00#8 a, todo := getFeatureFrame (BitVec.ofNat 8 a.toNat) }) := by
  have passed : getFeatureRefusal 0x00#8 a s = none := by
    rw [getFeatureRefusal, hs.stateChecks_eq, decide_eq_true ha]
    rfl
  refine congrArg _ ((accept_started hs.idle _ passed _).trans ?_)
  rw [featureAddress_eq, startFrame]

/-- SET_FEATURE of a ready engine starts, for an address of one byte and a value of four (R311, R312). -/
theorem exec_setFeature_started {s : State} {g : Geometry} (hs : s.ReadyWith g) {a : Arg} (ha : a.toNat ≤ 0xFF)
    {v : List Byte} (hv : v.length = 4) :
    exec (.setFeature 0x00#8 a v) s = .next (startOp s
      { op := .setFeature 0x00#8 a v, todo := setFeatureFrame (BitVec.ofNat 8 a.toNat) v }) := by
  have passed : setFeatureRefusal 0x00#8 a v s = none := by
    rw [setFeatureRefusal, hs.stateChecks_eq, decide_eq_true ha, hv]
    rfl
  refine congrArg _ ((accept_started hs.idle _ passed _).trans ?_)
  rw [featureAddress_eq, startFrame]

/-- An operation whose conversation drives no line, and that needs no invariant, completes with the response its locals
end with. -/
theorem Plays.completes {s : State} {g : Geometry} {i : Instr} {q p : Seq} {t : Talk} {e : Response} {rest : List Answer}
    (h : Plays s.cfg g s.wpProtect q q.todo t p) (quiet : t.Quiet) (hs : s.ReadyWith g)
    (hx : exec i s = .next (startOp s q)) (ha : s.answers = t.answers ++ rest)
    (he : okResponse (s.after rest t.events) p = e) :
    Completes i t.events.length s ((s.after rest t.events).responded e) := by
  have run := (h s rest hs.running rfl hs.geo rfl ha).finish
  rw [s.heard_quiet rest quiet, he] at run
  exact ⟨_, hx, run⟩

/-- The conversation of a feature operation: the command `b` with the address byte `fa`, the settle delay, and the transfer
of the value (R310, R311, R313). -/
def featureTalk (c : Config.Params) (b fa : Byte) (value : Talk) : Talk :=
  .join [.sends (commandAndAddress b [fa]), .delay c, value]

section

variable {c : Config.Params} {g : Geometry} {w : Bool} {q p : Seq} {t : Talk} {v : List Byte}

/-- A feature operation drives a line only where its transfer does (R146). -/
theorem quiet_feature (b fa : Byte) (h : t.Quiet) : (featureTalk c b fa t).Quiet := by
  have delay : (Talk.delay c).Quiet := List.forall_mem_singleton.mpr rfl
  rw [featureTalk, Talk.join_three]
  exact (quiet_commandAndAddress b [fa]).and (delay.and h)

/-- A feature operation's command, address byte and settle delay before the transfer of its value (R310, R311). -/
theorem plays_feature {b : Byte} {i : Instr} (hd : decodeCommand b = .ok i) (fa : Byte) {value : Item}
    (h : Plays c g w q [value] t p) :
    Plays c g w q [.cmd b, .addr fa, .delay, value] (featureTalk c b fa t) p := by
  rw [featureTalk, Talk.join_three]
  exact ((plays_cmd hd).cons (plays_addr fa)).append (plays_delay.cons h)

/-- The frame of GET_FEATURE: the value stands in the buffer (R310). -/
theorem plays_getFeature (hb : q.buf = []) (read : Reads c 4 t v) (fa : Byte) :
    Plays c g w q (getFeatureFrame fa) (featureTalk c 0xEE#8 fa t) { q with buf := v } := by
  have value := plays_read (g := g) (w := w) (q := q) read
  rw [hb, List.nil_append] at value
  exact plays_feature (i := .nandGetFeatures) rfl fa value

/-- The frame of SET_FEATURE leaves the locals alone (R311). -/
theorem plays_setFeature (hv : v ≠ []) (fa : Byte) :
    Plays c g w q (setFeatureFrame fa v) (featureTalk c 0xEF#8 fa (.sends [.dataOut v])) q := by
  have value := plays_dataOut (c := c) (g := g) (w := w) (q := q) v
  rw [if_neg hv] at value
  exact plays_feature (i := .nandSetFeatures) rfl fa value

end

/-- Settles O48: the frame leaves the value in the buffer, the response is made of it, and no line is driven. -/
theorem getFeatureReturnsTheValue : Obligations.GetFeatureReturnsTheValue := by
  intro s g a r v rest hs ha read t answered
  exact (plays_getFeature rfl read _).completes (quiet_feature _ _ (quiet_reads read)) hs
    (exec_getFeature_started hs ha) answered rfl

/-- Settles O49: the frame sends the value and leaves the locals alone, and no line is driven. -/
theorem setFeatureSendsTheValue : Obligations.SetFeatureSendsTheValue := by
  intro s g a v rest hs ha hv t answered
  have sent : (Talk.sends [.dataOut v]).Quiet := quiet_sends (List.forall_mem_singleton.mpr rfl)
  exact (plays_setFeature (List.ne_nil_of_length_eq_add_one hv) _).completes (quiet_feature _ _ sent) hs
    (exec_setFeature_started hs ha hv) answered rfl

end Sys2Proof.Machine

/-! COMPUTE_BER: its entry checks, the count of differing bytes, and the laws of the count
(49_diagnostics.md R330 to R333). -/

namespace Sys2Proof.Machine

section

variable {x y : List Byte}

/-! ## The count of differing bytes -/

/-- The count of R330 is the count over the pairs of bytes at one position. -/
theorem differingBytes_eq_countP : ∀ x y : List Byte, differingBytes x y = (x.zip y).countP fun p => p.1 != p.2
  | a :: x, b :: y => by
    rw [differingBytes, differingBytes_eq_countP x y, List.zip_cons_cons, List.countP_cons, Nat.add_comm]
  | [], _ => rfl
  | _ :: _, [] => rfl

/-- The count does not depend on the order of the buffers (R332). -/
theorem differingBytes_comm (x y : List Byte) : differingBytes x y = differingBytes y x := by
  rw [differingBytes_eq_countP, differingBytes_eq_countP, ← List.zip_swap y x, List.countP_map]
  exact congrArg (List.countP · _) (funext fun p => bne_comm)

/-- A buffer differs from its image under `f` where `f` changes the byte. -/
theorem differingBytes_map (f : Byte → Byte) (x : List Byte) :
    differingBytes x (x.map f) = x.countP fun b => b != f b := by
  rw [differingBytes_eq_countP, ← List.map_prod_left_eq_zip, List.countP_map]
  rfl

/-- A buffer does not differ from itself (R332). -/
theorem differingBytes_self (x : List Byte) : differingBytes x x = 0 := by
  have same := differingBytes_map id x
  rw [List.map_id] at same
  exact same.trans (List.countP_eq_zero.mpr fun b _ => by simp)

/-- A byte with every bit flipped is another byte. -/
theorem ne_flipAllBits (b : Byte) : b ≠ b ^^^ 0xFF#8 := by
  have flipped : b ^^^ 0xFF#8 = ~~~b := BitVec.xor_allOnes (x := b)
  rw [flipped]
  exact BitVec.ne_not_self (by decide)

/-- A buffer differs from its flip at every position (R332). -/
theorem differingBytes_flipAllBits (x : List Byte) : differingBytes x (x.map (· ^^^ 0xFF#8)) = x.length := by
  rw [differingBytes_map, List.countP_eq_length]
  exact fun b _ => bne_iff_ne.mpr (ne_flipAllBits b)

/-! ## The entry checks -/

/-- Without flag bits COMPUTE_BER is decided by the lengths of its buffers (R331). -/
theorem berRefusal_noFlags (x y : List Byte) : berRefusal 0x00#8 x y =
    checkThen (x.length == y.length) (invalidCount x.length) (checkThen (1 ≤ x.length) invalidArgument none) := rfl

variable {s : State}

/-- COMPUTE_BER of buffers of different lengths is refused in every idle state (R331). -/
theorem exec_computeBer_lengthsDiffer (hq : s.seq = none) (h : x.length ≠ y.length) :
    exec (.computeBer 0x00#8 x y) s = .next (s.responded (invalidCount x.length)) :=
  congrArg _ (accept_refused hq _ (by rw [berRefusal_noFlags, beq_false_of_ne h, checkThen_false]) _)

/-- COMPUTE_BER of two empty buffers is refused in every idle state (R331). -/
theorem exec_computeBer_empty (hq : s.seq = none) :
    exec (.computeBer 0x00#8 [] []) s = .next (s.responded invalidArgument) :=
  congrArg _ (accept_refused hq _ rfl _)

/-- COMPUTE_BER of two buffers of one length, not empty, answers with the count in every idle state (R330, R333). -/
theorem exec_computeBer_counts (hq : s.seq = none) (hl : x.length = y.length) (hx : 0 < x.length) :
    exec (.computeBer 0x00#8 x y) s =
      .next (s.responded { code := .ok, ber := some (differingBytes x y, x.length) }) := by
  have passed : berRefusal 0x00#8 x y = none := by
    rw [berRefusal_noFlags, hl, BEq.rfl, checkThen_true, decide_eq_true (hl ▸ hx : 1 ≤ y.length), checkThen_true]
  exact congrArg _ (accept_started hq _ passed _)

end

/-- Settles O26: each check fails where the checks before it pass, and where all pass the count is that of the pairs. -/
theorem computeBerCountsDifferingBytes : Obligations.ComputeBerCountsDifferingBytes := by
  intro s f x y hq
  split_ifs with flagged lengths empty
  · exact exec_computeBer_flagged hq flagged x y
  · obtain rfl := not_not.mp flagged
    exact exec_computeBer_lengthsDiffer hq lengths
  · obtain rfl := not_not.mp flagged
    obtain rfl := List.eq_nil_of_length_eq_zero empty
    obtain rfl := List.eq_nil_of_length_eq_zero (not_not.mp lengths).symm
    exact exec_computeBer_empty hq
  · obtain rfl := not_not.mp flagged
    rw [← differingBytes_eq_countP]
    exact exec_computeBer_counts hq (not_not.mp lengths) (Nat.pos_of_ne_zero empty)

/-- Settles O27: the laws of the count, in the response that carries it. -/
theorem computeBerLaws : Obligations.ComputeBerLaws := by
  intro s x y hq hx
  refine ⟨?_, ?_, fun hl => ?_, ?_⟩
  · rw [exec_computeBer_counts hq rfl hx, differingBytes_self]
  · rw [exec_computeBer_counts hq (List.length_map _).symm hx, differingBytes_flipAllBits]
  · rw [exec_computeBer_counts hq hl hx, exec_computeBer_counts hq hl.symm (hl ▸ hx), differingBytes_comm, hl]
  · exact exec_computeBer_counts hq rfl (by decide)

end Sys2Proof.Machine

/-! The errors of an operation (60_exceptions.md): the state checks on every operation (R346, R350, R353), and the data
field of a response (R348, R362). -/

namespace Sys2Proof.Machine

/-! ## The state checks -/

/-- Every operation but COMPUTE_BER makes the state checks before all others; only IDENTIFY does without identification
(R353). -/
theorem exec_checksState {i : Instr} (hi : i.isOperation = true) (hber : ∀ f x y, i ≠ .computeBer f x y)
    (s : State) :
    ∃ others start, exec i s = .next (accept i s (stateChecks (!isIdentify i) s others) start) := by
  cases i with
  | identify _ | readPage _ _ | writePage _ _ _ | writePages _ _ _ | eraseBlock _ _ | eraseRange _ _ _
  | scanBadBlocks _ | seqReadBlock _ _ | getFeature _ _ | setFeature _ _ _ => exact ⟨_, _, rfl⟩
  | computeBer f x y => exact absurd rfl (hber f x y)
  | _ => simp [Instr.isOperation] at hi

/-- Settles O20: the first state check answers with the cause. -/
theorem abortedSessionAnswersItsCause : Obligations.AbortedSessionAnswersItsCause := by
  intro s c i hq aborted hi hber
  obtain ⟨others, start, hx⟩ := exec_checksState hi hber s
  rw [hx, accept_refused hq i (stateChecks_aborted aborted _ others)]

/-- Settles O21: the second state check, which IDENTIFY alone does without. -/
theorem unidentifiedEngineRefuses : Obligations.UnidentifiedEngineRefuses := by
  intro s i hq ha unidentified hi hid hber
  have needs : isIdentify i = false := by
    by_contra h
    obtain ⟨f, rfl⟩ := eq_identify_of_isIdentify (Bool.of_not_eq_false h)
    exact hid f rfl
  obtain ⟨others, start, hx⟩ := exec_checksState hi hber s
  rw [needs, Bool.not_false] at hx
  rw [hx, accept_refused hq i (stateChecks_notIdentified ha unidentified others)]

/-! ## The data field of a response -/

/-- The data field as the code demands it: unfilled in an error (R362), empty in BAD_BLOCK, which is no error (R287,
R348). -/
def Response.DataFitsCode (r : Response) : Prop :=
  (r.code ≠ .ok → r.code ≠ .badBlock → r.data = none) ∧ (r.code = .badBlock → r.data = some [])

theorem Response.IsError.dataFitsCode {r : Response} (h : r.IsError) : r.DataFitsCode :=
  ⟨fun _ _ => h.noData, fun hb => absurd hb h.notBadBlock⟩

theorem Response.dataFitsCode_of_ok {r : Response} (h : r.code = .ok) : r.DataFitsCode :=
  ⟨fun hok => absurd h hok, fun hb => by simp [h] at hb⟩

/-- The sequential read of a block with a bad marker answers BAD_BLOCK, with empty data (R287); every other procedure
ends with OK. -/
theorem okResponse_dataFitsCode (s : State) (q : Seq) : (okResponse s q).DataFitsCode := by
  unfold okResponse
  split
  case h_8 f b _ =>
    unfold seqResponse
    split
    · exact ⟨fun _ hb => absurd rfl hb, fun _ => rfl⟩
    · exact Response.dataFitsCode_of_ok rfl
  all_goals exact Response.dataFitsCode_of_ok rfl

/-- The code of a protocol-level error is an error's (R346). -/
theorem errorResponse_isError (q : Seq) {c : ResultCode} (hc : protocolError c ≠ none) :
    (errorResponse q c).IsError where
  noData := errorResponse_data q c
  notOk := by rw [errorResponse_code]; rintro rfl; exact hc rfl
  notBadBlock := by rw [errorResponse_code]; rintro rfl; exact hc rfl

/-! ## The errors an action raises -/

theorem identificationFailed_isError : identificationFailed.IsError := ⟨rfl, nofun, nofun⟩

/-- The move raises nothing but an error. -/
def Move.RaisesError : Move → Prop
  | .fail _ _ r => r.IsError
  | _ => True

theorem Move.raisesError_ite {c : Prop} [Decidable c] {m m' : Move} (h : m.RaisesError) (h' : m'.RaisesError) :
    (if c then m else m').RaisesError := by
  split
  · exact h
  · exact h'

theorem OutsideMove.raisesError {s : State} {q : Seq} {m : Move} (h : OutsideMove s q m) : m.RaisesError := by
  cases h with
  | go => trivial
  | push => trivial
  | fail _ _ _ error => exact error

theorem rangeNext_raisesError (s : State) (q : Seq) : (rangeNext s q).RaisesError := by
  unfold rangeNext
  dsimp only
  split
  · refine Move.raisesError_ite trivial ?_
    split
    · exact {}
    · trivial
  · trivial

/-- An action that raises, raises an error (R342, R344, R349). -/
theorem runAction_raisesError (a : Action) (s : State) (q : Seq) : (runAction a s q).RaisesError := by
  cases a with
  | keepIdBytes | takeStatus | seqPage | bulkMarker => trivial
  | checkSignature => exact Move.raisesError_ite trivial identificationFailed_isError
  | parsePage =>
    exact Move.raisesError_ite (Move.raisesError_ite trivial identificationFailed_isError) identificationFailed_isError
  | programVerdict att =>
    exact Move.raisesError_ite (Move.raisesError_ite (programFailure_isError q att.page) trivial) trivial
  | eraseVerdict => exact Move.raisesError_ite {} trivial
  | rangeNext => exact rangeNext_raisesError s q
  | scanNext => exact Move.raisesError_ite trivial trivial
  | seqNext => exact Move.raisesError_ite trivial trivial
  | bulkEntered =>
    exact Move.raisesError_ite (bulkLoop_outside s _ q {}).raisesError (bulkGoodBlock_outside s q q {}).raisesError
  | bulkErased => exact Move.raisesError_ite {} (bulkWrite_outside s q q {}).raisesError
  | bulkWritten => exact (bulkLoop_outside s _ q {}).raisesError

/-! ## What a step posts -/

/-- The responses are `rs`, or `rs` and one more whose data field fits its code. -/
inductive Posts (rs : List Response) (t : State) : Prop where
  | nothing (responses : t.responses = rs)
  | one (r : Response) (fits : r.DataFitsCode) (responses : t.responses = rs ++ [r])

/-- The response found posted on top of `rs` is that one. -/
theorem Posts.fits {rs : List Response} {t : State} {r : Response} (h : Posts rs t) (ht : t.responses = rs ++ [r]) :
    r.DataFitsCode := by
  cases h with
  | nothing responses => simp [responses] at ht
  | one r' fits responses =>
    obtain rfl : r' = r := by simpa [responses] using ht
    exact fits

section

variable {rs : List Response} {u : State}

theorem posts_error (h : u.responses = rs) {r : Response} (error : r.IsError) : Posts rs (u.post r) :=
  .one r error.dataFitsCode (by simp [h])

theorem posts_postError (h : u.responses = rs) {q : Seq} {r : Response} (error : r.IsError) :
    Posts rs (postError u q r) :=
  .one r error.dataFitsCode (by simp [h])

theorem posts_raise (h : u.responses = rs) {q : Seq} {r : Response} (error : r.IsError) : Posts rs (raise u q r) := by
  rcases raise_cases u q r with ⟨b, -, e⟩ | ⟨-, e⟩ <;> rw [e]
  · exact .nothing h
  · exact posts_postError h error

theorem posts_raiseAbsent (h : u.responses = rs) {q : Seq} : Posts rs (raiseAbsent u q) :=
  posts_raise h (errorResponse_isError q (by simp [protocolError]))

/-- Settling ends with the operation's own response or with an error its actions raise. -/
theorem posts_settle (h : u.responses = rs) {q : Seq} {todo : List Item} : Posts rs (settle u q todo) := by
  refine settle_rule (J := fun s _ _ => Computes u s) (P := Posts rs) ?_ ?_ ?_ ?_ ?_ ?_ ?_ todo u q (.refl u)
  · exact fun s q k => .one _ (okResponse_dataFitsCode s q) (congrArg (· ++ _) (k.responses.trans h))
  · exact fun s q rest k => k
  · exact fun s q rest k => k
  · exact fun a s q rest s' q' k hm => k.action hm
  · exact fun a s q rest s' q' items k hm => .nothing ((k.action hm).responses.trans h)
  · intro a s q rest s' q' r k hm
    have error := runAction_raisesError a s q
    rw [hm] at error
    exact posts_raise ((k.action hm).responses.trans h) error
  · exact fun s q it rest k _ => .nothing (k.responses.trans h)

end

/-! ## One transaction -/

section

variable {s : State} {q : Seq} {rest : List Item}

/-- A transaction posts what follows its answer. -/
theorem posts_transact (t : Transaction) {f g : State → State}
    (onOk : ∀ u : State, u.responses = s.responses → Posts s.responses (f u))
    (onAbsent : ∀ u : State, u.responses = s.responses → Posts s.responses (g u)) :
    Posts s.responses (transact t s f g) := by
  rcases transact_cases t s f g with ⟨-, e⟩ | ⟨as, -, e⟩ | ⟨a, as, -, -, e⟩ <;> rw [e]
  · exact .nothing rfl
  · exact onOk _ (by simp)
  · exact onAbsent _ (by simp)

theorem posts_simpleItem (t : Transaction) : Posts s.responses (simpleItem t s q rest) :=
  posts_transact t (fun _ hu => posts_settle hu) fun _ hu => posts_raiseAbsent hu

theorem posts_readDataItem (n : Nat) : Posts s.responses (readDataItem n s q rest) := by
  unfold readDataItem
  dsimp only
  split
  · exact .nothing rfl
  · split
    · exact posts_settle (by simp)
    · exact posts_raiseAbsent (by simp)
  · exact posts_raiseAbsent (by simp)

theorem posts_waitReadyItem : Posts s.responses (waitReadyItem s q rest) := by
  unfold waitReadyItem
  split
  · exact .nothing rfl
  · exact posts_settle (by simp)
  · split
    · exact posts_raise (by simp) (errorResponse_isError q (by simp [protocolError]))
    · exact .nothing (by simp)
  · exact posts_raiseAbsent (by simp)

theorem posts_guardOpenItem : Posts s.responses (guardOpenItem s q rest) := by
  unfold guardOpenItem
  exact posts_transact _ (fun u hu => posts_settle (u := { u with wpProtect := false }) hu)
    fun _ hu => posts_raiseAbsent hu

/-- After the guard's restore the error that waited for it is posted (R345). -/
theorem posts_afterRestore {rs : List Response} {u : State} (h : u.responses = rs)
    (waiting : ∀ r, q.pending = some r → r.IsError) (ok : Bool) : Posts rs (afterRestore ok u q rest) := by
  unfold afterRestore
  dsimp only
  split
  case h_1 r hp => exact posts_postError h (waiting r hp)
  case h_2 =>
    split
    · exact posts_settle h
    · exact posts_raiseAbsent h

theorem posts_guardCloseItem (waiting : ∀ r, q.pending = some r → r.IsError) :
    Posts s.responses (guardCloseItem s q rest) := by
  unfold guardCloseItem
  exact posts_transact _
    (fun u hu => posts_afterRestore (u := { u with wpProtect := q.saved.getD s.wpProtect }) hu waiting true)
    fun u hu => posts_afterRestore (u := { u with wpProtect := q.saved.getD s.wpProtect }) hu waiting false

/-- Every item but a command latch, in the order of `performItem` (R33). -/
theorem posts_performItem (waiting : ∀ r, q.pending = some r → r.IsError) (todo : List Item) :
    Posts s.responses (performItem s q todo) := by
  unfold performItem
  split
  · exact posts_simpleItem _
  · exact posts_simpleItem _
  · exact posts_settle (u := s.recordDelay) rfl
  · exact posts_simpleItem _
  · exact posts_readDataItem _
  · exact posts_waitReadyItem
  · exact posts_guardOpenItem
  · exact posts_guardCloseItem waiting
  · exact posts_settle rfl

/-- With the invariant, the error that waits for a guard's restore is an error (R157, R345). -/
theorem SeqInv.pending_isError (h : SeqInv s q) (r : Response) (hp : q.pending = some r) : r.IsError := by
  obtain ⟨-, noData, notOk, notBadBlock⟩ := h.pendingRestore r hp
  exact ⟨noData, notOk, notBadBlock⟩

end

theorem posts_step_busy {s t : State} {q : Seq} (h : SeqInv s q) (hr : s.resetInput = false) (hq : s.seq = some q)
    (hst : step s = .next t) : Posts s.responses t := by
  obtain ⟨it, rest, ht, -⟩ := h.atTransaction
  rcases step_busy hr hq ht with ⟨b, -, -, e⟩ | ⟨b, -, -, e⟩ | ⟨-, e⟩ <;> rw [e] at hst
  · cases hst
  · obtain rfl := Host.Outcome.next.inj hst
    exact posts_simpleItem _
  · obtain rfl := Host.Outcome.next.inj hst
    exact posts_performItem h.pending_isError _

/-! ## The acceptance of a request -/

/-- Where the request is refused, it is refused with an error (R349, R350). -/
def RefusesWithError (refusal : Option Response) : Prop := ∀ r, refusal = some r → r.IsError

theorem refusesWithError_none : RefusesWithError none := fun r h => absurd h (Option.some_ne_none r).symm

theorem RefusesWithError.check {r : Response} {others : Option Response} (h : RefusesWithError others)
    (error : r.IsError) (ok : Bool) : RefusesWithError (checkThen ok r others) := by
  cases ok with
  | true => exact h
  | false =>
    intro r' hr'
    exact Option.some.inj hr' ▸ error

theorem RefusesWithError.argument {others : Option Response} (h : RefusesWithError others) (ok : Bool) :
    RefusesWithError (checkThen ok invalidArgument others) := by
  unfold invalidArgument
  exact h.check {} ok

theorem RefusesWithError.index {others : Option Response} (h : RefusesWithError others) (ok : Bool) (n : Nat) :
    RefusesWithError (checkThen ok (invalidIndex n) others) := by
  unfold invalidIndex
  exact h.check {} ok

theorem RefusesWithError.count {others : Option Response} (h : RefusesWithError others) (ok : Bool) (n : Nat) :
    RefusesWithError (checkThen ok (invalidCount n) others) := by
  unfold invalidCount
  exact h.check {} ok

/-- The first checks of a device operation and of IDENTIFY: the state, then the flags (R82, R353). -/
theorem RefusesWithError.entry {others : Option Response} (h : RefusesWithError others) (n : Bool) (s : State)
    (d f : Byte) : RefusesWithError (stateChecks n s (checkThen (flagsDefined d f) invalidArgument others)) := by
  unfold stateChecks
  split
  case h_1 c _ =>
    intro r hr
    obtain rfl := Option.some.inj hr
    cases c <;> exact ⟨rfl, nofun, nofun⟩
  case h_2 =>
    split
    · intro r hr
      obtain rfl := Option.some.inj hr
      exact {}
    · exact h.argument _

theorem buffersCheck_refusesWithError (n : Nat) (bufs : List (List Byte)) :
    RefusesWithError (buffersCheck n bufs) := by
  unfold buffersCheck
  split
  · exact refusesWithError_none.index false _
  · exact refusesWithError_none

section

variable {s : State}

theorem posts_accept (hq : s.seq = none) (i : Instr) {refusal : Option Response} {start : State → State}
    (refused : RefusesWithError refusal) (started : Posts s.responses (start s)) :
    Posts s.responses (accept i s refusal start) := by
  rcases accept_cases i s refusal start with ⟨busy, -⟩ | ⟨-, r, hr, e⟩ | ⟨-, -, e⟩
  · simp [hq] at busy
  · rw [e]
    exact posts_error rfl (refused r hr)
  · rwa [e]

/-- The bulk write begins with its loop (R238). -/
theorem posts_bulkLoop (q : Seq) : Posts s.responses (startMove (bulkLoop s q)) := by
  have move := bulkLoop_outside s q q {}
  generalize bulkLoop s q = m at move
  cases move with
  | go q' => exact posts_settle rfl
  | push => exact .nothing rfl
  | fail q' r _ error => exact posts_raise rfl error

/-- An operation on an idle engine posts at most the refusal or what its procedure comes to (R353). -/
theorem exec_operation_posts {i : Instr} (hi : i.isOperation = true) (hq : s.seq = none) :
    ∃ t, exec i s = .next t ∧ Posts s.responses t := by
  have passed := refusesWithError_none
  cases i with
  | identify f =>
    exact ⟨_, rfl, posts_accept hq _ (passed.entry _ _ _ _)
      (posts_settle (u := s.startIdentification) rfl)⟩
  | readPage f p => exact ⟨_, rfl, posts_accept hq _ ((passed.index _ _).entry _ _ _ _) (posts_settle rfl)⟩
  | writePage f p buf =>
    exact ⟨_, rfl, posts_accept hq _ (((passed.count _ _).index _ _).entry _ _ _ _) (posts_settle rfl)⟩
  | writePages f p bufs =>
    exact ⟨_, rfl, posts_accept hq _
      (((((buffersCheck_refusesWithError _ _).argument _).index _ _).index _ _).entry _ _ _ _) (posts_bulkLoop _)⟩
  | eraseBlock f b => exact ⟨_, rfl, posts_accept hq _ ((passed.index _ _).entry _ _ _ _) (posts_settle rfl)⟩
  | eraseRange f b₀ b₁ =>
    exact ⟨_, rfl, posts_accept hq _ (((passed.index _ _).index _ _).entry _ _ _ _) (posts_settle rfl)⟩
  | scanBadBlocks f => exact ⟨_, rfl, posts_accept hq _ ((passed.argument _).entry _ _ _ _) (posts_settle rfl)⟩
  | seqReadBlock f b =>
    exact ⟨_, rfl, posts_accept hq _ (((passed.argument _).index _ _).entry _ _ _ _) (posts_settle rfl)⟩
  | getFeature f a => exact ⟨_, rfl, posts_accept hq _ ((passed.index _ _).entry _ _ _ _) (posts_settle rfl)⟩
  | setFeature f a v =>
    exact ⟨_, rfl, posts_accept hq _ (((passed.count _ _).index _ _).entry _ _ _ _) (posts_settle rfl)⟩
  | computeBer f x y =>
    exact ⟨_, rfl, posts_accept hq _ (((passed.argument _).count _ _).argument _)
      (.one _ (Response.dataFitsCode_of_ok rfl) rfl)⟩
  | _ => simp [Instr.isOperation] at hi

end

theorem posts_step_idle {s t : State} (hr : s.resetInput = false) (hq : s.seq = none) (hst : step s = .next t) :
    Posts s.responses t := by
  rcases step_idle_cases hr hq hst with rfl | ⟨r, rs, -, rfl | ⟨i, hd, he⟩⟩
  · exact .nothing rfl
  · exact posts_error (u := { s with requests := rs }) rfl {}
  · obtain ⟨t', he', posts⟩ :=
      exec_operation_posts (s := { s with requests := rs }) (isOperation_of_decodeRequest hd) hq
    obtain rfl := Host.Outcome.next.inj (he.symm.trans he')
    exact posts

/-- Settles O59: whatever a step posts is an error without data, or the response an operation ends with, whose only code
but OK is BAD_BLOCK. -/
theorem errorResponsesCarryNoData : Obligations.ErrorResponsesCarryNoData := by
  intro s t r h hr hst posted
  cases hq : s.seq with
  | none => exact (posts_step_idle hr hq hst).fits posted
  | some q => exact (posts_step_busy (h.running q hq) hr hq hst).fits posted

end Sys2Proof.Machine
